-- ==== Sys2Proof/Word.lean ====
section
/-! DEFINITION. The word types of the PRU: 32-bit registers (R6), 8-bit memory bytes (R60). -/

namespace Sys2Proof

/-- A register value: every register is 32 bits (R6). -/
abbrev Word := BitVec 32

/-- One byte of memory (R42, R60). -/
abbrev Byte := BitVec 8

end Sys2Proof
end

