-- ==== Sys2Proof/Syntax.lean ====
section
/-! DEFINITION. The PRU's commands: one constructor per row of the opcode map (R81), and the one command-word
format CW they are written in (R80). -/

namespace Sys2Proof

/-- A descriptor slot, named by a 2-bit field (R32, R84). -/
inductive Slot where
  | s0
  | s1
  | s2
  | s3
  deriving DecidableEq, Repr

/-- A command (R81). `raw` is the RAW bit: physical coordinates, no orientation transform (R83). -/
inductive Instr where
  /-- NOP, opcode 0x00 (R155). -/
  | nop
  /-- GETPIX, opcode 0x01 (R172). -/
  | getpix (src : Slot) (raw : Bool)
  /-- PUTPIX, opcode 0x02 (R173). -/
  | putpix (dst : Slot) (raw : Bool)
  /-- LINE, opcode 0x03 (R174). -/
  | line (dst : Slot) (raw : Bool)
  /-- HLINE, opcode 0x04 (R177). -/
  | hline (dst : Slot) (raw : Bool)
  /-- HLINEW, opcode 0x05 (R178). -/
  | hlinew (dst : Slot) (raw : Bool)
  /-- VLINE, opcode 0x06 (R179). -/
  | vline (dst : Slot) (raw : Bool)
  /-- VLINEH, opcode 0x07 (R180). -/
  | vlineh (dst : Slot) (raw : Bool)
  /-- BLIT, opcode 0x08: source slot, destination slot (R200). -/
  | blit (src dst : Slot) (raw : Bool)
  /-- SUBVIEW, opcode 0x09: parent slot, result slot (R156). -/
  | subview (parent result : Slot)
  /-- ROTCW, opcode 0x0A (R160). -/
  | rotcw (slot : Slot)
  /-- ROTCCW, opcode 0x0B (R161). -/
  | rotccw (slot : Slot)
  /-- FLIPX, opcode 0x0C (R162). -/
  | flipx (slot : Slot)
  /-- FLIPY, opcode 0x0D (R163). -/
  | flipy (slot : Slot)
  deriving DecidableEq, Repr

/-- The fields of a command word, format CW (R80). -/
structure CommandFields where
  /-- OPC, bits 7:0. -/
  opc : BitVec 8
  /-- S, bits 9:8. -/
  s : BitVec 2
  /-- T, bits 11:10. -/
  t : BitVec 2
  /-- RAW, bit 12. -/
  raw : Bool
  /-- Bits 31:13, reserved. -/
  reserved : BitVec 19
  deriving DecidableEq, Repr

end Sys2Proof
end

