-- ==== Sys2Proof/WellFormed.lean ====
section
/-! DEFINITION. Which command words are legal, field by field: the five ways R87 lists for a word to be illegal. The
operands of `Instr` are typed so that every `Instr` is meaningful; what can be ill formed is the word. -/

namespace Sys2Proof.CommandFields

/-- The opcode is one of 0x00..0x0D (R81, R87). -/
def opcodeListed (f : CommandFields) : Bool := f.opc.toNat ≤ 0x0D

/-- Bits 31:13 are zero (R80, R87). -/
def reservedZero (f : CommandFields) : Bool := f.reserved = 0

/-- Only BLIT and SUBVIEW take a secondary slot (R81). -/
def takesT (f : CommandFields) : Bool := f.opc = 0x08 || f.opc = 0x09

/-- Only the commands 0x01..0x08, which take coordinates through `map`, have a RAW variant (R81, R83). -/
def takesRaw (f : CommandFields) : Bool := 0x01 ≤ f.opc.toNat && f.opc.toNat ≤ 0x08

/-- T is zero in a command that reserves it (R87). -/
def tAllowed (f : CommandFields) : Bool := f.takesT || f.t = 0

/-- RAW is zero in a command that reserves it (R87). -/
def rawAllowed (f : CommandFields) : Bool := f.takesRaw || !f.raw

/-- NOP has S = 0 (R87). -/
def nopSlotZero (f : CommandFields) : Bool := f.opc ≠ 0x00 || f.s = 0

/-- A well-formed command word: none of R87's five conditions holds. -/
def wellFormed (f : CommandFields) : Bool :=
  f.opcodeListed && f.reservedZero && f.tAllowed && f.rawAllowed && f.nopSlotZero

end Sys2Proof.CommandFields
end

