-- ==== Sys2Proof/Decode.lean ====
section
/-! DEFINITION. Decoding a command word by the match and mask rows of R82, total and refusing by name, and the encoder
written from the fields of R80 and R81. -/

namespace Sys2Proof

/-- Why a word matches no row, one name per bullet of R87. The unit reports BAD_CMD for each. -/
inductive DecodeReject where
  /-- An opcode 0x0E..0xFF. -/
  | reservedOpcode
  /-- A nonzero bit in 31:13. -/
  | reservedBits
  /-- A nonzero S, T or RAW in NOP. -/
  | nopField
  /-- A nonzero T in a command that reserves it. -/
  | reservedT
  /-- RAW = 1 in a command that reserves it. -/
  | reservedRaw
  deriving DecidableEq, Repr

/-- The slot a 2-bit field names (R84). -/
def Slot.ofBits (b : BitVec 2) : Slot :=
  match b.toNat with
  | 0 => .s0
  | 1 => .s1
  | 2 => .s2
  | _ => .s3

/-- The 2-bit field that names a slot (R84). -/
def Slot.bits : Slot → BitVec 2
  | .s0 => 0
  | .s1 => 1
  | .s2 => 2
  | .s3 => 3

/-- The fields of a command word (R80). -/
def fieldsOf (cw : Word) : CommandFields where
  opc := cw.extractLsb' 0 8
  s := cw.extractLsb' 8 2
  t := cw.extractLsb' 10 2
  raw := cw.getLsbD 12
  reserved := cw.extractLsb' 13 19

/-- One row of R82: the words it matches, and the command they mean given their S, T and RAW fields. -/
structure OpcodeRow where
  pattern : Word
  mask : Word
  build : Slot → Slot → Bool → Instr

/-- The match and mask table (R82), one row per opcode in the order of R81. -/
def opcodeRows : List OpcodeRow :=
  [ ⟨0x00000000, 0xFFFFFFFF, fun _ _ _ => .nop⟩,
    ⟨0x00000001, 0xFFFFECFF, fun s _ r => .getpix s r⟩,
    ⟨0x00000002, 0xFFFFECFF, fun s _ r => .putpix s r⟩,
    ⟨0x00000003, 0xFFFFECFF, fun s _ r => .line s r⟩,
    ⟨0x00000004, 0xFFFFECFF, fun s _ r => .hline s r⟩,
    ⟨0x00000005, 0xFFFFECFF, fun s _ r => .hlinew s r⟩,
    ⟨0x00000006, 0xFFFFECFF, fun s _ r => .vline s r⟩,
    ⟨0x00000007, 0xFFFFECFF, fun s _ r => .vlineh s r⟩,
    ⟨0x00000008, 0xFFFFE0FF, fun s t r => .blit s t r⟩,
    ⟨0x00000009, 0xFFFFF0FF, fun s t _ => .subview s t⟩,
    ⟨0x0000000A, 0xFFFFFCFF, fun s _ _ => .rotcw s⟩,
    ⟨0x0000000B, 0xFFFFFCFF, fun s _ _ => .rotccw s⟩,
    ⟨0x0000000C, 0xFFFFFCFF, fun s _ _ => .flipx s⟩,
    ⟨0x0000000D, 0xFFFFFCFF, fun s _ _ => .flipy s⟩ ]

/-- A word matches a row when its masked bits are the row's (R82). -/
def OpcodeRow.accepts (r : OpcodeRow) (cw : Word) : Bool := cw &&& r.mask == r.pattern

/-- The name of the R87 bullet a word that matches no row falls under. -/
def rejectReason (cw : Word) : DecodeReject :=
  let f := fieldsOf cw
  if !f.opcodeListed then .reservedOpcode
  else if !f.reservedZero then .reservedBits
  else if f.opc = 0x00 then .nopField
  else if !f.tAllowed then .reservedT
  else .reservedRaw

/-- Decoding (R86): the first row of R82 that the word matches, else a named reject, which the unit reports as
BAD_CMD. -/
def decode (cw : Word) : Except DecodeReject Instr :=
  match opcodeRows.find? (fun r => r.accepts cw) with
  | some r => .ok (r.build (Slot.ofBits (fieldsOf cw).s) (Slot.ofBits (fieldsOf cw).t) (fieldsOf cw).raw)
  | none => .error (rejectReason cw)

/-- The fields of a command (R81); a field the command reserves is 0. -/
def Instr.fields : Instr → CommandFields
  | .nop => ⟨0x00, 0, 0, false, 0⟩
  | .getpix s r => ⟨0x01, s.bits, 0, r, 0⟩
  | .putpix s r => ⟨0x02, s.bits, 0, r, 0⟩
  | .line s r => ⟨0x03, s.bits, 0, r, 0⟩
  | .hline s r => ⟨0x04, s.bits, 0, r, 0⟩
  | .hlinew s r => ⟨0x05, s.bits, 0, r, 0⟩
  | .vline s r => ⟨0x06, s.bits, 0, r, 0⟩
  | .vlineh s r => ⟨0x07, s.bits, 0, r, 0⟩
  | .blit s t r => ⟨0x08, s.bits, t.bits, r, 0⟩
  | .subview s t => ⟨0x09, s.bits, t.bits, false, 0⟩
  | .rotcw s => ⟨0x0A, s.bits, 0, false, 0⟩
  | .rotccw s => ⟨0x0B, s.bits, 0, false, 0⟩
  | .flipx s => ⟨0x0C, s.bits, 0, false, 0⟩
  | .flipy s => ⟨0x0D, s.bits, 0, false, 0⟩

/-- The word with the given fields, each at its place in CW (R80). -/
def wordOf (f : CommandFields) : Word :=
  f.reserved ++ BitVec.ofBool f.raw ++ f.t ++ f.s ++ f.opc

/-- The command word of a command (R80, R81). -/
def encode (i : Instr) : Word := wordOf i.fields

/-- The command the decoder reads from a table word: the low `nbits` of `w`, every bit above them 0. A command is one
32-bit register write (R88), so there is no byte layout to undo. -/
def decodeTableWord (nbits w : Nat) : Option Instr :=
  match decode (BitVec.ofNat 32 (w % 2 ^ nbits)) with
  | .ok i => some i
  | .error _ => none

end Sys2Proof
end

