-- ==== Sys2Proof/Config.lean ====
section
/-! DEFINITION. What one PRU's platform fixes and what the spec leaves open. Each constant is opaque: no proof can see
its value, so a claim that mentions one holds for every value. The four OPEN parameters of R6 are among them. -/

namespace Sys2Proof.Config

/-- `CONVERT`, the external colour-conversion port: a total function of the raw value, the source type and the
destination type, of which nothing else is assumed (R201; assumption 7). -/
opaque convert (raw : Word) (srcType dstType : BitVec 5) : Word

/-- How many pixel writes the command aborted at the n-th open choice had made, before the bound by the length of
its write sequence (R252; assumption 4). -/
opaque abortedWrites : Nat → Nat

/-- STATUS.ERR after a completion with an error in the same step as a STATUS write that clears ERR, at the n-th open
choice. R231 settles DONE only (assumption 6). -/
opaque errOnClash : Nat → Bool

/-- `REG_BASE`, the platform address of the register window (R20, OPEN; assumption 12). -/
opaque regBase : Word

/-- `IRQ_LINE`, the platform's interrupt-controller input that the unit's interrupt output drives (R6, R230, OPEN;
assumption 12). -/
opaque irqLine : Nat

/-- `RESET_INPUT`, how the platform drives the reset input: for how many turns it holds the input asserted (R6, R250,
OPEN; assumption 12). -/
opaque resetInput : Nat

/-- `HOST_COHERENCE`, the platform's host-side buffering: which operation of the host's program reaches the unit or
memory n-th (R6, R267, OPEN; assumption 12). -/
opaque hostCoherence (n : Nat) : Nat

/-- What memory holds at power-up, as cells of an address and a byte; the contents are unspecified (R42, R250;
assumption 1). -/
opaque powerUpCells : List (Nat × Byte)

/-- The platform address of a window offset (R20). The model's host accesses name the offset. -/
def windowAddress (off : Nat) : Word := regBase + BitVec.ofNat 32 off

end Sys2Proof.Config
end

