-- ==== Sys2Proof/Machine/Memory.lean ====
section
/-! DEFINITION. Memory (10_state.md R42, 20_memory.md R60): one byte per address in one canonical list, `MemRead` and
`MemWrite`, and the unspecified contents at power-up. -/

namespace Sys2Proof.Machine

/-- Memory: the bytes that differ from what an unlisted address holds, by rising address (R42, R60; assumption 1). -/
abbrev Memory := List Host.Cell

/-- The number of addresses of the memory space (R60). -/
def addressSpace : Nat := 2 ^ 32

/-- What an unlisted byte holds: the fixed byte of the representation, in which every contents of memory can be written
(assumption 1). It is no claim about a byte nothing has written: what those hold is `Memory.powerUp`. -/
def Memory.blank : Byte := 0x00

/-- One byte of memory (R42). -/
def Memory.read (m : Memory) (a : Nat) : Byte :=
  match m with
  | [] => Memory.blank
  | (c, b) :: rest => if c = a then b else Memory.read rest a

/-- `byte[a] <- b`, in the canonical form: a byte that reads as an unlisted one is not listed. -/
def Memory.write (m : Memory) (a : Nat) (b : Byte) : Memory :=
  match m with
  | [] => if b = Memory.blank then [] else [(a, b)]
  | (c, x) :: rest =>
    if a < c then (if b = Memory.blank then (c, x) :: rest else (a, b) :: (c, x) :: rest)
    else if a = c then (if b = Memory.blank then rest else (a, b) :: rest)
    else (c, x) :: Memory.write rest a b

/-- The canonical form from a lower bound on the addresses still to come: strictly rising addresses, no byte equal to
what an unlisted address reads as. -/
def Memory.wfFrom (low : Nat) : Memory → Bool
  | [] => true
  | (c, b) :: rest => decide (low ≤ c) && decide (b ≠ Memory.blank) && Memory.wfFrom (c + 1) rest

/-- The canonical form of memory. -/
def Memory.wf (m : Memory) : Bool := Memory.wfFrom 0 m

/-- Every listed address is one of the memory space's (R60). -/
def Memory.inSpace (m : Memory) : Bool := m.all (fun c => decide (c.1 < addressSpace))

/-- `MemRead(a, n)`: the n bytes from `a`, little-endian (R9, R61). -/
def memRead (m : Memory) (a : Nat) : Nat → Nat
  | 0 => 0
  | n + 1 => (m.read a).toNat + 256 * memRead m (a + 1) n

/-- `MemWrite(a, n, v)`: the low n bytes of `v` from `a`, little-endian (R9, R61). -/
def memWrite (m : Memory) (a : Nat) : Nat → Nat → Memory
  | 0, _ => m
  | n + 1, v => memWrite (m.write a (BitVec.ofNat 8 v)) (a + 1) n (v / 256)

/-- Cells of the memory space taken as memory, the last one of an address counting. -/
def Memory.ofCells (cells : List Host.Cell) : Memory :=
  cells.foldl (fun m c => if c.1 < addressSpace then Memory.write m c.1 c.2 else m) []

/-- Memory at power-up: any contents whatever (R42, R250; assumption 1). -/
def Memory.powerUp : Memory := Memory.ofCells Config.powerUpCells

end Sys2Proof.Machine
end

