-- ==== Sys2Proof/Machine/State.lean ====
section
/-! DEFINITION. The state of the PRU as plain data: every register and field of 10_state.md, the command in flight,
memory, and the model's own queue of host operations; the reasons a step can stop; the state after reset. -/

namespace Sys2Proof.Machine

/-- The error codes of R225. The reserved codes 0x7 and 0x9..0xF are never produced, so they have no constructor. -/
inductive ErrCode where
  /-- 0x0 OK. -/
  | ok
  /-- 0x1 BAD_CMD. -/
  | badCmd
  /-- 0x2 BAD_PTYPE. -/
  | badPtype
  /-- 0x3 UNIMPL_FORMAT. -/
  | unimplFormat
  /-- 0x4 BAD_DESC. -/
  | badDesc
  /-- 0x5 BAD_CLIP. -/
  | badClip
  /-- 0x6 BLIT_BOUNDS. -/
  | blitBounds
  /-- 0x8 SUBVIEW_BOUNDS. -/
  | subviewBounds
  deriving DecidableEq, Repr

/-- One descriptor slot: the non-reserved fields of R32, each storing any value written. -/
structure Desc where
  /-- BASE, byte address of the byte holding physical pixel (0, 0) (R33). -/
  base : Word
  /-- STRIDE, bytes from one row to the next (R34). -/
  stride : Word
  /-- DIM.W, physical width (R35). -/
  width : BitVec 16
  /-- DIM.H, physical height (R35). -/
  height : BitVec 16
  /-- FMT.PTYPE (R36). -/
  ptype : BitVec 5
  /-- FMT.ENDIAN: true is the BE convention (R36, R105). -/
  endian : Bool
  /-- FMT.BITOFF (R36). -/
  bitoff : BitVec 3
  /-- CLIPX.XMIN (R37). -/
  xmin : BitVec 16
  /-- CLIPX.XMAX (R37). -/
  xmax : BitVec 16
  /-- CLIPY.YMIN (R38). -/
  ymin : BitVec 16
  /-- CLIPY.YMAX (R38). -/
  ymax : BitVec 16
  /-- ORIENT.AXES_SWAP (R39). -/
  axesSwap : Bool
  /-- ORIENT.X_SWAP (R39). -/
  xSwap : Bool
  /-- ORIENT.Y_SWAP (R39). -/
  ySwap : Bool
  deriving DecidableEq, Repr

/-- A slot in its reset state (R43). -/
def Desc.reset : Desc where
  base := 0
  stride := 0
  width := 0
  height := 0
  ptype := 0
  endian := false
  bitoff := 0
  xmin := 0
  xmax := 0
  ymin := 0
  ymax := 0
  axesSwap := false
  xSwap := false
  ySwap := false

/-- The four descriptor slots (R32). -/
structure Slots where
  d0 : Desc
  d1 : Desc
  d2 : Desc
  d3 : Desc
  deriving DecidableEq, Repr

/-- The registers a command reads as its operands and takes at issue: ARG0..ARG5, COLOR and the descriptor slots
(R25, R26, R32, R220). -/
structure Regs where
  arg0 : Word
  arg1 : Word
  arg2 : Word
  arg3 : Word
  arg4 : Word
  arg5 : Word
  color : Word
  slots : Slots
  deriving DecidableEq, Repr

/-- The operand registers after reset (R43). -/
def Regs.reset : Regs where
  arg0 := 0
  arg1 := 0
  arg2 := 0
  arg3 := 0
  arg4 := 0
  arg5 := 0
  color := 0
  slots := ⟨Desc.reset, Desc.reset, Desc.reset, Desc.reset⟩

/-- A command in flight: its word and the operand registers as of its issue (R41, R220). -/
structure Flight where
  word : Word
  regs : Regs
  deriving DecidableEq, Repr

/-- What moves next: an operation of the host on the unit's outside, or a turn of the unit (assumption 2). -/
inductive Input where
  /-- A host write of `size` bytes at a window offset (R20, R89 `WR`). -/
  | regWrite (off size : Nat) (v : Word)
  /-- A host read of `size` bytes at a window offset (R20, R89 `RD`). -/
  | regRead (off size : Nat)
  /-- A host byte write to memory (R89 `MWR8`). -/
  | memWrite (a : Word) (b : Byte)
  /-- A host byte read from memory (R89 `MRD8`). -/
  | memRead (a : Word)
  /-- The unit's turn: it runs its command in flight, if any, to completion (R221). -/
  | unit
  /-- The host reads STATUS until BUSY = 0 (R89 `POLL`; assumption 16). -/
  | poll
  /-- A host write to STATUS in the same step as the unit's completion (R231). -/
  | statusAtCompletion (v : Word)
  /-- The hardware reset input becomes asserted (R250). -/
  | resetAssert
  /-- The hardware reset input becomes deasserted (R250). -/
  | resetRelease
  deriving DecidableEq, Repr

/-- Why the machine stops with a fault. -/
inductive Fault where
  /-- A command's access at an address of 2^32 or more, which does not exist (R60). Raised by the shared end of a
  command; unreachable, since every access of a legal surface stays in its footprint (R65). Safe. -/
  | outsideAddressSpace
  deriving DecidableEq, Repr

/-- Why a step has no meaning. -/
inductive Refusal where
  /-- Raised by an arm of `exec` for a command that has no meaning yet. Safe. -/
  | notModelled (mnemonic : String)
  /-- Raised by a sub-word or misaligned access to the register window, which has no meaning in the spec (R20). Safe. -/
  | narrowRegisterAccess
  /-- Raised by a register access at an offset outside the 0x200-byte window, which is no access to the unit (R20). Safe. -/
  | outsideWindow
  /-- Raised by a host memory access to the footprint of a slot the command in flight uses, a race without meaning
  (R73, R268). Safe. -/
  | footprintRace
  /-- Raised by a command on a surface, or a host access to a byte, that the platform does not serve as plain RAM (R67,
  R69; assumption 8). Safe. -/
  | unservedMemory
  deriving DecidableEq, Repr

/-- The whole state. -/
structure State where
  /-- CTRL.IRQ_EN (R22). -/
  irqEn : Bool
  /-- STATUS.DONE (R23). -/
  done : Bool
  /-- STATUS.ERR, sticky (R23). -/
  err : Bool
  /-- STATUS.WIGN, sticky (R23, R44). -/
  wign : Bool
  /-- STATUS.ERRCODE (R23, R225). -/
  errcode : ErrCode
  /-- ARG0..ARG5, COLOR and the descriptor slots (R25, R26, R32). -/
  regs : Regs
  /-- RESULT (R27). -/
  result : Word
  /-- The command in flight; STATUS.BUSY = 1 exactly while there is one (R41; assumption 14). -/
  flight : Option Flight
  /-- The level of the hardware reset input: true while it is asserted (R250). -/
  resetHeld : Bool
  /-- The memory space (R42, R60). -/
  mem : Memory
  /-- The model's own: address spans, first and last, that the platform does not serve as plain RAM (R67, R69;
  assumption 8). -/
  unserved : List (Nat × Nat)
  /-- The model's own: who moves next, and how (assumption 2). -/
  inputs : List Input
  /-- The model's own: the values host reads returned, newest first (assumption 10). -/
  readLog : List Word
  /-- The model's own: how many open choices have been taken (assumption 4). -/
  choices : Nat
  deriving DecidableEq, Repr

/-- The machine after a hardware reset at power-up, the reset input deasserted (R43, R250): memory holds any contents
(assumption 1); the model's own fields are as assumptions 2, 4, 8 and 10 name them. -/
def State.reset : State where
  irqEn := false
  done := false
  err := false
  wign := false
  errcode := .ok
  regs := Regs.reset
  result := 0
  flight := none
  resetHeld := false
  mem := Memory.powerUp
  unserved := []
  inputs := []
  readLog := []
  choices := 0

/-- What a step answers. -/
abbrev Outcome := Host.Outcome State Fault Refusal

end Sys2Proof.Machine
end

