-- ==== Sys2Proof/Machine/Ops.lean ====
section
/-! DEFINITION. The named operations over registers that every command shares: slot access, the platform's service of a
byte, issue, and completion with a code, which is how the PRU takes an error. -/

namespace Sys2Proof.Machine

/-! ### Slots -/

/-- `desc[s]` (R9, R32). -/
def Slots.get (d : Slots) : Slot → Desc
  | .s0 => d.d0
  | .s1 => d.d1
  | .s2 => d.d2
  | .s3 => d.d3

/-- `desc[s] <- v` (R9, R32). -/
def Slots.set (d : Slots) (s : Slot) (v : Desc) : Slots :=
  match s with
  | .s0 => { d with d0 := v }
  | .s1 => { d with d1 := v }
  | .s2 => { d with d2 := v }
  | .s3 => { d with d3 := v }

/-- Slot `s` of a set of operand registers. -/
def Regs.desc (r : Regs) (s : Slot) : Desc := r.slots.get s

/-- The operand registers with slot `s` replaced. -/
def Regs.setDesc (r : Regs) (s : Slot) (d : Desc) : Regs := { r with slots := r.slots.set s d }

/-! ### The platform -/

/-- The platform serves the byte at `a` as plain RAM (R67, R69; assumption 8). -/
def servedByte (unserved : List (Nat × Nat)) (a : Nat) : Bool :=
  unserved.all (fun span => decide (a < span.1) || decide (span.2 < a))

/-! ### Command lifecycle -/

/-- STATUS.BUSY (R23): 1 while the unit holds a command in flight (R41). -/
def State.busy (s : State) : Bool := s.flight.isSome

/-- The registers a command reads: those taken at its issue (R220, R45). With no command in flight, the registers as
they stand (assumption 14). -/
def State.operands (s : State) : Regs :=
  match s.flight with
  | some f => f.regs
  | none => s.regs

/-- Issue of a command word: DONE is cleared and the unit takes the word and the operand registers (R220). -/
def State.issue (s : State) (cw : Word) : State :=
  { s with done := false, flight := some { word := cw, regs := s.regs } }

/-- Completion with a code (R222), the one way a command ends, with or without error: ERRCODE takes the code, ERR is
set if it is not 0, DONE is set and BUSY cleared, in one step (R273). -/
def State.complete (s : State) (c : ErrCode) : State :=
  { s with errcode := c, err := s.err || decide (c ≠ .ok), done := true, flight := none }

end Sys2Proof.Machine
end

