-- ==== Sys2Proof/Machine/Flags.lean ====
section
/-! DEFINITION. The STATUS and CTRL registers as the host sees them: error-code values, the STATUS word, write-1-to-clear,
the interrupt output. -/

namespace Sys2Proof.Machine

/-- The ERRCODE value of a code (R225). -/
def ErrCode.bits : ErrCode → BitVec 4
  | .ok => 0x0
  | .badCmd => 0x1
  | .badPtype => 0x2
  | .unimplFormat => 0x3
  | .badDesc => 0x4
  | .badClip => 0x5
  | .blitBounds => 0x6
  | .subviewBounds => 0x8

/-- Whether a code is of the programmer-error class, 0x1..0x7, rather than recoverable, 0x8..0xF (R226). The unit treats
both alike. -/
def ErrCode.isProgrammerError (c : ErrCode) : Bool := decide (1 ≤ c.bits.toNat) && decide (c.bits.toNat ≤ 7)

/-- The STATUS register (R23): BUSY 0, DONE 1, ERR 2, WIGN 3, ERRCODE 11:8, the rest 0. -/
def State.statusWord (s : State) : Word :=
  (0 : BitVec 20) ++ s.errcode.bits ++ (0 : BitVec 4) ++ BitVec.ofBool s.wign ++ BitVec.ofBool s.err
    ++ BitVec.ofBool s.done ++ BitVec.ofBool s.busy

/-- The CTRL register (R22): IRQ_EN in bit 0, SRST and the reserved bits read 0. -/
def State.ctrlWord (s : State) : Word := (0 : BitVec 31) ++ BitVec.ofBool s.irqEn

/-- A host write to STATUS (R23): a 1 clears DONE, ERR or WIGN; a 0 leaves it; the other bits are ignored. -/
def State.clearStatus (s : State) (v : Word) : State :=
  { s with done := s.done && !v.getLsbD 1, err := s.err && !v.getLsbD 2, wign := s.wign && !v.getLsbD 3 }

/-- The interrupt output: IRQ = CTRL.IRQ_EN and STATUS.DONE (R230). -/
def State.irq (s : State) : Bool := s.irqEn && s.done

/-- The platform's interrupt-controller inputs as the unit drives them: its output goes to the input IRQ_LINE (R230,
R6). -/
def State.irqOn (s : State) (line : Nat) : Bool := decide (line = Config.irqLine) && s.irq

/-- A host register write ignored because BUSY = 1 sets WIGN (R44). -/
def State.ignoredWrite (s : State) : State := { s with wign := true }

end Sys2Proof.Machine
end

