-- ==== Sys2Proof/Machine/Kernels.lean ====
section
/-! DEFINITION. The pixel-type ROM, the format dispatcher and the bit-addressing kernels (40_registry_packing.md,
41_dispatch.md). -/

namespace Sys2Proof.Machine

/-- The storage widths of pixel types 0..17, in the order of R100. -/
def bppTable : List Nat := [4, 8, 1, 2, 4, 8, 16, 16, 24, 24, 32, 32, 32, 32, 32, 32, 32, 32]

/-- `BPP_ROM[t]` (R101): no entry for the reserved codes 18..31. -/
def bppRom (t : BitVec 5) : Option Nat := bppTable[t.toNat]?

/-- The ten kernels (R130). -/
inductive Kernel where
  | k1le
  | k1be
  | k2le
  | k2be
  | k4le
  | k4be
  | k8
  | k16
  | k24
  | k32
  deriving DecidableEq, Repr

/-- Kernel selection (R130): ENDIAN picks among the sub-byte kernels and is ignored from 8 bits on (R131); any other
width raises UNIMPL_FORMAT (R132). -/
def dispatch (w : Nat) (endian : Bool) : Except ErrCode Kernel :=
  match w with
  | 1 => .ok (if endian then .k1be else .k1le)
  | 2 => .ok (if endian then .k2be else .k2le)
  | 4 => .ok (if endian then .k4be else .k4le)
  | 8 => .ok .k8
  | 16 => .ok .k16
  | 24 => .ok .k24
  | 32 => .ok .k32
  | _ => .error .unimplFormat

/-- The pixel width a kernel is fixed to (R130). -/
def Kernel.bpp : Kernel → Nat
  | .k1le | .k1be => 1
  | .k2le | .k2be => 2
  | .k4le | .k4be => 4
  | .k8 => 8
  | .k16 => 16
  | .k24 => 24
  | .k32 => 32

/-- Whether a kernel packs by the BE convention (R105, R130). -/
def Kernel.bigEndian : Kernel → Bool
  | .k1be | .k2be | .k4be => true
  | _ => false

/-- `phys_shift(s, w, e)` (R105): the byte bit that holds the least significant bit of the pixel at packing position
`pos`. -/
def physShift (pos w : Nat) (endian : Bool) : Nat := if endian then 8 - w - pos else pos

/-- `address_of` (R103): the byte address and packing position of a physical pixel. -/
def addressOf (base stride bitoff x y w : Nat) : Nat × Nat :=
  let bitpos := x * w + bitoff
  (base + y * stride + bitpos / 8, bitpos % 8)

/-- `read_raw` (R106): the raw w-bit value at an address and packing position. -/
def readRaw (m : Memory) (a pos w : Nat) (endian : Bool) : Nat :=
  if 8 ≤ w then memRead m a (w / 8)
  else (memRead m a 1 / 2 ^ physShift pos w endian) % 2 ^ w

/-- The byte mask of a sub-byte pixel whose least significant bit is byte bit `sh` (R105, R107). -/
def pixelMask (w sh : Nat) : Byte := BitVec.ofNat 8 ((2 ^ w - 1) * 2 ^ sh)

/-- `write_raw` (R107): stores the low w bits of `v`; a sub-byte write changes only the pixel's bits of its byte. -/
def writeRaw (m : Memory) (a pos w : Nat) (endian : Bool) (v : Nat) : Memory :=
  if 8 ≤ w then memWrite m a (w / 8) (v % 2 ^ w)
  else
    let sh := physShift pos w endian
    m.write a ((m.read a &&& ~~~(pixelMask w sh)) ||| BitVec.ofNat 8 (v % 2 ^ w * 2 ^ sh))

/-- `write_run` (R108): `count` consecutive pixels of one value, in order. -/
def writeRun (m : Memory) (a pos count v w : Nat) (endian : Bool) : Memory :=
  (List.range count).foldl
    (fun m i => writeRaw m (a + (pos + i * w) / 8) ((pos + i * w) % 8) w endian v) m

/-! ### Surface-level forms (R111) -/

/-- Where a pixel stands: its byte address, its packing position and the kernel that moves it. -/
structure Place where
  addr : Nat
  pos : Nat
  kernel : Kernel
  deriving DecidableEq, Repr

/-- The place of a physical pixel of a surface (R111). -/
def placeOf (d : Desc) (k : Kernel) (px py : Nat) : Place :=
  let at_ := addressOf d.base.toNat d.stride.toNat d.bitoff.toNat px py k.bpp
  { addr := at_.1, pos := at_.2, kernel := k }

/-- The byte addresses an access at a place touches (R66): one byte below 8 bits, w/8 bytes from 8 bits on. -/
def Place.bytes (p : Place) : List Nat :=
  (List.range (if 8 ≤ p.kernel.bpp then p.kernel.bpp / 8 else 1)).map (fun i => p.addr + i)

/-- `read_px` (R111). -/
def readPlace (m : Memory) (p : Place) : Nat := readRaw m p.addr p.pos p.kernel.bpp p.kernel.bigEndian

/-- `write_px` (R111). -/
def writePlace (m : Memory) (p : Place) (v : Nat) : Memory :=
  writeRaw m p.addr p.pos p.kernel.bpp p.kernel.bigEndian v

end Sys2Proof.Machine
end

