-- ==== Sys2Proof/Machine/Operands.lean ====
section
/-! DEFINITION. Operand forms: signed coordinates and unsigned counts (R84), the orientation transform and `map` (R150,
R83), the clipping predicate (R170), the derived quantities of a slot (R40) and the slot check (R140). All arithmetic is
exact (R8). -/

namespace Sys2Proof.Machine

/-- A coordinate operand: `sext_32` of a register (R84). -/
def coord (w : Word) : Int := w.toInt

/-- A count operand: `zext_32` of a register (R84). -/
def count (w : Word) : Int := (w.toNat : Int)

/-- `a..b`, the inclusive integer range in rising order, empty when b < a (R8). -/
def intRange (a b : Int) : List Int := (List.range (b - a + 1).toNat).map (fun (i : Nat) => a + (i : Int))

/-- `ceil8(n) = (n + 7) div 8` (R8). -/
def ceil8 (n : Nat) : Nat := (n + 7) / 8

/-! ### Derived quantities (R40) -/

/-- LW, the logical width. -/
def Desc.logicalWidth (d : Desc) : Nat := if d.axesSwap then d.height.toNat else d.width.toNat

/-- LH, the logical height. -/
def Desc.logicalHeight (d : Desc) : Nat := if d.axesSwap then d.width.toNat else d.height.toNat

/-- rowbytes, for pixel width `w`. -/
def Desc.rowBytes (d : Desc) (w : Nat) : Nat := ceil8 (d.bitoff.toNat + d.width.toNat * w)

/-- Whether the byte at `a` is in the footprint of a slot. A slot with a reserved PTYPE has no width and so no
footprint (assumption 15). -/
def Desc.covers (d : Desc) (a : Nat) : Bool :=
  match bppRom d.ptype with
  | none => false
  | some w => (List.range d.height.toNat).any fun r =>
      decide (d.base.toNat + r * d.stride.toNat ≤ a)
        && decide (a < d.base.toNat + r * d.stride.toNat + d.rowBytes w)

/-- Whether the footprint of a slot has a byte in the address span `span.1 .. span.2`. -/
def Desc.meets (d : Desc) (span : Nat × Nat) : Bool :=
  match bppRom d.ptype with
  | none => false
  | some w => (List.range d.height.toNat).any fun r =>
      decide (max (d.base.toNat + r * d.stride.toNat) span.1
        < min (d.base.toNat + r * d.stride.toNat + d.rowBytes w) (span.2 + 1))

/-- The platform serves a whole surface as plain RAM: no byte of its footprint is in a span it does not serve (R67,
R69; assumption 8). -/
def servesSurface (unserved : List (Nat × Nat)) (d : Desc) : Bool := unserved.all (fun span => !d.meets span)

/-! ### Coordinates -/

/-- `xform` (R150): logical to physical, by swap and then by reflection in the physical width and height. -/
def xform (d : Desc) (x y : Int) : Int × Int :=
  let u := if d.axesSwap then y else x
  let v := if d.axesSwap then x else y
  (if d.xSwap then (d.width.toNat : Int) - 1 - u else u, if d.ySwap then (d.height.toNat : Int) - 1 - v else v)

/-- `map` (R83): RAW = 1 takes the coordinate as physical. -/
def mapPoint (d : Desc) (raw : Bool) (x y : Int) : Int × Int := if raw then (x, y) else xform d x y

/-- The clipping predicate on a physical coordinate (R170), exact and with the bounds unsigned. -/
def clipped (d : Desc) (p : Int × Int) : Bool :=
  decide (p.1 < d.xmin.toNat) || decide (p.1 > d.xmax.toNat) || decide (p.2 < d.ymin.toNat)
    || decide (p.2 > d.ymax.toNat)

/-! ### The slot check (R140) -/

/-- The clip rectangle is ordered and inside the surface. -/
def Desc.clipOk (d : Desc) : Bool :=
  decide (d.xmin.toNat ≤ d.xmax.toNat) && decide (d.xmax.toNat < d.width.toNat)
    && decide (d.ymin.toNat ≤ d.ymax.toNat) && decide (d.ymax.toNat < d.height.toNat)

/-- `check_surface` (R140): the first check that fails raises its error; a slot that passes is legal and has its
kernel. -/
def checkSurface (d : Desc) : Except ErrCode Kernel :=
  match bppRom d.ptype with
  | none => .error .badPtype
  | some w =>
    match dispatch w d.endian with
    | .error c => .error c
    | .ok k =>
      if d.width.toNat = 0 ∨ d.height.toNat = 0 then .error .badDesc
      else if 8 ≤ w ∧ d.bitoff.toNat ≠ 0 then .error .badDesc
      else if w < 8 ∧ d.bitoff.toNat % w ≠ 0 then .error .badDesc
      else if d.stride.toNat < d.rowBytes w then .error .badDesc
      else if addressSpace < d.base.toNat + d.stride.toNat * (d.height.toNat - 1) + d.rowBytes w then .error .badDesc
      else if d.clipOk = false then .error .badClip
      else .ok k

end Sys2Proof.Machine
end

