-- ==== Sys2Proof/Machine/Body.lean ====
section
/-! DEFINITION. What a command does once decoded: a plan, which is its checks followed by the pixel writes of its body in
order and its register write at completion (R221, R222), and the one shared operation that carries a plan out. -/

namespace Sys2Proof.Machine

/-- One pixel write of a body. -/
inductive PixelWrite where
  /-- A value written at a place (`write_px`, R111). -/
  | put (p : Place) (v : Nat)
  /-- A pixel read and then written, through CONVERT when the types differ (R200, R201). -/
  | copy (src dst : Place) (srcType dstType : BitVec 5)
  deriving DecidableEq, Repr

/-- The register write a successful command makes at completion (R222). -/
inductive RegWrite where
  /-- No register but STATUS. -/
  | none
  /-- RESULT takes the pixel at a place, or 0 where the pixel is clipped (R172). -/
  | result (p : Option Place)
  /-- The ORIENT register of a slot (R160 to R163). -/
  | orient (s : Slot) (axesSwap xSwap ySwap : Bool)
  /-- A whole slot (R156). -/
  | slot (s : Slot) (d : Desc)
  deriving DecidableEq, Repr

/-- A command past its checks: the surfaces it works on, its pixel writes in order, and its register write. -/
structure Plan where
  surfaces : List Desc
  writes : List PixelWrite
  regWrite : RegWrite
  deriving DecidableEq, Repr

/-- The value a blit stores: the pixel itself between equal types, CONVERT's result otherwise (R200). -/
def blitValue (r : Nat) (srcType dstType : BitVec 5) : Nat :=
  if srcType = dstType then r else (Config.convert (BitVec.ofNat 32 r) srcType dstType).toNat

/-- One pixel write carried out. -/
def PixelWrite.run (m : Memory) : PixelWrite → Memory
  | .put p v => writePlace m p v
  | .copy src dst ts td => writePlace m dst (blitValue (readPlace m src) ts td)

/-- Pixel writes carried out one after another (R70). -/
def runWrites (m : Memory) (ws : List PixelWrite) : Memory := ws.foldl PixelWrite.run m

/-- The bytes a pixel write touches. -/
def PixelWrite.bytes : PixelWrite → List Nat
  | .put p _ => p.bytes
  | .copy src dst _ _ => src.bytes ++ dst.bytes

/-- The bytes a register write reads. -/
def RegWrite.bytes : RegWrite → List Nat
  | .result (some p) => p.bytes
  | _ => []

/-- Every byte a plan touches. -/
def Plan.bytes (p : Plan) : List Nat := p.writes.flatMap PixelWrite.bytes ++ p.regWrite.bytes

/-- ORIENT of a slot replaced (R39). -/
def Desc.setOrient (d : Desc) (axesSwap xSwap ySwap : Bool) : Desc :=
  { d with axesSwap := axesSwap, xSwap := xSwap, ySwap := ySwap }

/-- The register write of a successful command (R222). -/
def State.commit (s : State) : RegWrite → State
  | .none => s
  | .result none => { s with result := 0 }
  | .result (some p) => { s with result := BitVec.ofNat 32 (readPlace s.mem p) }
  | .orient sl a x y => { s with regs := s.regs.setDesc sl ((s.regs.desc sl).setOrient a x y) }
  | .slot sl d => { s with regs := s.regs.setDesc sl d }

/-- Memory replaced. -/
def State.withMem (s : State) (m : Memory) : State := { s with mem := m }

/-- The end of a command (R221 to R224): an error completes with its code and changes nothing else; a plan writes its
pixels in order, then its register, and completes with 0. The two stops guard accesses the spec puts outside itself:
an address that does not exist (unreachable, R65), and a surface with a byte that the platform does not serve as plain
RAM, touched or not (R67, R69). -/
def State.finish (s : State) : Except ErrCode Plan → Outcome
  | .error c => .next (s.complete c)
  | .ok p =>
    if p.bytes.all (fun a => decide (a < addressSpace)) then
      if p.surfaces.all (servesSurface s.unserved) then
        .next (((s.withMem (runWrites s.mem p.writes)).commit p.regWrite).complete .ok)
      else .refused .unservedMemory
    else .fault .outsideAddressSpace

/-- The writes of one value at the unclipped points of a list, in order (`put_phys`, R171). -/
def putAll (d : Desc) (k : Kernel) (v : Word) (points : List (Int × Int)) : List PixelWrite :=
  (points.filter (fun p => !clipped d p)).map (fun p => .put (placeOf d k p.1.toNat p.2.toNat) v.toNat)

end Sys2Proof.Machine
end

