-- ==== Sys2Proof/Machine/Blit.lean ====
section
/-! DEFINITION. The rectangular blit engine (44_blit.md): BLIT. -/

namespace Sys2Proof.Machine

/-- The width BLIT checks against: physical with RAW = 1, logical otherwise (R200). -/
def Desc.boundWidth (d : Desc) (raw : Bool) : Nat := if raw then d.width.toNat else d.logicalWidth

/-- The height BLIT checks against (R200). -/
def Desc.boundHeight (d : Desc) (raw : Bool) : Nat := if raw then d.height.toNat else d.logicalHeight

/-- The offsets (i, j) inside a `cw` by `ch` rectangle, row-major ascending (R200). -/
def rectOffsets (cw ch : Int) : List (Int × Int) :=
  (intRange 0 (ch - 1)).flatMap (fun j => (intRange 0 (cw - 1)).map (fun i => (i, j)))

/-- One pixel copy of a blit, by physical coordinates; no clip (R200). -/
def copyPixel (ds dt : Desc) (ks kt : Kernel) (src dst : Int × Int) : PixelWrite :=
  .copy (placeOf ds ks src.1.toNat src.2.toNat) (placeOf dt kt dst.1.toNat dst.2.toNat) ds.ptype dt.ptype

/-- BLIT (R200): both slots checked, the source corners normalized, both rectangles checked against their surfaces, then
the copies in row-major order. -/
def planBlit (src dst : Slot) (raw : Bool) (r : Regs) : Except ErrCode Plan :=
  let ds := r.desc src
  let dt := r.desc dst
  let x0 := min (coord r.arg0) (coord r.arg2)
  let x1 := max (coord r.arg0) (coord r.arg2)
  let y0 := min (coord r.arg1) (coord r.arg3)
  let y1 := max (coord r.arg1) (coord r.arg3)
  let x2 := coord r.arg4
  let y2 := coord r.arg5
  let cw := x1 - x0 + 1
  let ch := y1 - y0 + 1
  match checkSurface ds with
  | .error c => .error c
  | .ok ks =>
    match checkSurface dt with
    | .error c => .error c
    | .ok kt =>
      if x0 < 0 ∨ y0 < 0 ∨ x1 ≥ ds.boundWidth raw ∨ y1 ≥ ds.boundHeight raw then .error .blitBounds
      else if x2 < 0 ∨ y2 < 0 ∨ x2 + cw > dt.boundWidth raw ∨ y2 + ch > dt.boundHeight raw then .error .blitBounds
      else
        .ok { surfaces := [ds, dt],
              writes := (rectOffsets cw ch).map (fun o =>
                copyPixel ds dt ks kt (mapPoint ds raw (x0 + o.1) (y0 + o.2)) (mapPoint dt raw (x2 + o.1) (y2 + o.2))),
              regWrite := .none }

/-- BLIT (R200). -/
def execBlit (src dst : Slot) (raw : Bool) (s : State) : Outcome := s.finish (planBlit src dst raw s.operands)

end Sys2Proof.Machine
end

