-- ==== Sys2Proof/Machine/Control.lean ====
section
/-! DEFINITION. The surface and control commands (42_surface.md): NOP, SUBVIEW, ROTCW, ROTCCW, FLIPX, FLIPY. -/

namespace Sys2Proof.Machine

/-- NOP: nothing (R155). -/
def planNop : Except ErrCode Plan := .ok { surfaces := [], writes := [], regWrite := .none }

/-- NOP (R155). -/
def execNop (s : State) : Outcome := s.finish planNop

/-- The new slot of SUBVIEW: the physical rectangle with corners `p` and `q` of the parent (R156). -/
def subviewDesc (d : Desc) (w : Nat) (p q : Int × Int) : Desc :=
  let px0 := (min p.1 q.1).toNat
  let px1 := (max p.1 q.1).toNat
  let py0 := (min p.2 q.2).toNat
  let py1 := (max p.2 q.2).toNat
  let bp := px0 * w + d.bitoff.toNat
  { d with
    base := BitVec.ofNat 32 (d.base.toNat + py0 * d.stride.toNat + bp / 8)
    width := BitVec.ofNat 16 (px1 - px0 + 1)
    height := BitVec.ofNat 16 (py1 - py0 + 1)
    bitoff := BitVec.ofNat 3 (bp % 8)
    xmin := 0
    xmax := BitVec.ofNat 16 (px1 - px0)
    ymin := 0
    ymax := BitVec.ofNat 16 (py1 - py0) }

/-- SUBVIEW (R156): a rectangle that is empty or leaves the parent's logical bounds raises SUBVIEW_BOUNDS. -/
def planSubview (parent result : Slot) (r : Regs) : Except ErrCode Plan :=
  let d := r.desc parent
  let x := coord r.arg0
  let y := coord r.arg1
  let rw := count r.arg2
  let rh := count r.arg3
  match checkSurface d with
  | .error c => .error c
  | .ok k =>
    if rw = 0 ∨ rh = 0 then .error .subviewBounds
    else if x < 0 ∨ y < 0 ∨ x + rw > d.logicalWidth ∨ y + rh > d.logicalHeight then .error .subviewBounds
    else
      .ok { surfaces := [d], writes := [],
            regWrite := .slot result (subviewDesc d k.bpp (xform d x y) (xform d (x + rw - 1) (y + rh - 1))) }

/-- SUBVIEW (R156). -/
def execSubview (parent result : Slot) (s : State) : Outcome := s.finish (planSubview parent result s.operands)

/-- The (X_SWAP, Y_SWAP) transition of ROTCW (R160). -/
def rotcwFlags : Bool × Bool → Bool × Bool
  | (false, false) => (true, false)
  | (true, false) => (true, true)
  | (true, true) => (false, true)
  | (false, true) => (false, false)

/-- The (X_SWAP, Y_SWAP) transition of ROTCCW, the inverse permutation (R161). -/
def rotccwFlags : Bool × Bool → Bool × Bool
  | (true, false) => (false, false)
  | (true, true) => (true, false)
  | (false, true) => (true, true)
  | (false, false) => (false, true)

/-- ROTCW: AXES_SWAP toggles and the mirror flags step; the slot is not checked (R160). -/
def planRotcw (sl : Slot) (r : Regs) : Except ErrCode Plan :=
  let d := r.desc sl
  let f := rotcwFlags (d.xSwap, d.ySwap)
  .ok { surfaces := [], writes := [], regWrite := .orient sl (!d.axesSwap) f.1 f.2 }

/-- ROTCW (R160). -/
def execRotcw (sl : Slot) (s : State) : Outcome := s.finish (planRotcw sl s.operands)

/-- ROTCCW (R161). -/
def planRotccw (sl : Slot) (r : Regs) : Except ErrCode Plan :=
  let d := r.desc sl
  let f := rotccwFlags (d.xSwap, d.ySwap)
  .ok { surfaces := [], writes := [], regWrite := .orient sl (!d.axesSwap) f.1 f.2 }

/-- ROTCCW (R161). -/
def execRotccw (sl : Slot) (s : State) : Outcome := s.finish (planRotccw sl s.operands)

/-- FLIPX: X_SWAP toggles (R162). -/
def planFlipx (sl : Slot) (r : Regs) : Except ErrCode Plan :=
  let d := r.desc sl
  .ok { surfaces := [], writes := [], regWrite := .orient sl d.axesSwap (!d.xSwap) d.ySwap }

/-- FLIPX (R162). -/
def execFlipx (sl : Slot) (s : State) : Outcome := s.finish (planFlipx sl s.operands)

/-- FLIPY: Y_SWAP toggles (R163). -/
def planFlipy (sl : Slot) (r : Regs) : Except ErrCode Plan :=
  let d := r.desc sl
  .ok { surfaces := [], writes := [], regWrite := .orient sl d.axesSwap d.xSwap (!d.ySwap) }

/-- FLIPY (R163). -/
def execFlipy (sl : Slot) (s : State) : Outcome := s.finish (planFlipy sl s.operands)

end Sys2Proof.Machine
end

