-- ==== Sys2Proof/Machine/Line.lean ====
section
/-! DEFINITION. The line rasterizer (43_pixel_line_run.md): Bresenham's algorithm and LINE. -/

namespace Sys2Proof.Machine

/-- The walk along the major axis (R175): `n` pixels from (a, b) with error term `err`. -/
def bresenhamWalk (steep : Bool) (da db bstep : Int) : Nat → Int → Int → Int → List (Int × Int)
  | 0, _, _, _ => []
  | n + 1, a, b, err =>
    (if steep then (b, a) else (a, b)) ::
      (if err - db < 0 then bresenhamWalk steep da db bstep n (a + 1) (b + bstep) (err - db + da)
       else bresenhamWalk steep da db bstep n (a + 1) b (err - db))

/-- The walk between two points already in (major, minor) form with `a0 ≤ a1` (R175). -/
def bresenhamUpward (steep : Bool) (a0 b0 a1 b1 : Int) : List (Int × Int) :=
  bresenhamWalk steep (a1 - a0) (b1 - b0).natAbs (if b0 < b1 then 1 else -1) (a1 - a0 + 1).toNat a0 b0 ((a1 - a0) / 2)

/-- `bresenham` (R175): transposed when steep, walked upward along the major axis. -/
def bresenham (xa ya xb yb : Int) : List (Int × Int) :=
  let steep := decide ((yb - ya).natAbs > (xb - xa).natAbs)
  let p := if steep then (ya, xa) else (xa, ya)
  let q := if steep then (yb, xb) else (xb, yb)
  if p.1 > q.1 then bresenhamUpward steep q.1 q.2 p.1 p.2 else bresenhamUpward steep p.1 p.2 q.1 q.2

/-- LINE: the mapped endpoints, rasterized in physical space, each pixel clipped (R174). -/
def planLine (dst : Slot) (raw : Bool) (r : Regs) : Except ErrCode Plan :=
  let d := r.desc dst
  match checkSurface d with
  | .error c => .error c
  | .ok k =>
    let p := mapPoint d raw (coord r.arg0) (coord r.arg1)
    let q := mapPoint d raw (coord r.arg2) (coord r.arg3)
    .ok { surfaces := [d], writes := putAll d k r.color (bresenham p.1 p.2 q.1 q.2), regWrite := .none }

/-- LINE (R174). -/
def execLine (dst : Slot) (raw : Bool) (s : State) : Outcome := s.finish (planLine dst raw s.operands)

end Sys2Proof.Machine
end

