-- ==== Sys2Proof/Machine/Pixel.lean ====
section
/-! DEFINITION. The pixel commands GETPIX and PUTPIX (43_pixel_line_run.md). -/

namespace Sys2Proof.Machine

/-- GETPIX: the pixel under the mapped coordinate; a clipped one is 0 and is not read (R171, R172). -/
def planGetpix (src : Slot) (raw : Bool) (r : Regs) : Except ErrCode Plan :=
  let d := r.desc src
  match checkSurface d with
  | .error c => .error c
  | .ok k =>
    let p := mapPoint d raw (coord r.arg0) (coord r.arg1)
    .ok { surfaces := [d], writes := [],
          regWrite := .result (if clipped d p then none else some (placeOf d k p.1.toNat p.2.toNat)) }

/-- GETPIX (R172). -/
def execGetpix (src : Slot) (raw : Bool) (s : State) : Outcome := s.finish (planGetpix src raw s.operands)

/-- PUTPIX: COLOR at the mapped coordinate, nothing if it is clipped (R173). -/
def planPutpix (dst : Slot) (raw : Bool) (r : Regs) : Except ErrCode Plan :=
  let d := r.desc dst
  match checkSurface d with
  | .error c => .error c
  | .ok k =>
    .ok { surfaces := [d], writes := putAll d k r.color [mapPoint d raw (coord r.arg0) (coord r.arg1)],
          regWrite := .none }

/-- PUTPIX (R173). -/
def execPutpix (dst : Slot) (raw : Bool) (s : State) : Outcome := s.finish (planPutpix dst raw s.operands)

end Sys2Proof.Machine
end

