-- ==== Sys2Proof/Machine/Run.lean ====
section
/-! DEFINITION. Run fill (43_pixel_line_run.md): HLINE, HLINEW, VLINE, VLINEH. -/

namespace Sys2Proof.Machine

/-- A run on a slot: each logical point of the list is mapped and written on its own (R177). -/
def planRun (dst : Slot) (raw : Bool) (r : Regs) (points : List (Int × Int)) : Except ErrCode Plan :=
  let d := r.desc dst
  match checkSurface d with
  | .error c => .error c
  | .ok k =>
    .ok { surfaces := [d], writes := putAll d k r.color (points.map (fun p => mapPoint d raw p.1 p.2)),
          regWrite := .none }

/-- The points of a horizontal run x0..x1 at row y, by rising x (R177). -/
def horizontalRun (x0 x1 y : Int) : List (Int × Int) := (intRange x0 x1).map (fun x => (x, y))

/-- The points of a vertical run y0..y1 at column x, by rising y (R179). -/
def verticalRun (x y0 y1 : Int) : List (Int × Int) := (intRange y0 y1).map (fun y => (x, y))

/-- HLINE: ARG0 x0, ARG1 x1, ARG2 y (R177). -/
def planHline (dst : Slot) (raw : Bool) (r : Regs) : Except ErrCode Plan :=
  planRun dst raw r (horizontalRun (coord r.arg0) (coord r.arg1) (coord r.arg2))

/-- HLINE (R177). -/
def execHline (dst : Slot) (raw : Bool) (s : State) : Outcome := s.finish (planHline dst raw s.operands)

/-- HLINEW: ARG0 x, ARG1 y, ARG2 width (R178). -/
def planHlinew (dst : Slot) (raw : Bool) (r : Regs) : Except ErrCode Plan :=
  planRun dst raw r (horizontalRun (coord r.arg0) (coord r.arg0 + count r.arg2 - 1) (coord r.arg1))

/-- HLINEW (R178). -/
def execHlinew (dst : Slot) (raw : Bool) (s : State) : Outcome := s.finish (planHlinew dst raw s.operands)

/-- VLINE: ARG0 x, ARG1 y0, ARG2 y1 (R179). -/
def planVline (dst : Slot) (raw : Bool) (r : Regs) : Except ErrCode Plan :=
  planRun dst raw r (verticalRun (coord r.arg0) (coord r.arg1) (coord r.arg2))

/-- VLINE (R179). -/
def execVline (dst : Slot) (raw : Bool) (s : State) : Outcome := s.finish (planVline dst raw s.operands)

/-- VLINEH: ARG0 x, ARG1 y, ARG2 height (R180). -/
def planVlineh (dst : Slot) (raw : Bool) (r : Regs) : Except ErrCode Plan :=
  planRun dst raw r (verticalRun (coord r.arg0) (coord r.arg1) (coord r.arg1 + count r.arg2 - 1))

/-- VLINEH (R180). -/
def execVlineh (dst : Slot) (raw : Bool) (s : State) : Outcome := s.finish (planVlineh dst raw s.operands)

end Sys2Proof.Machine
end

