-- ==== Sys2Proof/Machine/Dispatch.lean ====
section
/-! DEFINITION. One arm per command, each a direct call of its meaning: the run of the command in flight, from its
checks to its completion (R221, R222). -/

namespace Sys2Proof.Machine

def exec (i : Instr) (s : State) : Host.Outcome State Fault Refusal :=
  match i with
  | .nop => Sys2Proof.Machine.execNop s
  | .getpix src raw => Sys2Proof.Machine.execGetpix src raw s
  | .putpix dst raw => Sys2Proof.Machine.execPutpix dst raw s
  | .line dst raw => Sys2Proof.Machine.execLine dst raw s
  | .hline dst raw => Sys2Proof.Machine.execHline dst raw s
  | .hlinew dst raw => Sys2Proof.Machine.execHlinew dst raw s
  | .vline dst raw => Sys2Proof.Machine.execVline dst raw s
  | .vlineh dst raw => Sys2Proof.Machine.execVlineh dst raw s
  | .blit src dst raw => Sys2Proof.Machine.execBlit src dst raw s
  | .subview parent result => Sys2Proof.Machine.execSubview parent result s
  | .rotcw slot => Sys2Proof.Machine.execRotcw slot s
  | .rotccw slot => Sys2Proof.Machine.execRotccw slot s
  | .flipx slot => Sys2Proof.Machine.execFlipx slot s
  | .flipy slot => Sys2Proof.Machine.execFlipy slot s

end Sys2Proof.Machine
end

