-- ==== Sys2Proof/Machine/Registers.lean ====
section
/-! DEFINITION. The register window (10_state.md): the register map, what each register reads as, and what a host write
of an operand register stores. -/

namespace Sys2Proof.Machine

/-- The registers of a descriptor slot (R32). -/
inductive SlotReg where
  | base
  | stride
  | dim
  | fmt
  | clipx
  | clipy
  | orient
  deriving DecidableEq, Repr

/-- The registers of the window (R20). -/
inductive Reg where
  | id
  | ctrl
  | status
  | cmd
  | arg0
  | arg1
  | arg2
  | arg3
  | arg4
  | arg5
  | color
  | result
  | slot (s : Slot) (f : SlotReg)
  /-- A reserved offset (R28). -/
  | reserved
  deriving DecidableEq, Repr

/-- The register at a byte offset from a slot's first register; +0x1C is reserved (R28, R32). -/
def slotRegAt (s : Slot) (off : Nat) : Reg :=
  match off with
  | 0x00 => .slot s .base
  | 0x04 => .slot s .stride
  | 0x08 => .slot s .dim
  | 0x0C => .slot s .fmt
  | 0x10 => .slot s .clipx
  | 0x14 => .slot s .clipy
  | 0x18 => .slot s .orient
  | _ => .reserved

/-- The register map (R20) on aligned offsets of the window. -/
def regAt (off : Nat) : Reg :=
  match off with
  | 0x000 => .id
  | 0x004 => .ctrl
  | 0x008 => .status
  | 0x00C => .cmd
  | 0x010 => .arg0
  | 0x014 => .arg1
  | 0x018 => .arg2
  | 0x01C => .arg3
  | 0x020 => .arg4
  | 0x024 => .arg5
  | 0x028 => .color
  | 0x02C => .result
  | _ =>
    if off < 0x100 ∨ 0x180 ≤ off then .reserved
    else slotRegAt (Slot.ofBits (BitVec.ofNat 2 ((off - 0x100) / 0x20))) ((off - 0x100) % 0x20)

/-- The offset of a slot register (R32). -/
def SlotReg.offset : SlotReg → Nat
  | .base => 0x00
  | .stride => 0x04
  | .dim => 0x08
  | .fmt => 0x0C
  | .clipx => 0x10
  | .clipy => 0x14
  | .orient => 0x18

/-- The offset of a register (R20); a reserved one is named by 0x030. -/
def Reg.offset : Reg → Nat
  | .id => 0x000
  | .ctrl => 0x004
  | .status => 0x008
  | .cmd => 0x00C
  | .arg0 => 0x010
  | .arg1 => 0x014
  | .arg2 => 0x018
  | .arg3 => 0x01C
  | .arg4 => 0x020
  | .arg5 => 0x024
  | .color => 0x028
  | .result => 0x02C
  | .slot s f => 0x100 + 0x20 * s.bits.toNat + f.offset
  | .reserved => 0x030

/-- What a slot register reads as (R32 to R39): reserved bits read 0. -/
def Desc.readReg (d : Desc) : SlotReg → Word
  | .base => d.base
  | .stride => d.stride
  | .dim => d.height ++ d.width
  | .fmt => (0 : BitVec 13) ++ d.bitoff ++ (0 : BitVec 7) ++ BitVec.ofBool d.endian ++ (0 : BitVec 3) ++ d.ptype
  | .clipx => d.xmax ++ d.xmin
  | .clipy => d.ymax ++ d.ymin
  | .orient =>
    (0 : BitVec 29) ++ BitVec.ofBool d.ySwap ++ BitVec.ofBool d.xSwap ++ BitVec.ofBool d.axesSwap

/-- What a write of a slot register stores (R32 to R39): every non-reserved field as written, legal or not; reserved
bits are ignored. -/
def Desc.writeReg (d : Desc) (f : SlotReg) (v : Word) : Desc :=
  match f with
  | .base => { d with base := v }
  | .stride => { d with stride := v }
  | .dim => { d with width := v.extractLsb' 0 16, height := v.extractLsb' 16 16 }
  | .fmt => { d with ptype := v.extractLsb' 0 5, endian := v.getLsbD 8, bitoff := v.extractLsb' 16 3 }
  | .clipx => { d with xmin := v.extractLsb' 0 16, xmax := v.extractLsb' 16 16 }
  | .clipy => { d with ymin := v.extractLsb' 0 16, ymax := v.extractLsb' 16 16 }
  | .orient => d.setOrient (v.getLsbD 0) (v.getLsbD 1) (v.getLsbD 2)

/-- The ID register's constant (R21). -/
def idValue : Word := 0x47500001

/-- What a register reads as, whatever BUSY is (R21 to R28, R44). Reading changes nothing. -/
def State.readReg (s : State) : Reg → Word
  | .id => idValue
  | .ctrl => s.ctrlWord
  | .status => s.statusWord
  | .cmd => 0
  | .arg0 => s.regs.arg0
  | .arg1 => s.regs.arg1
  | .arg2 => s.regs.arg2
  | .arg3 => s.regs.arg3
  | .arg4 => s.regs.arg4
  | .arg5 => s.regs.arg5
  | .color => s.regs.color
  | .result => s.result
  | .slot sl f => (s.regs.desc sl).readReg f
  | .reserved => 0

/-- An operand register written (R25, R26, R32); any other register is no operand register. -/
def Regs.write (r : Regs) (g : Reg) (v : Word) : Regs :=
  match g with
  | .arg0 => { r with arg0 := v }
  | .arg1 => { r with arg1 := v }
  | .arg2 => { r with arg2 := v }
  | .arg3 => { r with arg3 := v }
  | .arg4 => { r with arg4 := v }
  | .arg5 => { r with arg5 := v }
  | .color => { r with color := v }
  | .slot sl f => r.setDesc sl ((r.desc sl).writeReg f v)
  | .id | .ctrl | .status | .cmd | .result | .reserved => r

/-- ARG0..ARG5, COLOR and the descriptor-slot registers: the registers whose write is lost while BUSY = 1, CMD apart
(R44). -/
def Reg.isOperand : Reg → Bool
  | .arg0 | .arg1 | .arg2 | .arg3 | .arg4 | .arg5 | .color | .slot _ _ => true
  | .id | .ctrl | .status | .cmd | .result | .reserved => false

end Sys2Proof.Machine
end

