-- ==== Sys2Proof/Machine/Reset.lean ====
section
/-! DEFINITION. Hardware reset, soft reset and the abort of a command in flight (70_reset_and_hazards.md). -/

namespace Sys2Proof.Machine

/-- The plan of a command: what its meaning carries out. -/
def planOf (i : Instr) (r : Regs) : Except ErrCode Plan :=
  match i with
  | .nop => planNop
  | .getpix src raw => planGetpix src raw r
  | .putpix dst raw => planPutpix dst raw r
  | .line dst raw => planLine dst raw r
  | .hline dst raw => planHline dst raw r
  | .hlinew dst raw => planHlinew dst raw r
  | .vline dst raw => planVline dst raw r
  | .vlineh dst raw => planVlineh dst raw r
  | .blit src dst raw => planBlit src dst raw r
  | .subview parent result => planSubview parent result r
  | .rotcw slot => planRotcw slot r
  | .rotccw slot => planRotccw slot r
  | .flipx slot => planFlipx slot r
  | .flipy slot => planFlipy slot r

/-- The plan of a command in flight: a word that decodes to no row raises BAD_CMD (R86, R87). -/
def Flight.plan (f : Flight) : Except ErrCode Plan :=
  match decode f.word with
  | .ok i => planOf i f.regs
  | .error _ => .error .badCmd

/-- The register part of a reset (R43, R250, R251): every register at its reset value, no command in flight, memory and
the model's own fields as they are. -/
def State.resetRegisters (s : State) : State :=
  { s with
    irqEn := false
    done := false
    err := false
    wign := false
    errcode := .ok
    regs := Regs.reset
    result := 0
    flight := none }

/-- How many of a write sequence's `n` pixel writes an aborted command made: any number from 0 to `n` (R252;
assumption 4). -/
def abortedCount (choice n : Nat) : Nat := min (Config.abortedWrites choice) n

/-- A reset, soft or hardware (R250 to R252). A command in flight ends without completion, and memory holds the first k
of its pixel writes, k free (assumptions 4 and 5). A command the spec puts outside itself stops as its run
would. -/
def State.resetUnit (s : State) : Outcome :=
  match s.flight with
  | none => .next s.resetRegisters
  | some f =>
    match f.plan with
    | .error _ => .next s.resetRegisters
    | .ok p =>
      if p.bytes.all (fun a => decide (a < addressSpace)) then
        if p.surfaces.all (servesSurface s.unserved) then
          .next { s.resetRegisters with
            mem := runWrites s.mem (p.writes.take (abortedCount s.choices p.writes.length))
            choices := s.choices + 1 }
        else .refused .unservedMemory
      else .fault .outsideAddressSpace

/-- The reset input asserted (R250). -/
def State.holdReset (s : State) : State := { s with resetHeld := true }

/-- The reset input deasserted: on its deassertion every register holds its reset value (R250). An input that is not
asserted stays so. -/
def State.releaseReset (s : State) : State :=
  if s.resetHeld then { s.resetRegisters with resetHeld := false } else s

end Sys2Proof.Machine
end

