-- ==== Sys2Proof/Machine/Host.lean ====
section
/-! DEFINITION. The unit's turn and the host's operations, one per step: register window accesses with the BUSY rules
(R44, R45), memory accesses with the footprint rule (R73), POLL (R89), the same-step STATUS write (R231), reset (R250). -/

namespace Sys2Proof.Machine

/-- The unit's turn (R221): with a command in flight, decode its word and run it to completion; an illegal word
completes with BAD_CMD (R86). With none, the unit is idle (R238, R253). -/
def State.unitTurn (s : State) : Outcome :=
  match s.flight with
  | none => .next s
  | some f =>
    match decode f.word with
    | .ok i => exec i s
    | .error _ => .next (s.complete .badCmd)

/-- A value returned to the host. -/
def State.logRead (s : State) (v : Word) : State := { s with readLog := v :: s.readLog }

/-- A host write to a register (R21 to R28, R44, R45). While the reset input is asserted every register holds its reset
value, so the write has no effect (R250; assumption 18). -/
def State.hostWrite (s : State) (g : Reg) (v : Word) : Outcome :=
  if s.resetHeld then .next s
  else match g with
  | .ctrl => if v.getLsbD 1 then s.resetUnit else .next { s with irqEn := v.getLsbD 0 }
  | .status => .next (s.clearStatus v)
  | .cmd => .next (if s.busy then s.ignoredWrite else s.issue v)
  | .id | .result | .reserved => .next s
  | .arg0 | .arg1 | .arg2 | .arg3 | .arg4 | .arg5 | .color | .slot _ _ =>
    .next (if s.busy then s.ignoredWrite else { s with regs := s.regs.write g v })

/-- A window access is an aligned 32-bit one inside the window, or has no meaning (R20). -/
def windowAccess (off size : Nat) : Except Refusal Reg :=
  if size ≠ 4 ∨ off % 4 ≠ 0 then .error .narrowRegisterAccess
  else if 0x200 ≤ off then .error .outsideWindow
  else .ok (regAt off)

/-- The slots whose footprints the host must leave alone while a command runs: S, and T for BLIT (R73, R268;
assumption 9). NOP names no slot. -/
def usedSlots : Instr → List Slot
  | .nop => []
  | .getpix src _ => [src]
  | .putpix dst _ => [dst]
  | .line dst _ => [dst]
  | .hline dst _ => [dst]
  | .hlinew dst _ => [dst]
  | .vline dst _ => [dst]
  | .vlineh dst _ => [dst]
  | .blit src dst _ => [src, dst]
  | .subview parent _ => [parent]
  | .rotcw slot => [slot]
  | .rotccw slot => [slot]
  | .flipx slot => [slot]
  | .flipy slot => [slot]

/-- Whether a command in flight makes a host access to the byte at `a` a race (R73). -/
def State.races (s : State) (a : Nat) : Bool :=
  match s.flight with
  | none => false
  | some f =>
    match decode f.word with
    | .error _ => false
    | .ok i => (usedSlots i).any (fun sl => (f.regs.desc sl).covers a)

/-- A host access to the byte at `a`, unless it races or the platform does not serve it (R67, R69, R73). -/
def State.hostAccess (s : State) (a : Nat) (next : State) : Outcome :=
  if s.races a then .refused .footprintRace
  else if servedByte s.unserved a then .next next
  else .refused .unservedMemory

/-- A STATUS write in the step of a completion (R231): the completion wins over the clear of DONE; ERR, which the
completion and the write both want, is free when the code is not 0 (assumption 6); WIGN is cleared as written. -/
def State.clashStatus (s : State) (v : Word) : State :=
  { s with
    err := if v.getLsbD 2 then decide (s.errcode ≠ .ok) && Config.errOnClash s.choices else s.err
    wign := s.wign && !v.getLsbD 3
    choices := s.choices + 1 }

/-- A step that answers a next state, followed by an update of it. -/
def andThen (o : Outcome) (f : State → State) : Outcome :=
  match o with
  | .next s => .next (f s)
  | .fault r => .fault r
  | .refused r => .refused r

/-- One input carried out; `s` is the state with the input taken off the queue. -/
def State.applyInput (s : State) (i : Input) : Outcome :=
  match i with
  | .regWrite off size v =>
    match windowAccess off size with
    | .ok g => s.hostWrite g v
    | .error r => .refused r
  | .regRead off size =>
    match windowAccess off size with
    | .ok g => .next (s.logRead (s.readReg g))
    | .error r => .refused r
  | .memWrite a b => s.hostAccess a.toNat (s.withMem (s.mem.write a.toNat b))
  | .memRead a => s.hostAccess a.toNat (s.logRead ((s.mem.read a.toNat).setWidth 32))
  | .unit => s.unitTurn
  | .poll => if s.busy then andThen s.unitTurn (fun t => { t with inputs := .poll :: t.inputs })
             else .next (s.logRead s.statusWord)
  | .statusAtCompletion v =>
    if s.busy then andThen s.unitTurn (fun t => t.clashStatus v) else s.hostWrite .status v
  | .resetAssert => andThen s.resetUnit State.holdReset
  | .resetRelease => .next s.releaseReset

/-- One step: the first input of the queue, or, when the host has nothing more to do, the unit's turn. -/
def State.advance (s : State) : Outcome :=
  match s.inputs with
  | [] => s.unitTurn
  | i :: rest => State.applyInput { s with inputs := rest } i

end Sys2Proof.Machine
end

