-- ==== Sys2Proof/Machine/HostProgram.lean ====
section
/-! DEFINITION. The host notation of 30_encoding.md section 4: the operations of R89 and the pseudo-instructions of R90,
each as the list of inputs it stands for; the platform parameters between that list and the queue. -/

namespace Sys2Proof.Machine.HostProgram

/-- `WR <reg>, <value>` (R89). -/
def wr (g : Reg) (v : Word) : Input := .regWrite g.offset 4 v

/-- `RD <reg>` (R89). -/
def rd (g : Reg) : Input := .regRead g.offset 4

/-- A value written in a listing: a negative one stands for its two's complement (R89). -/
def value (v : Int) : Word := BitVec.ofInt 32 v

/-- `<MNEMONIC>[.R] s<S>[, s<T>]`: the command word written to CMD (R89). -/
def start (i : Instr) : Input := wr .cmd (encode i)

/-- `GETPIX[.R] s, x, y` (R90). -/
def getpix (s : Slot) (raw : Bool) (x y : Int) : List Input :=
  [wr .arg0 (value x), wr .arg1 (value y), start (.getpix s raw), .poll, rd .result]

/-- `PUTPIX[.R] s, x, y, v` (R90). -/
def putpix (s : Slot) (raw : Bool) (x y v : Int) : List Input :=
  [wr .arg0 (value x), wr .arg1 (value y), wr .color (value v), start (.putpix s raw), .poll]

/-- `LINE[.R] s, x0, y0, x1, y1, v` (R90). -/
def line (s : Slot) (raw : Bool) (x0 y0 x1 y1 v : Int) : List Input :=
  [wr .arg0 (value x0), wr .arg1 (value y0), wr .arg2 (value x1), wr .arg3 (value y1), wr .color (value v),
    start (.line s raw), .poll]

/-- `HLINE[.R] s, x0, x1, y, v` (R90). -/
def hline (s : Slot) (raw : Bool) (x0 x1 y v : Int) : List Input :=
  [wr .arg0 (value x0), wr .arg1 (value x1), wr .arg2 (value y), wr .color (value v), start (.hline s raw), .poll]

/-- `HLINEW[.R] s, x, y, w, v` (R90). -/
def hlinew (s : Slot) (raw : Bool) (x y w v : Int) : List Input :=
  [wr .arg0 (value x), wr .arg1 (value y), wr .arg2 (value w), wr .color (value v), start (.hlinew s raw), .poll]

/-- `VLINE[.R] s, x, y0, y1, v` (R90). -/
def vline (s : Slot) (raw : Bool) (x y0 y1 v : Int) : List Input :=
  [wr .arg0 (value x), wr .arg1 (value y0), wr .arg2 (value y1), wr .color (value v), start (.vline s raw), .poll]

/-- `VLINEH[.R] s, x, y, h, v` (R90). -/
def vlineh (s : Slot) (raw : Bool) (x y h v : Int) : List Input :=
  [wr .arg0 (value x), wr .arg1 (value y), wr .arg2 (value h), wr .color (value v), start (.vlineh s raw), .poll]

/-- `BLIT[.R] s, t, x0, y0, x1, y1, x2, y2` (R90). -/
def blit (s t : Slot) (raw : Bool) (x0 y0 x1 y1 x2 y2 : Int) : List Input :=
  [wr .arg0 (value x0), wr .arg1 (value y0), wr .arg2 (value x1), wr .arg3 (value y1), wr .arg4 (value x2),
    wr .arg5 (value y2), start (.blit s t raw), .poll]

/-- `SUBVIEW s, t, x, y, w, h` (R90). -/
def subview (s t : Slot) (x y w h : Int) : List Input :=
  [wr .arg0 (value x), wr .arg1 (value y), wr .arg2 (value w), wr .arg3 (value h), start (.subview s t), .poll]

/-- `SETSURF s, base, stride, W, H, ptype, endian, bitoff`: full clip, identity orientation (R90, R262). -/
def setsurf (s : Slot) (base stride w h ptype endian bitoff : Int) : List Input :=
  [wr (.slot s .base) (value base), wr (.slot s .stride) (value stride),
    wr (.slot s .dim) (value h <<< 16 ||| value w),
    wr (.slot s .fmt) (value bitoff <<< 16 ||| value endian <<< 8 ||| value ptype),
    wr (.slot s .clipx) (value (w - 1) <<< 16), wr (.slot s .clipy) (value (h - 1) <<< 16),
    wr (.slot s .orient) 0]

/-- `SETCLIP s, xmin, xmax, ymin, ymax` (R90). -/
def setclip (s : Slot) (xmin xmax ymin ymax : Int) : List Input :=
  [wr (.slot s .clipx) (value xmax <<< 16 ||| value xmin), wr (.slot s .clipy) (value ymax <<< 16 ||| value ymin)]

/-- `CLRST`: clears DONE, ERR and WIGN (R90). -/
def clrst : List Input := [wr .status 0xE]

/-! ### The platform between the host's program and the unit (R6) -/

/-- The operations of a host program as they reach the unit and memory, through buffering of the platform's own kind
(HOST_COHERENCE, R267; assumption 12). The step takes what arrives. -/
def arrivals (prog : List Input) : List Input :=
  (List.range prog.length).filterMap (fun n => prog[Config.hostCoherence n]?)

/-- The reset input driven by the platform: asserted, held for a while, deasserted (RESET_INPUT, R250; assumption 12). -/
def resetPulse : List Input := .resetAssert :: List.replicate Config.resetInput .unit ++ [.resetRelease]

end Sys2Proof.Machine.HostProgram
end

