-- ==== Sys2Proof/Machine/Step.lean ====
section
/-! DEFINITION. The step of the machine, and a state whose next step runs a given command word. -/

namespace Sys2Proof.Machine

/-- One step: the host's next operation, or the unit's turn. -/
def step (s : State) : Host.Outcome State Fault Refusal := s.advance

/-- `s` with the command word `w` issued, the reset input deasserted and no host operation ahead of it, so that the next step is the unit's run of
it: what a host write of `w` to CMD leaves (R220; assumption 13). -/
def State.withFetchWord (s : State) (nbits w : Nat) : State :=
  State.issue { s with inputs := [], resetHeld := false } (BitVec.ofNat 32 (w % 2 ^ nbits))

end Sys2Proof.Machine
end

