-- ==== Sys2Proof/Safety.lean ====
section
/-! DEFINITION. The terms claims about runs use: legal surfaces, the footprint, served memory, the state invariants. -/

namespace Sys2Proof.Machine

/-- A legal slot: one that passes the slot check (R140). -/
def Desc.legal (d : Desc) : Bool :=
  match checkSurface d with
  | .ok _ => true
  | .error _ => false

/-- A physical pixel inside the surface: [0, W) × [0, H) (R10, R141). -/
def Desc.holds (d : Desc) (p : Int × Int) : Prop :=
  0 ≤ p.1 ∧ p.1 < d.width.toNat ∧ 0 ≤ p.2 ∧ p.2 < d.height.toNat

/-- A logical pixel inside the surface: [0, LW) × [0, LH) (R151). -/
def Desc.holdsLogical (d : Desc) (p : Int × Int) : Prop :=
  0 ≤ p.1 ∧ p.1 < d.logicalWidth ∧ 0 ≤ p.2 ∧ p.2 < d.logicalHeight

/-- The place a pixel of a surface has bit `j` of the byte at `a` (R105, R111): w bits of one byte below 8 bits, whole
bytes from 8 bits on. -/
def Place.hasBit (p : Place) (a j : Nat) : Prop :=
  if 8 ≤ p.kernel.bpp then p.addr ≤ a ∧ a < p.addr + p.kernel.bpp / 8 ∧ j < 8
  else a = p.addr ∧ physShift p.pos p.kernel.bpp p.kernel.bigEndian ≤ j
    ∧ j < physShift p.pos p.kernel.bpp p.kernel.bigEndian + p.kernel.bpp

/-- A place whose pixel lies whole inside its byte: below 8 bits, a packing position that is a multiple of the width
(R103, R141). -/
def Place.aligned (p : Place) : Prop := p.pos < 8 ∧ (p.kernel.bpp < 8 → p.pos % p.kernel.bpp = 0)

/-- The platform serves every byte of a slot's footprint, its duty by R69. -/
def State.serves (s : State) (d : Desc) : Prop := ∀ a, d.covers a = true → servedByte s.unserved a = true

/-- The slot whose pixels a command may write, if any (R29, R65). -/
def pixelSlot : Instr → Option Slot
  | .putpix dst _ | .line dst _ | .hline dst _ | .hlinew dst _ | .vline dst _ | .vlineh dst _ => some dst
  | .blit _ dst _ => some dst
  | .nop | .getpix _ _ | .subview _ _ | .rotcw _ | .rotccw _ | .flipx _ | .flipy _ => none

/-- The snapshot of a command in flight is what the operand registers hold (R41, R44). -/
def State.snapshotCurrent (s : State) : Prop := ∀ f, s.flight = some f → f.regs = s.regs

/-- BUSY and DONE are not both 1: issue clears DONE and completion clears BUSY (R220, R222). -/
def State.busyExcludesDone (s : State) : Prop := s.busy = true → s.done = false

/-- While the reset input is asserted, every register holds its reset value and no command is in flight (R250). -/
def State.resetHolds (s : State) : Prop := s.resetHeld = true → s.resetRegisters = s

/-- The command of a step with no stop: the step answers a next state. -/
def State.proceeds (s : State) : Prop := ∃ t, step s = .next t

/-- The state after a command that succeeded with memory `m`: ERRCODE 0, DONE set, BUSY cleared, and every other
register as it was, ERR among them, which is sticky (R222, R23). -/
def State.succeededWith (s : State) (m : Memory) : State :=
  { s with mem := m, errcode := .ok, done := true, flight := none }

/-- The state after a command that raised `c`: only STATUS has changed (R222 to R224). -/
def State.raised (s : State) (c : ErrCode) : State :=
  { s with errcode := c, err := true, done := true, flight := none }

/-- The command `i` paints, on the legal slot `sl` with kernel `k`, exactly the unclipped points of `pts` with COLOR: it
completes; a pixel among them then holds COLOR's low w bits; every other pixel of the surface reads as before; every
byte outside the painted pixels, and every bit of memory that no painted pixel has, is as before (R107); and no register
but STATUS changes. -/
def Paints (s : State) (i : Instr) (sl : Slot) (k : Kernel) (pts : Int × Int → Prop) : Prop :=
  ∃ m, exec i s = .next (s.succeededWith m) ∧
    (∀ px py : Nat, px < (s.operands.desc sl).width.toNat → py < (s.operands.desc sl).height.toNat →
      (pts (px, py) ∧ clipped (s.operands.desc sl) (px, py) = false →
        readPlace m (placeOf (s.operands.desc sl) k px py) = s.operands.color.toNat % 2 ^ k.bpp) ∧
      (¬ (pts (px, py) ∧ clipped (s.operands.desc sl) (px, py) = false) →
        readPlace m (placeOf (s.operands.desc sl) k px py)
          = readPlace s.mem (placeOf (s.operands.desc sl) k px py))) ∧
    (∀ a, (∀ p, pts p → clipped (s.operands.desc sl) p = false →
        a ∉ (placeOf (s.operands.desc sl) k p.1.toNat p.2.toNat).bytes) → m.read a = s.mem.read a) ∧
    (∀ a j, (∀ p, pts p → clipped (s.operands.desc sl) p = false →
        ¬ (placeOf (s.operands.desc sl) k p.1.toNat p.2.toNat).hasBit a j) →
      (m.read a).getLsbD j = (s.mem.read a).getLsbD j)

/-- Commands issued and run one after another, each from the state the last one left, stopping at the first fault or
refusal. -/
def execAll : List Instr → State → Outcome
  | [], s => .next s
  | i :: is, s =>
    match exec i (s.issue (encode i)) with
    | .next t => execAll is t
    | .fault r => .fault r
    | .refused r => .refused r

end Sys2Proof.Machine
end

