-- ==== Sys2Proof/Certificates/Slice0/Obligations.lean ====
section
/-! DEFINITION. The statements for the provers. -/

open Sys2Proof Sys2Proof.Machine

/-! ### Encoding -/

/-- Words of V-EN, one of each family, decode to the commands they are written for (R80, R81). -/
def Obligations.SampleWordsDecode : Prop :=
  decode 0x00000000 = .ok .nop ∧ decode 0x00000001 = .ok (.getpix .s0 false) ∧
  decode 0x00001303 = .ok (.line .s3 true) ∧ decode 0x00001005 = .ok (.hlinew .s0 true) ∧
  decode 0x00001908 = .ok (.blit .s1 .s2 true) ∧ decode 0x00000909 = .ok (.subview .s1 .s2) ∧
  decode 0x0000020A = .ok (.rotcw .s2) ∧ decode 0x0000010D = .ok (.flipy .s1)

/-- Decode and encode agree, in both directions: the words that decode to a command are exactly its encoding. -/
def Obligations.DecodeExactlyInvertsEncode : Prop :=
  ∀ (cw : Word) (i : Instr), decode cw = .ok i ↔ cw = encode i

/-- The words that decode to no row are exactly those R87 lists, read off the five field checks of `wellFormed`. -/
def Obligations.IllegalWordsAreThoseListed : Prop :=
  ∀ cw : Word, (∃ e, decode cw = .error e) ↔ (fieldsOf cw).wellFormed = false

/-- A command in flight whose word is illegal completes with BAD_CMD and has no other effect (R87). -/
def Obligations.IllegalWordCompletesWithBadCmd : Prop :=
  ∀ (s : State) (f : Flight), s.inputs = [] → s.flight = some f → (fieldsOf f.word).wellFormed = false →
    step s = .next (s.raised .badCmd)

/-! ### Steps, issue, invariants -/

/-- A step runs the decoded command: with the unit's turn next, a step is `exec` of the command in flight, from decode to
completion in one step (the reading R221 allows; assumption 3). -/
def Obligations.StepRunsTheDecodedCommand : Prop :=
  ∀ (s : State) (f : Flight) (i : Instr), s.flight = some f → decode f.word = .ok i →
    (s.inputs = [] → step s = exec i s) ∧
    (∀ rest, s.inputs = .unit :: rest → step s = exec i { s with inputs := rest })

/-- A write to CMD issues with BUSY = 0 and is lost, with WIGN set, with BUSY = 1, the reset input being deasserted; a
read of CMD gives 0. -/
def Obligations.CmdWriteIssuesOrIsLost : Prop :=
  ∀ (s : State) (cw : Word) (rest : List Input),
    (s.inputs = .regWrite 0x00C 4 cw :: rest → s.resetHeld = false → s.busy = false →
      step s = .next { s with inputs := rest, done := false, flight := some ⟨cw, s.regs⟩ }) ∧
    (s.inputs = .regWrite 0x00C 4 cw :: rest → s.resetHeld = false → s.busy = true →
      step s = .next { s with inputs := rest, wign := true }) ∧
    (s.inputs = .regRead 0x00C 4 :: rest → step s = .next { s with inputs := rest, readLog := 0 :: s.readLog })

/-- Memory keeps its canonical form, and lists only addresses of the memory space, over every step. The canonical form is
the model's (assumption 1). -/
def Obligations.StepKeepsMemoryCanonical : Prop :=
  ∀ s t : State, s.mem.wf = true → s.mem.inSpace = true → step s = .next t →
    t.mem.wf = true ∧ t.mem.inSpace = true

/-- Over every step, the registers a command in flight took at issue stay what the registers hold, and BUSY and DONE are
never both 1. -/
def Obligations.StepKeepsTheSnapshotCurrent : Prop :=
  ∀ s t : State, s.snapshotCurrent → s.busyExcludesDone → step s = .next t →
    t.snapshotCurrent ∧ t.busyExcludesDone

/-- The reset state meets the invariants, and its registers read as R43 says. Its memory is the free contents of power-up
(assumption 1), so nothing is said of any byte. -/
def Obligations.ResetMeetsTheInvariants : Prop :=
  State.reset.mem.wf = true ∧ State.reset.mem.inSpace = true ∧ State.reset.snapshotCurrent ∧
  State.reset.busyExcludesDone ∧ State.reset.resetHolds ∧ State.reset.resetHeld = false ∧
  State.reset.busy = false ∧ State.reset.irq = false ∧
  (∀ g : Reg, State.reset.readReg g = if g = .id then 0x47500001 else 0)

/-- No step faults: every access of a command stays in the 2^32-byte memory space, from any state whatever. -/
def Obligations.StepNeverFaults : Prop :=
  ∀ (s : State) (r : Fault), step s ≠ .fault r

/-- A command writes only the registers R29 gives it: operand registers never, RESULT only by GETPIX, one slot's ORIENT
only by a flag command, a whole slot only by SUBVIEW; and of STATUS what R222 says. -/
def Obligations.CommandsWriteOnlyTheirRegisters : Prop :=
  ∀ (i : Instr) (s t : State), exec i s = .next t →
    t.irqEn = s.irqEn ∧ t.wign = s.wign ∧ t.done = true ∧ t.busy = false ∧
    t.err = (s.err || decide (t.errcode ≠ .ok)) ∧
    t.regs.arg0 = s.regs.arg0 ∧ t.regs.arg1 = s.regs.arg1 ∧ t.regs.arg2 = s.regs.arg2 ∧
    t.regs.arg3 = s.regs.arg3 ∧ t.regs.arg4 = s.regs.arg4 ∧ t.regs.arg5 = s.regs.arg5 ∧
    t.regs.color = s.regs.color ∧
    ((∀ sl raw, i ≠ .getpix sl raw) → t.result = s.result) ∧
    (∀ sl : Slot, (∀ p, i ≠ .subview p sl) →
      (∃ a x y, t.regs.desc sl = (s.regs.desc sl).setOrient a x y) ∧
      (i ≠ .rotcw sl → i ≠ .rotccw sl → i ≠ .flipx sl → i ≠ .flipy sl → t.regs.desc sl = s.regs.desc sl)) ∧
    t.resetHeld = s.resetHeld ∧ t.unserved = s.unserved ∧ t.inputs = s.inputs ∧ t.readLog = s.readLog ∧ t.choices = s.choices

/-- A command leaves every byte outside the footprint of the slot it draws on alone, and a command that draws on no
slot leaves all of memory alone. -/
def Obligations.CommandsWriteOnlyTheirFootprint : Prop :=
  ∀ (i : Instr) (s t : State), s.mem.wf = true → exec i s = .next t → ∀ a : Nat,
    (∀ sl, pixelSlot i = some sl → (s.operands.desc sl).covers a = false) → t.mem.read a = s.mem.read a

/-- What a command does depends on no byte outside the footprints of the slots it uses: over two memories that agree
there, it ends alike and leaves memories that agree there. -/
def Obligations.CommandsReadOnlyTheirFootprints : Prop :=
  ∀ (i : Instr) (s t : State) (m : Memory), s.mem.wf = true → m.wf = true →
    (∀ a sl, sl ∈ usedSlots i → (s.operands.desc sl).covers a = true → s.mem.read a = m.read a) →
    exec i s = .next t →
    ∃ m', exec i { s with mem := m } = .next { t with mem := m' } ∧
      ∀ a sl, sl ∈ usedSlots i → (s.operands.desc sl).covers a = true → t.mem.read a = m'.read a

/-! ### Control commands -/

/-- NOP completes with ERRCODE 0 and does nothing else; its only word is 0, and any other word with its opcode is
illegal. -/
def Obligations.NopOnlyCompletes : Prop :=
  (∀ s : State, exec .nop s = .next { s with errcode := .ok, done := true, flight := none }) ∧
  decode 0 = .ok .nop ∧
  (∀ cw : Word, cw ≠ 0 → cw.extractLsb' 0 8 = 0 → ∃ e, decode cw = .error e)

/-- The flag commands complete, whatever the slot holds, and change ORIENT of their slot only. With (a, fx, fy) the flags
read at issue: ROTCW gives (not a, not fy, fx), which is the cycle (0,0) (1,0) (1,1) (0,1) of R160; ROTCCW gives (not a,
fy, not fx); FLIPX and FLIPY toggle one mirror flag. -/
def Obligations.FlagCommandsTurnTheOrientation : Prop :=
  ∀ (s : State) (sl : Slot), let d := s.operands.desc sl
    let after := fun a x y : Bool =>
      { s with regs := s.regs.setDesc sl ((s.regs.desc sl).setOrient a x y), errcode := .ok, done := true, flight := none }
    exec (.rotcw sl) s = .next (after (!d.axesSwap) (!d.ySwap) d.xSwap) ∧
    exec (.rotccw sl) s = .next (after (!d.axesSwap) d.ySwap (!d.xSwap)) ∧
    exec (.flipx sl) s = .next (after d.axesSwap (!d.xSwap) d.ySwap) ∧
    exec (.flipy sl) s = .next (after d.axesSwap d.xSwap (!d.ySwap))

/-- The orientation group closes: four turns one way, a turn and its inverse, and a mirror twice, issued and run one after
another from BUSY = 0, are the identity; two turns from the identity map logical (x, y) to physical (W-1-x, H-1-y). -/
def Obligations.OrientationGroupCloses : Prop :=
  ∀ (s : State) (sl : Slot), s.busy = false →
    (∀ l ∈ [[Instr.rotcw sl, .rotcw sl, .rotcw sl, .rotcw sl], [.rotccw sl, .rotccw sl, .rotccw sl, .rotccw sl],
        [.rotcw sl, .rotccw sl], [.rotccw sl, .rotcw sl], [.flipx sl, .flipx sl], [.flipy sl, .flipy sl]],
      ∃ t, execAll l s = .next t ∧ t.regs = s.regs ∧ t.mem = s.mem) ∧
    ((s.regs.desc sl).setOrient false false false = s.regs.desc sl →
      ∃ t, execAll [.rotcw sl, .rotcw sl] s = .next t ∧ ∀ x y : Int,
        mapPoint (t.regs.desc sl) false x y
          = ((s.regs.desc sl).width.toNat - 1 - x, (s.regs.desc sl).height.toNat - 1 - y))

/-- SUBVIEW of a rectangle inside a legal, served parent completes and writes the result slot with exactly the fields of R156,
none of them truncated; no other register but STATUS changes, nor memory. -/
def Obligations.SubviewWritesTheResultSlot : Prop :=
  ∀ (s : State) (parent result : Slot) (k : Kernel), let d := s.operands.desc parent
    let x := coord s.operands.arg0
    let y := coord s.operands.arg1
    let rw := count s.operands.arg2
    let rh := count s.operands.arg3
    checkSurface d = .ok k → s.serves d → 0 < rw → 0 < rh → 0 ≤ x → 0 ≤ y → x + rw ≤ d.logicalWidth → y + rh ≤ d.logicalHeight →
    ∃ new : Desc,
      exec (.subview parent result) s =
        .next { s with regs := s.regs.setDesc result new, errcode := .ok, done := true, flight := none } ∧
      (let p := xform d x y
       let q := xform d (x + rw - 1) (y + rh - 1)
       let px0 := min p.1 q.1
       let px1 := max p.1 q.1
       let py0 := min p.2 q.2
       let py1 := max p.2 q.2
       let bp := px0 * k.bpp + d.bitoff.toNat
       (new.base.toNat : Int) = d.base.toNat + py0 * d.stride.toNat + bp / 8 ∧ new.stride = d.stride ∧
       (new.width.toNat : Int) = px1 - px0 + 1 ∧ (new.height.toNat : Int) = py1 - py0 + 1 ∧
       new.ptype = d.ptype ∧ new.endian = d.endian ∧ (new.bitoff.toNat : Int) = bp % 8 ∧
       new.xmin.toNat = 0 ∧ new.xmax.toNat = new.width.toNat - 1 ∧
       new.ymin.toNat = 0 ∧ new.ymax.toNat = new.height.toNat - 1 ∧
       new.axesSwap = d.axesSwap ∧ new.xSwap = d.xSwap ∧ new.ySwap = d.ySwap)

/-- A SUBVIEW that completes without error leaves a legal slot whose logical pixel (i, j) stands at the very place, and
so in the very bits, of the parent's logical pixel (x + i, y + j). -/
def Obligations.SubviewIsLegalAndAliasesItsParent : Prop :=
  ∀ (s t : State) (parent result : Slot), let d := s.operands.desc parent
    exec (.subview parent result) s = .next t → t.errcode = .ok →
    ∃ k, checkSurface d = .ok k ∧ checkSurface (t.regs.desc result) = .ok k ∧
      ∀ i j : Int, 0 ≤ i → i < count s.operands.arg2 → 0 ≤ j → j < count s.operands.arg3 →
        let p := xform (t.regs.desc result) i j
        let q := xform d (coord s.operands.arg0 + i) (coord s.operands.arg1 + j)
        placeOf (t.regs.desc result) k p.1.toNat p.2.toNat = placeOf d k q.1.toNat q.2.toNat

/-- SUBVIEW of a legal parent raises SUBVIEW_BOUNDS for every rectangle that is empty or leaves the parent's logical
bounds, and for no other; when it does, the result slot, memory and every register but STATUS are unchanged. -/
def Obligations.SubviewRaisesOutsideItsParent : Prop :=
  ∀ (s : State) (parent result : Slot) (k : Kernel), let d := s.operands.desc parent
    let x := coord s.operands.arg0
    let y := coord s.operands.arg1
    let rw := count s.operands.arg2
    let rh := count s.operands.arg3
    let outside := rw = 0 ∨ rh = 0 ∨ x < 0 ∨ y < 0 ∨ x + rw > d.logicalWidth ∨ y + rh > d.logicalHeight
    checkSurface d = .ok k →
    (outside → exec (.subview parent result) s = .next (s.raised .subviewBounds)) ∧
    (∀ t, exec (.subview parent result) s = .next t → t.errcode = .subviewBounds → outside)

/-! ### Pixels -/

/-- GETPIX on a legal, served slot completes with RESULT the raw value at the address of R103, or 0 if the mapped
coordinate is clipped, and changes no other register but STATUS, nor memory. -/
def Obligations.GetpixReadsThePixel : Prop :=
  ∀ (s : State) (sl : Slot) (raw : Bool) (k : Kernel), let d := s.operands.desc sl
    let p := mapPoint d raw (coord s.operands.arg0) (coord s.operands.arg1)
    let bitpos := p.1.toNat * k.bpp + d.bitoff.toNat
    checkSurface d = .ok k → s.serves d →
    exec (.getpix sl raw) s = .next
      { s with
        result := if clipped d p then 0
          else BitVec.ofNat 32 (readRaw s.mem (d.base.toNat + p.2.toNat * d.stride.toNat + bitpos / 8) (bitpos % 8)
            k.bpp d.endian)
        errcode := .ok
        done := true
        flight := none }

/-- PUTPIX paints the one mapped coordinate, if it is not clipped. -/
def Obligations.PutpixPaintsOnePixel : Prop :=
  ∀ (s : State) (sl : Slot) (raw : Bool) (k : Kernel), let d := s.operands.desc sl
    s.mem.wf = true → checkSurface d = .ok k → s.serves d →
    Paints s (.putpix sl raw) sl k
      (fun q => q = mapPoint d raw (coord s.operands.arg0) (coord s.operands.arg1))

/-- LINE paints the unclipped points of Bresenham's walk between the mapped endpoints. -/
def Obligations.LinePaintsTheBresenhamPoints : Prop :=
  ∀ (s : State) (sl : Slot) (raw : Bool) (k : Kernel), let d := s.operands.desc sl
    let p := mapPoint d raw (coord s.operands.arg0) (coord s.operands.arg1)
    let q := mapPoint d raw (coord s.operands.arg2) (coord s.operands.arg3)
    s.mem.wf = true → checkSurface d = .ok k → s.serves d →
    Paints s (.line sl raw) sl k (fun r => r ∈ bresenham p.1 p.2 q.1 q.2)

/-- The four run commands paint the unclipped images of their runs: x in ARG0..ARG1 at row ARG2 (HLINE), ARG2 columns
from ARG0 at row ARG1 (HLINEW), y in ARG1..ARG2 at column ARG0 (VLINE), ARG2 rows from ARG1 at column ARG0 (VLINEH). -/
def Obligations.RunCommandsPaintTheirRuns : Prop :=
  ∀ (s : State) (sl : Slot) (raw : Bool) (k : Kernel), let d := s.operands.desc sl
    let r := s.operands
    s.mem.wf = true → checkSurface d = .ok k → s.serves d →
    Paints s (.hline sl raw) sl k
      (fun q => ∃ x, coord r.arg0 ≤ x ∧ x ≤ coord r.arg1 ∧ q = mapPoint d raw x (coord r.arg2)) ∧
    Paints s (.hlinew sl raw) sl k
      (fun q => ∃ x, coord r.arg0 ≤ x ∧ x < coord r.arg0 + count r.arg2 ∧ q = mapPoint d raw x (coord r.arg1)) ∧
    Paints s (.vline sl raw) sl k
      (fun q => ∃ y, coord r.arg1 ≤ y ∧ y ≤ coord r.arg2 ∧ q = mapPoint d raw (coord r.arg0) y) ∧
    Paints s (.vlineh sl raw) sl k
      (fun q => ∃ y, coord r.arg1 ≤ y ∧ y < coord r.arg1 + count r.arg2 ∧ q = mapPoint d raw (coord r.arg0) y)

/-- The run form of R181: where an HLINE's pixels lie in one physical row, one `write_run` over its unclipped columns
leaves the very memory the per-pixel HLINE leaves. -/
def Obligations.HlineEqualsItsRunForm : Prop :=
  ∀ (s : State) (sl : Slot) (raw : Bool) (k : Kernel), let d := s.operands.desc sl
    let p := mapPoint d raw (coord s.operands.arg0) (coord s.operands.arg2)
    let q := mapPoint d raw (coord s.operands.arg1) (coord s.operands.arg2)
    let lo := max (min p.1 q.1) d.xmin.toNat
    let hi := min (max p.1 q.1) d.xmax.toNat
    let start := addressOf d.base.toNat d.stride.toNat d.bitoff.toNat lo.toNat p.2.toNat k.bpp
    s.mem.wf = true → checkSurface d = .ok k → s.serves d → (raw = true ∨ d.axesSwap = false) →
    coord s.operands.arg0 ≤ coord s.operands.arg1 →
    exec (.hline sl raw) s = .next (s.succeededWith
      (if (d.ymin.toNat : Int) ≤ p.2 ∧ p.2 ≤ d.ymax.toNat ∧ lo ≤ hi then
        writeRun s.mem start.1 start.2 (hi - lo + 1).toNat s.operands.color.toNat k.bpp d.endian
      else s.mem))

/-- HLINEW with (x, y, rw) does what HLINE does with (x, x + rw - 1, y), and VLINEH likewise what VLINE does: issued from
states with BUSY = 0 that differ only in ARG0..ARG2, they end alike. -/
def Obligations.WidthFormsEqualEndpointForms : Prop :=
  ∀ (s t : State) (sl : Slot) (raw : Bool) (b0 b1 b2 : Word), s.busy = false →
    let r := { s.regs with arg0 := b0, arg1 := b1, arg2 := b2 }
    (coord b0 = coord s.regs.arg0 → coord b1 = coord s.regs.arg0 + count s.regs.arg2 - 1 →
      coord b2 = coord s.regs.arg1 → exec (.hlinew sl raw) (s.issue (encode (.hlinew sl raw))) = .next t →
      exec (.hline sl raw) ({ s with regs := r }.issue (encode (.hline sl raw))) = .next { t with regs := r }) ∧
    (coord b0 = coord s.regs.arg0 → coord b1 = coord s.regs.arg1 →
      coord b2 = coord s.regs.arg1 + count s.regs.arg2 - 1 →
      exec (.vlineh sl raw) (s.issue (encode (.vlineh sl raw))) = .next t →
      exec (.vline sl raw) ({ s with regs := r }.issue (encode (.vline sl raw))) = .next { t with regs := r })

/-- The walk of R175 in closed form, and the properties R176 lists of it: its length, no repeats, both endpoints, the same
points from either end, axis-parallel lines whole, and unit steps. The closed form: with (a, b) the major and minor
coordinate, walked upward from (a0, b0) to (a1, b1), da = a1 - a0 and db = |b1 - b0|, entry n stands at a0 + n and has
taken (n·db + da - 1 - da div 2) div da minor steps, which is what an error term that starts at da div 2 gives. -/
def Obligations.BresenhamWalksTheSegment : Prop :=
  (∀ xa ya xb yb : Int, let l := bresenham xa ya xb yb
    l.length = max (xb - xa).natAbs (yb - ya).natAbs + 1 ∧ l.Nodup ∧
    (xa, ya) ∈ l ∧ (xb, yb) ∈ l ∧
    (∀ p, p ∈ bresenham xb yb xa ya ↔ p ∈ l) ∧
    (ya = yb → ∀ p, p ∈ l ↔ p.2 = ya ∧ min xa xb ≤ p.1 ∧ p.1 ≤ max xa xb) ∧
    (xa = xb → ∀ p, p ∈ l ↔ p.1 = xa ∧ min ya yb ≤ p.2 ∧ p.2 ≤ max ya yb) ∧
    ((yb - ya).natAbs ≤ (xb - xa).natAbs → l.IsChain (fun p q => q.1 = p.1 + 1 ∧ (q.2 - p.2).natAbs ≤ 1)) ∧
    ((xb - xa).natAbs < (yb - ya).natAbs → l.IsChain (fun p q => q.2 = p.2 + 1 ∧ (q.1 - p.1).natAbs ≤ 1))) ∧
  (∀ (a0 b0 a1 b1 : Int) (n : Nat), a0 < a1 → (n : Int) ≤ a1 - a0 →
    let da := a1 - a0
    let db : Int := (b1 - b0).natAbs
    let a := a0 + n
    let b := b0 + (if b0 < b1 then 1 else -1) * ((n * db + da - 1 - da / 2) / da)
    ((b1 - b0).natAbs ≤ (a1 - a0).natAbs →
      (bresenham a0 b0 a1 b1)[n]? = some (a, b) ∧ (bresenham a1 b1 a0 b0)[n]? = some (a, b)) ∧
    ((b1 - b0).natAbs < (a1 - a0).natAbs →
      (bresenham b0 a0 b1 a1)[n]? = some (b, a) ∧ (bresenham b1 a1 b0 a0)[n]? = some (b, a)))

/-! ### Blit -/

/-- BLIT with both slots legal and served and both rectangles inside their surfaces completes, and memory is that of
the copies made one after another in row-major order, each pixel read just before its write, so that a later read sees
an earlier write. The source corners may come in either order. -/
def Obligations.BlitCopiesInRowMajorOrder : Prop :=
  ∀ (s : State) (src dst : Slot) (raw : Bool) (ks kt : Kernel), let r := s.operands
    let ds := r.desc src
    let dt := r.desc dst
    let x0 := min (coord r.arg0) (coord r.arg2)
    let x1 := max (coord r.arg0) (coord r.arg2)
    let y0 := min (coord r.arg1) (coord r.arg3)
    let y1 := max (coord r.arg1) (coord r.arg3)
    let x2 := coord r.arg4
    let y2 := coord r.arg5
    checkSurface ds = .ok ks → checkSurface dt = .ok kt → s.serves ds → s.serves dt →
    0 ≤ x0 → 0 ≤ y0 → x1 < ds.boundWidth raw → y1 < ds.boundHeight raw →
    0 ≤ x2 → 0 ≤ y2 → x2 + (x1 - x0 + 1) ≤ dt.boundWidth raw → y2 + (y1 - y0 + 1) ≤ dt.boundHeight raw →
    exec (.blit src dst raw) s = .next (s.succeededWith
      ((List.range (y1 - y0 + 1).toNat).foldl (fun (m : Memory) (j : Nat) =>
        (List.range (x1 - x0 + 1).toNat).foldl (fun (m : Memory) (i : Nat) =>
          let p := mapPoint ds raw (x0 + i) (y0 + j)
          let q := mapPoint dt raw (x2 + i) (y2 + j)
          let v := readPlace m (placeOf ds ks p.1.toNat p.2.toNat)
          writePlace m (placeOf dt kt q.1.toNat q.2.toNat)
            (if ds.ptype = dt.ptype then v else (Config.convert (BitVec.ofNat 32 v) ds.ptype dt.ptype).toNat)) m) s.mem))

/-- BLIT between surfaces whose footprints share no byte: each pixel of the destination rectangle holds the low w(T)
bits of the source pixel, through CONVERT when the types differ; every other pixel of T, every byte outside the
rectangle's pixels and every bit of memory that none of them has is as before; clip rectangles play no part. -/
def Obligations.BlitBetweenDisjointSurfaces : Prop :=
  ∀ (s : State) (src dst : Slot) (raw : Bool) (ks kt : Kernel), let r := s.operands
    let ds := r.desc src
    let dt := r.desc dst
    let x0 := min (coord r.arg0) (coord r.arg2)
    let x1 := max (coord r.arg0) (coord r.arg2)
    let y0 := min (coord r.arg1) (coord r.arg3)
    let y1 := max (coord r.arg1) (coord r.arg3)
    let x2 := coord r.arg4
    let y2 := coord r.arg5
    let place := fun i j : Int =>
      placeOf dt kt (mapPoint dt raw (x2 + i) (y2 + j)).1.toNat (mapPoint dt raw (x2 + i) (y2 + j)).2.toNat
    let inRect := fun i j : Int => 0 ≤ i ∧ i ≤ x1 - x0 ∧ 0 ≤ j ∧ j ≤ y1 - y0
    s.mem.wf = true → checkSurface ds = .ok ks → checkSurface dt = .ok kt → s.serves ds → s.serves dt →
    (∀ a, ds.covers a = true → dt.covers a = false) →
    0 ≤ x0 → 0 ≤ y0 → x1 < ds.boundWidth raw → y1 < ds.boundHeight raw →
    0 ≤ x2 → 0 ≤ y2 → x2 + (x1 - x0 + 1) ≤ dt.boundWidth raw → y2 + (y1 - y0 + 1) ≤ dt.boundHeight raw →
    ∃ m, exec (.blit src dst raw) s = .next (s.succeededWith m) ∧
      (∀ i j, inRect i j →
        let p := mapPoint ds raw (x0 + i) (y0 + j)
        let v := readPlace s.mem (placeOf ds ks p.1.toNat p.2.toNat)
        readPlace m (place i j) =
          (if ds.ptype = dt.ptype then v else (Config.convert (BitVec.ofNat 32 v) ds.ptype dt.ptype).toNat)
            % 2 ^ kt.bpp) ∧
      (∀ px py : Nat, px < dt.width.toNat → py < dt.height.toNat →
        (∀ i j, inRect i j → mapPoint dt raw (x2 + i) (y2 + j) ≠ ((px : Int), (py : Int))) →
        readPlace m (placeOf dt kt px py) = readPlace s.mem (placeOf dt kt px py)) ∧
      (∀ a, (∀ i j, inRect i j → a ∉ (place i j).bytes) → m.read a = s.mem.read a) ∧
      (∀ a bit, (∀ i j, inRect i j → ¬ (place i j).hasBit a bit) →
        (m.read a).getLsbD bit = (s.mem.read a).getLsbD bit)

/-- BLIT of legal slots raises BLIT_BOUNDS when a normalized rectangle does not fit its surface, logical with RAW = 0
and physical with RAW = 1; nothing is written and no register but STATUS changes. -/
def Obligations.BlitRaisesOutOfBounds : Prop :=
  ∀ (s : State) (src dst : Slot) (raw : Bool) (ks kt : Kernel), let r := s.operands
    let ds := r.desc src
    let dt := r.desc dst
    let x0 := min (coord r.arg0) (coord r.arg2)
    let x1 := max (coord r.arg0) (coord r.arg2)
    let y0 := min (coord r.arg1) (coord r.arg3)
    let y1 := max (coord r.arg1) (coord r.arg3)
    let x2 := coord r.arg4
    let y2 := coord r.arg5
    let wide := fun d : Desc => if raw then d.width.toNat else d.logicalWidth
    let high := fun d : Desc => if raw then d.height.toNat else d.logicalHeight
    checkSurface ds = .ok ks → checkSurface dt = .ok kt →
    (x0 < 0 ∨ y0 < 0 ∨ x1 ≥ wide ds ∨ y1 ≥ high ds ∨ x2 < 0 ∨ y2 < 0 ∨ x2 + (x1 - x0 + 1) > wide dt
      ∨ y2 + (y1 - y0 + 1) > high dt) →
    exec (.blit src dst raw) s = .next (s.raised .blitBounds)

/-! ### Kernels and surfaces -/

/-- The round trip of R110: for every width, both conventions and every whole position, a raw read after a raw write
returns the value's low w bits. -/
def Obligations.RawWriteThenReadReturnsTheValue : Prop :=
  ∀ (m : Memory) (a pos w v : Nat) (endian : Bool), m.wf = true → w ∈ [1, 2, 4, 8, 16, 24, 32] → pos < 8 →
    (w < 8 → pos % w = 0) →
    readRaw (writeRaw m a pos w endian v) a pos w endian = v % 2 ^ w ∧
    (v < 2 ^ w → readRaw (writeRaw m a pos w endian v) a pos w endian = v)

/-- A raw write changes no bit but the pixel's: below 8 bits, the w bits from `phys_shift` of its byte; from 8 bits on,
the w/8 bytes from its address. -/
def Obligations.RawWriteChangesOnlyThePixel : Prop :=
  ∀ (m : Memory) (a pos w v : Nat) (endian : Bool) (b j : Nat), m.wf = true → w ∈ [1, 2, 4, 8, 16, 24, 32] → pos < 8 →
    (w < 8 → pos % w = 0) → j < 8 →
    let low := if endian then 8 - w - pos else pos
    (w < 8 → ¬ (b = a ∧ low ≤ j ∧ j < low + w) →
      ((writeRaw m a pos w endian v).read b).getLsbD j = (m.read b).getLsbD j) ∧
    (8 ≤ w → ¬ (a ≤ b ∧ b < a + w / 8) → (writeRaw m a pos w endian v).read b = m.read b)

/-- The whole-byte form of a run (R109): below 8 bits, a run leaves the replicated pattern in every byte all of whose
pixels it covers, under both conventions; from 8 bits on, a run leaves the value's little-endian bytes, repeated; and no
byte outside a run changes. -/
def Obligations.RunOverAByteReplicates : Prop :=
  ∀ (m : Memory) (a v : Nat) (endian : Bool), m.wf = true →
    (∀ w ∈ [1, 2, 4], ∀ pos n b : Nat, pos < 8 → pos % w = 0 →
      (a ≤ b → pos ≤ 8 * (b - a) → 8 * (b - a) + 8 ≤ pos + n * w →
        ((writeRun m a pos n v w endian).read b).toNat
          = ((List.range (8 / w)).map (fun k => v % 2 ^ w * 2 ^ (k * w))).sum) ∧
      ((b < a ∨ pos + n * w ≤ 8 * (b - a)) → (writeRun m a pos n v w endian).read b = m.read b)) ∧
    (∀ w ∈ [8, 16, 24, 32], ∀ n : Nat,
      (∀ i j : Nat, i < n → j < w / 8 →
        ((writeRun m a 0 n v w endian).read (a + i * (w / 8) + j)).toNat = v / 256 ^ j % 256) ∧
      (∀ b, (b < a ∨ a + n * (w / 8) ≤ b) → (writeRun m a 0 n v w endian).read b = m.read b))

/-- The addressing of R103 is linear in x: one pixel further is one pixel-width of bits further. -/
def Obligations.AddressingIsLinearInX : Prop :=
  ∀ base stride bitoff x y w : Nat,
    (addressOf base stride bitoff (x + 1) y w).1 * 8 + (addressOf base stride bitoff (x + 1) y w).2
      = (addressOf base stride bitoff x y w).1 * 8 + (addressOf base stride bitoff x y w).2 + w

/-- The pixel-type ROM, code by code (R100, R101), and the dispatcher (R130): ten kernels, each of its key's width and,
below 8 bits, convention; every other width raises UNIMPL_FORMAT; from 8 bits on ENDIAN does not matter (R131). -/
def Obligations.DispatchSelectsTheKernel : Prop :=
  bppRom 0 = some 4 ∧ bppRom 1 = some 8 ∧ bppRom 2 = some 1 ∧ bppRom 3 = some 2 ∧ bppRom 4 = some 4 ∧
  bppRom 5 = some 8 ∧ bppRom 6 = some 16 ∧ bppRom 7 = some 16 ∧ bppRom 8 = some 24 ∧ bppRom 9 = some 24 ∧
  (∀ t : BitVec 5, 10 ≤ t.toNat → t.toNat ≤ 17 → bppRom t = some 32) ∧
  (∀ t : BitVec 5, 18 ≤ t.toNat → bppRom t = none) ∧
  ∀ (w : Nat) (endian : Bool),
    (w ∈ [1, 2, 4, 8, 16, 24, 32] →
      ∃ k, dispatch w endian = .ok k ∧ k.bpp = w ∧ (w < 8 → k.bigEndian = endian)) ∧
    (w ∉ [1, 2, 4, 8, 16, 24, 32] → dispatch w endian = .error .unimplFormat) ∧
    (8 ≤ w → dispatch w true = dispatch w false)

/-- ENDIAN of a slot whose pixels are 8 bits or wider changes nothing but itself: issued from two states with BUSY = 0
that differ in it, every command but SUBVIEW ends alike; and SUBVIEW, which copies the field, ends alike but for ENDIAN
fields. -/
def Obligations.WideSurfacesIgnoreEndian : Prop :=
  ∀ (i : Instr) (s t : State) (sl : Slot) (w : Nat) (endian : Bool), s.busy = false →
    bppRom (s.regs.desc sl).ptype = some w → 8 ≤ w → exec i (s.issue (encode i)) = .next t →
    let u := { s with regs := s.regs.setDesc sl { s.regs.desc sl with endian := endian } }
    ((∀ p q, i ≠ .subview p q) → exec i (u.issue (encode i)) =
      .next { t with regs := t.regs.setDesc sl { t.regs.desc sl with endian := endian } }) ∧
    (∃ d : Slots, exec i (u.issue (encode i)) = .next { t with regs := { t.regs with slots := d } } ∧
      ∀ x : Slot, ∃ e, d.get x = { t.regs.desc x with endian := e })

/-- Pixel types of one width are one format to the kernels: issued from two states with BUSY = 0 that differ only in one
slot's type, a command other than BLIT and SUBVIEW ends alike if the two types have one width. -/
def Obligations.TypesOfOneWidthShareAKernel : Prop :=
  ∀ (i : Instr) (s t : State) (sl : Slot) (ty : BitVec 5), s.busy = false →
    bppRom ty = bppRom (s.regs.desc sl).ptype → (∀ p q, i ≠ .subview p q) → (∀ p q raw, i ≠ .blit p q raw) →
    exec i (s.issue (encode i)) = .next t →
    exec i ({ s with regs := s.regs.setDesc sl { s.regs.desc sl with ptype := ty } }.issue (encode i)) =
      .next { t with regs := t.regs.setDesc sl { t.regs.desc sl with ptype := ty } }

/-- The slot check answers as R140 orders its checks: BAD_PTYPE for a reserved type; else BAD_DESC if a dimension is 0,
BITOFF is illegal for the width, the stride is short or the surface passes 2^32; else BAD_CLIP if the clip is not
ordered inside the surface; else the kernel of the slot's width and ENDIAN. UNIMPL_FORMAT never arises (R132). -/
def Obligations.SlotCheckFollowsItsOrder : Prop :=
  ∀ d : Desc,
    (17 < d.ptype.toNat → checkSurface d = .error .badPtype) ∧
    (∀ w, bppRom d.ptype = some w →
      let rb := (d.bitoff.toNat + d.width.toNat * w + 7) / 8
      let descOk := d.width ≠ 0 ∧ d.height ≠ 0 ∧ (8 ≤ w → d.bitoff = 0) ∧ (w < 8 → d.bitoff.toNat % w = 0) ∧
        rb ≤ d.stride.toNat ∧ d.base.toNat + d.stride.toNat * (d.height.toNat - 1) + rb ≤ 2 ^ 32
      let clipOk := d.xmin ≤ d.xmax ∧ d.xmax < d.width ∧ d.ymin ≤ d.ymax ∧ d.ymax < d.height
      d.ptype.toNat ≤ 17 ∧
      (¬ descOk → checkSurface d = .error .badDesc) ∧
      (descOk → ¬ clipOk → checkSurface d = .error .badClip) ∧
      (descOk → clipOk → ∃ k, checkSurface d = .ok k ∧ dispatch w d.endian = .ok k)) ∧
    (d.ptype.toNat ≤ 17 → ∃ w, bppRom d.ptype = some w)

/-- What R141 says of a legal slot: every pixel's bits are whole, in bytes of the footprint below 2^32; no two pixels
share a bit; the clip rectangle is non-empty and inside. -/
def Obligations.LegalSurfacePixelsAreWholeAndDisjoint : Prop :=
  ∀ (d : Desc) (k : Kernel), checkSurface d = .ok k →
    (∀ px py : Nat, px < d.width.toNat → py < d.height.toNat →
      (placeOf d k px py).aligned ∧
      (∀ a j, (placeOf d k px py).hasBit a j → a ∈ (placeOf d k px py).bytes ∧ j < 8) ∧
      ∀ a ∈ (placeOf d k px py).bytes, d.covers a = true ∧ a < 2 ^ 32) ∧
    (∀ px py qx qy : Nat, px < d.width.toNat → py < d.height.toNat → qx < d.width.toNat → qy < d.height.toNat →
      (px, py) ≠ (qx, qy) → ∀ a j, ¬ ((placeOf d k px py).hasBit a j ∧ (placeOf d k qx qy).hasBit a j)) ∧
    (d.xmin ≤ d.xmax ∧ d.ymin ≤ d.ymax ∧ ∀ p, clipped d p = false → d.holds p)

/-- The orientation transform maps the logical box one-to-one onto the physical one, and everything outside to the
outside (R151). -/
def Obligations.OrientationMapsBoxOntoBox : Prop :=
  ∀ d : Desc,
    (∀ x y : Int, d.holdsLogical (x, y) → d.holds (xform d x y)) ∧
    (∀ x y : Int, ¬ d.holdsLogical (x, y) → ¬ d.holds (xform d x y)) ∧
    (∀ x y x' y' : Int, xform d x y = xform d x' y' → x = x' ∧ y = y') ∧
    (∀ p : Int × Int, d.holds p → ∃ x y, d.holdsLogical (x, y) ∧ xform d x y = p)

/-! ### Errors -/

/-- Errors are precise: a command that raises has changed no register but STATUS and no memory, and has read no memory,
for over any other memory it ends alike. -/
def Obligations.ErrorsArePrecise : Prop :=
  ∀ (i : Instr) (s t : State), exec i s = .next t → t.errcode ≠ .ok →
    t = s.raised t.errcode ∧ ∀ m : Memory, exec i { s with mem := m } = .next { t with mem := m }

/-- The slot check comes first: a pixel command or SUBVIEW whose slot fails it, or a BLIT whose source fails it, or
whose source passes and destination fails, completes with that very error. -/
def Obligations.SlotChecksRaiseFirst : Prop :=
  ∀ (s : State) (sl other : Slot) (raw : Bool) (c : ErrCode), checkSurface (s.operands.desc sl) = .error c →
    (∀ i ∈ [Instr.getpix sl raw, .putpix sl raw, .line sl raw, .hline sl raw, .hlinew sl raw, .vline sl raw,
        .vlineh sl raw, .blit sl other raw, .subview sl other], exec i s = .next (s.raised c)) ∧
    (∀ k, checkSurface (s.operands.desc other) = .ok k → exec (.blit other sl raw) s = .next (s.raised c))

/-- Which codes a command can end with (R225): UNIMPL_FORMAT and BAD_CMD never, BLIT_BOUNDS only BLIT, SUBVIEW_BOUNDS only
SUBVIEW, and NOP and the flag commands only 0. -/
def Obligations.EachCommandHasItsErrorCodes : Prop :=
  ∀ (i : Instr) (s t : State), exec i s = .next t →
    t.errcode ≠ .unimplFormat ∧ t.errcode ≠ .badCmd ∧
    (t.errcode = .blitBounds → ∃ src dst raw, i = .blit src dst raw) ∧
    (t.errcode = .subviewBounds → ∃ p q, i = .subview p q) ∧
    ((i = .nop ∨ ∃ sl, i = .rotcw sl ∨ i = .rotccw sl ∨ i = .flipx sl ∨ i = .flipy sl) → t.errcode = .ok)

/-! ### Host interface -/

/-- With BUSY = 0 and the reset input deasserted, a write of an operand or descriptor register stores every non-reserved
bit, reads back so, and changes nothing else a register shows. -/
def Obligations.IdleRegisterWritesReadBack : Prop :=
  ∀ (s : State) (g : Reg) (v : Word) (rest : List Input), g.isOperand = true → s.resetHeld = false → s.busy = false →
    s.inputs = .regWrite g.offset 4 v :: rest →
    ∃ t, step s = .next t ∧ t = { s with inputs := rest, regs := t.regs } ∧
      t.readReg g = v &&& (match g with
        | .slot _ .fmt => 0x0007011F
        | .slot _ .orient => 0x00000007
        | _ => 0xFFFFFFFF) ∧
      ∀ h, h ≠ g → t.readReg h = s.readReg h

/-- With BUSY = 1, a write of CMD, ARG, COLOR or a descriptor register is lost and sets WIGN. Whatever BUSY is, a CTRL write
without SRST writes IRQ_EN alone, a STATUS write clears DONE, ERR and WIGN where it has a 1 and changes nothing else, and
ID, RESULT and reserved writes do nothing and set no bit. The reset input is deasserted throughout. -/
def Obligations.BusyRegisterWritesAreLost : Prop :=
  ∀ (s : State) (g : Reg) (v : Word) (rest : List Input), s.resetHeld = false →
    s.inputs = .regWrite g.offset 4 v :: rest →
    (s.busy = true → (g.isOperand = true ∨ g = .cmd) → step s = .next { s with inputs := rest, wign := true }) ∧
    (g = .ctrl → v.getLsbD 1 = false → step s = .next { s with inputs := rest, irqEn := v.getLsbD 0 }) ∧
    (g = .status → step s = .next
      { s with inputs := rest, done := s.done && !v.getLsbD 1, err := s.err && !v.getLsbD 2,
               wign := s.wign && !v.getLsbD 3 }) ∧
    ((g = .id ∨ g = .result ∨ g = .reserved) → step s = .next { s with inputs := rest })

/-- A register read returns the register's value and changes nothing, whatever BUSY is. -/
def Obligations.RegisterReadsChangeNothing : Prop :=
  ∀ (s : State) (g : Reg) (rest : List Input), s.inputs = .regRead g.offset 4 :: rest →
    step s = .next { s with inputs := rest, readLog := s.readReg g :: s.readLog }

/-- The STATUS word (R23), bit by bit, and the code numbers its ERRCODE field shows (R225). -/
def Obligations.StatusWordShowsTheFlags : Prop :=
  (∀ s : State, s.statusWord.getLsbD 0 = s.busy ∧ s.statusWord.getLsbD 1 = s.done ∧ s.statusWord.getLsbD 2 = s.err ∧
    s.statusWord.getLsbD 3 = s.wign ∧ s.statusWord.extractLsb' 4 4 = 0 ∧
    s.statusWord.extractLsb' 8 4 = s.errcode.bits ∧ s.statusWord.extractLsb' 12 20 = 0) ∧
  ErrCode.ok.bits = 0x0 ∧ ErrCode.badCmd.bits = 0x1 ∧ ErrCode.badPtype.bits = 0x2 ∧ ErrCode.unimplFormat.bits = 0x3 ∧
  ErrCode.badDesc.bits = 0x4 ∧ ErrCode.badClip.bits = 0x5 ∧ ErrCode.blitBounds.bits = 0x6 ∧
  ErrCode.subviewBounds.bits = 0x8

/-- Reserved offsets read 0 and ignore writes, whatever BUSY is (R28). -/
def Obligations.ReservedOffsetsReadZeroAndIgnoreWrites : Prop :=
  ∀ (s : State) (off : Nat) (v : Word) (rest : List Input), off % 4 = 0 →
    (0x030 ≤ off ∧ off ≤ 0x0FC ∨ off = 0x11C ∨ off = 0x13C ∨ off = 0x15C ∨ off = 0x17C ∨ 0x180 ≤ off ∧ off ≤ 0x1FC) →
    (s.inputs = .regWrite off 4 v :: rest → step s = .next { s with inputs := rest }) ∧
    (s.inputs = .regRead off 4 :: rest → step s = .next { s with inputs := rest, readLog := 0 :: s.readLog })

/-- A sub-word or misaligned access to the window, read or write, is refused (R20). -/
def Obligations.NarrowRegisterAccessIsRefused : Prop :=
  ∀ (s : State) (off size : Nat) (v : Word) (rest : List Input), (size ≠ 4 ∨ off % 4 ≠ 0) →
    (s.inputs = .regWrite off size v :: rest ∨ s.inputs = .regRead off size :: rest) →
    step s = .refused .narrowRegisterAccess

/-- The interrupt output (R230): raised at every completion while IRQ_EN = 1, lowered by the next issue, by a clear of
DONE, by IRQ_EN = 0 and by reset; the register writes are those of a unit whose reset input is deasserted. -/
def Obligations.InterruptFollowsDone : Prop :=
  (∀ s : State, s.irq = (s.irqEn && s.done)) ∧
  (∀ (i : Instr) (s t : State), exec i s = .next t → t.irq = s.irqEn) ∧
  (∀ (s t : State) (v : Word) (rest : List Input), step s = .next t →
    (s.resetHeld = false →
      (s.inputs = .regWrite 0x00C 4 v :: rest → s.busy = false → t.irq = false) ∧
      (s.inputs = .regWrite 0x008 4 v :: rest → v.getLsbD 1 = true → t.irq = false) ∧
      (s.inputs = .regWrite 0x004 4 v :: rest → v.getLsbD 0 = false → t.irq = false) ∧
      (s.inputs = .regWrite 0x004 4 v :: rest → v.getLsbD 1 = true → t.irq = false)) ∧
    (s.inputs = .resetAssert :: rest → t.irq = false))

/-- A reset with no command in flight, by CTRL.SRST whatever bit 0 says, by the reset input becoming asserted, or by its
deassertion: every register takes its reset value, memory is unchanged. -/
def Obligations.IdleResetKeepsMemory : Prop :=
  ∀ (s : State) (v : Word) (rest : List Input), s.busy = false →
    let after := { State.reset with
      mem := s.mem, unserved := s.unserved, inputs := rest, readLog := s.readLog, choices := s.choices }
    (s.resetHeld = false → s.inputs = .regWrite 0x004 4 v :: rest → v.getLsbD 1 = true → step s = .next after) ∧
    (s.inputs = .resetAssert :: rest → step s = .next { after with resetHeld := true }) ∧
    (s.resetHeld = true → s.inputs = .resetRelease :: rest → step s = .next after)

/-- A reset while a command runs, by CTRL.SRST or by the reset input becoming asserted: the command ends without
completion, every register takes its reset value, DONE stays 0, and memory holds some first k of the command's pixel
writes; an abort of a command that raises leaves memory alone. Nothing is said of which k: it is a free value (assumption
4). That the reset input leaves such a prefix as CTRL.SRST does is the model's reading of R250 (assumption 5). -/
def Obligations.SoftResetAbortsAtAPixelBoundary : Prop :=
  ∀ (s : State) (f : Flight) (v : Word) (rest : List Input) (held : Bool), s.flight = some f →
    (held = false ∧ s.resetHeld = false ∧ s.inputs = .regWrite 0x004 4 v :: rest ∧ v.getLsbD 1 = true ∨
      held = true ∧ s.inputs = .resetAssert :: rest) →
    (∀ p, f.plan = .ok p → (∀ d ∈ p.surfaces, s.serves d) →
      ∃ k ≤ p.writes.length, ∃ n, step s = .next
        { State.reset with mem := runWrites s.mem (p.writes.take k), unserved := s.unserved, inputs := rest,
                           readLog := s.readLog, choices := n, resetHeld := held }) ∧
    (∀ c, f.plan = .error c → step s = .next
      { State.reset with mem := s.mem, unserved := s.unserved, inputs := rest, readLog := s.readLog,
                         choices := s.choices, resetHeld := held })

/-- A host memory access to a byte in the footprint of a slot the command in flight uses is refused (R73). Which slots a
command uses is the reading of assumption 9: NOP none, BLIT two, every other command its slot S. -/
def Obligations.FootprintRacesAreRefused : Prop :=
  ∀ (s : State) (f : Flight) (i : Instr) (sl : Slot) (a : Word) (b : Byte) (rest : List Input), s.flight = some f →
    decode f.word = .ok i → sl ∈ usedSlots i → (f.regs.desc sl).covers a.toNat = true →
    (s.inputs = .memWrite a b :: rest ∨ s.inputs = .memRead a :: rest) → step s = .refused .footprintRace

/-- A host access to a byte outside the footprints in use, with a command in flight or with none: on memory that the
platform serves, a byte write changes that byte alone, and a byte read returns the byte and changes nothing; a byte that
it does not serve is refused (R69; that State lists the spans it does not serve is assumption 8). -/
def Obligations.HostReachesMemoryByteByByte : Prop :=
  ∀ (s : State) (a : Word) (b : Byte) (rest : List Input), s.mem.wf = true →
    (∀ f i sl, s.flight = some f → decode f.word = .ok i → sl ∈ usedSlots i →
      (f.regs.desc sl).covers a.toNat = false) →
    (servedByte s.unserved a.toNat = true →
      (s.inputs = .memWrite a b :: rest → ∃ m, step s = .next { s with inputs := rest, mem := m } ∧
        ∀ x, m.read x = if x = a.toNat then b else s.mem.read x) ∧
      (s.inputs = .memRead a :: rest →
        step s = .next { s with inputs := rest, readLog := (s.mem.read a.toNat).setWidth 32 :: s.readLog })) ∧
    (servedByte s.unserved a.toNat = false → (s.inputs = .memWrite a b :: rest ∨ s.inputs = .memRead a :: rest) →
      step s = .refused .unservedMemory)

/-- A command past its checks is refused if the platform does not serve as plain RAM some byte of the footprint of a
surface it works on, touched or not (R67, R69): of its slot, of both slots of BLIT, of SUBVIEW's parent. NOP and the flag
commands work on no surface. So is one that would touch such a byte. That State lists the spans the platform does not
serve is the model's choice (assumption 8). -/
def Obligations.UnservedMemoryIsRefused : Prop :=
  ∀ (s : State) (i : Instr) (p : Plan) (a : Nat), planOf i s.operands = .ok p → servedByte s.unserved a = false →
    (∀ sl ∈ usedSlots i, (s.operands.desc sl).covers a = true →
      (i ≠ .rotcw sl ∧ i ≠ .rotccw sl ∧ i ≠ .flipx sl ∧ i ≠ .flipy sl) → exec i s = .refused .unservedMemory) ∧
    (a ∈ p.bytes → exec i s = .refused .unservedMemory)

/-- POLL ends (one entry of the model's queue, assumption 16): if the platform serves the surfaces of the command in
flight, then two steps later the command has completed, POLL is over, and the STATUS it returned shows BUSY = 0 and
DONE = 1. -/
def Obligations.PollEndsAfterTheCommand : Prop :=
  ∀ (s : State) (f : Flight) (rest : List Input), s.flight = some f → s.inputs = .poll :: rest →
    (∀ p, f.plan = .ok p → ∀ d ∈ p.surfaces, s.serves d) →
    ∃ t, Sys2Proof.core.run 2 s = .next t ∧ t.inputs = rest ∧ t.busy = false ∧ t.done = true ∧
      t.readLog = t.statusWord :: s.readLog

/-- A STATUS write that clears DONE in the same step as a completion: the completion wins, DONE ends at 1 (R231). The clear
of ERR in that step is left free (assumption 6), so nothing is said of it. -/
def Obligations.CompletionWinsOverStatusClear : Prop :=
  ∀ (s t : State) (v : Word) (rest : List Input), s.busy = true → s.inputs = .statusAtCompletion v :: rest →
    step s = .next t → t.done = true ∧ t.busy = false ∧ t.wign = (s.wign && !v.getLsbD 3)

/-! ### The asserted reset input, and the other runs of one row -/

/-- Over every step, while the reset input is asserted every register holds its reset value and no command is in flight.
That host operations reach the unit while the input is asserted, and are without effect, is the model's reading of R250
(assumption 18). -/
def Obligations.StepKeepsTheAssertedReset : Prop :=
  ∀ s t : State, s.resetHolds → step s = .next t → t.resetHolds

/-- While the reset input is asserted: a host write of any register has no effect, and once every register holds its reset
value a read of one returns that value. That such operations reach the unit at all is the model's choice (assumption
18). -/
def Obligations.AssertedResetHoldsTheRegisters : Prop :=
  ∀ (s : State) (g : Reg) (v : Word) (rest : List Input), s.resetHeld = true →
    (s.inputs = .regWrite g.offset 4 v :: rest → step s = .next { s with inputs := rest }) ∧
    (s.resetHolds → s.inputs = .regRead g.offset 4 :: rest →
      step s = .next { s with inputs := rest, readLog := (if g = .id then 0x47500001 else 0) :: s.readLog })

/-- The other runs of R181 that lie in one physical row: HLINEW with RAW = 1 or AXES_SWAP = 0, and VLINE and VLINEH with
RAW = 0 and AXES_SWAP = 1. One `write_run` over the unclipped columns leaves the very memory the command leaves. -/
def Obligations.OtherRunsEqualTheirRunForm : Prop :=
  ∀ (s : State) (sl : Slot) (raw : Bool) (k : Kernel), let d := s.operands.desc sl
    let r := s.operands
    let runForm := fun x0 y0 x1 y1 : Int =>
      let p := mapPoint d raw x0 y0
      let q := mapPoint d raw x1 y1
      let lo := max (min p.1 q.1) d.xmin.toNat
      let hi := min (max p.1 q.1) d.xmax.toNat
      let start := addressOf d.base.toNat d.stride.toNat d.bitoff.toNat lo.toNat p.2.toNat k.bpp
      if (d.ymin.toNat : Int) ≤ p.2 ∧ p.2 ≤ d.ymax.toNat ∧ lo ≤ hi then
        writeRun s.mem start.1 start.2 (hi - lo + 1).toNat r.color.toNat k.bpp d.endian
      else s.mem
    s.mem.wf = true → checkSurface d = .ok k → s.serves d →
    ((raw = true ∨ d.axesSwap = false) → 0 < count r.arg2 →
      exec (.hlinew sl raw) s = .next (s.succeededWith
        (runForm (coord r.arg0) (coord r.arg1) (coord r.arg0 + count r.arg2 - 1) (coord r.arg1)))) ∧
    (raw = false → d.axesSwap = true → coord r.arg1 ≤ coord r.arg2 →
      exec (.vline sl raw) s = .next (s.succeededWith
        (runForm (coord r.arg0) (coord r.arg1) (coord r.arg0) (coord r.arg2)))) ∧
    (raw = false → d.axesSwap = true → 0 < count r.arg2 →
      exec (.vlineh sl raw) s = .next (s.succeededWith
        (runForm (coord r.arg0) (coord r.arg1) (coord r.arg0) (coord r.arg1 + count r.arg2 - 1))))
end

