-- ==== Sys2Proof/Laws/State.lean ====
section
/-! SUPPORT. One lemma per field per update of the state, so that no later proof unfolds a record update. -/

namespace Sys2Proof.Machine

/-! ### `State.complete` -/

@[simp] theorem State.complete_irqEn (s : State) (c : ErrCode) : (s.complete c).irqEn = s.irqEn := rfl
@[simp] theorem State.complete_done (s : State) (c : ErrCode) : (s.complete c).done = true := rfl
@[simp] theorem State.complete_err (s : State) (c : ErrCode) : (s.complete c).err = (s.err || decide (c ≠ .ok)) := rfl
@[simp] theorem State.complete_wign (s : State) (c : ErrCode) : (s.complete c).wign = s.wign := rfl
@[simp] theorem State.complete_errcode (s : State) (c : ErrCode) : (s.complete c).errcode = c := rfl
@[simp] theorem State.complete_regs (s : State) (c : ErrCode) : (s.complete c).regs = s.regs := rfl
@[simp] theorem State.complete_result (s : State) (c : ErrCode) : (s.complete c).result = s.result := rfl
@[simp] theorem State.complete_flight (s : State) (c : ErrCode) : (s.complete c).flight = none := rfl
@[simp] theorem State.complete_resetHeld (s : State) (c : ErrCode) : (s.complete c).resetHeld = s.resetHeld := rfl
@[simp] theorem State.complete_mem (s : State) (c : ErrCode) : (s.complete c).mem = s.mem := rfl
@[simp] theorem State.complete_unserved (s : State) (c : ErrCode) : (s.complete c).unserved = s.unserved := rfl
@[simp] theorem State.complete_inputs (s : State) (c : ErrCode) : (s.complete c).inputs = s.inputs := rfl
@[simp] theorem State.complete_readLog (s : State) (c : ErrCode) : (s.complete c).readLog = s.readLog := rfl
@[simp] theorem State.complete_choices (s : State) (c : ErrCode) : (s.complete c).choices = s.choices := rfl

/-! ### `State.issue` -/

@[simp] theorem State.issue_irqEn (s : State) (cw : Word) : (s.issue cw).irqEn = s.irqEn := rfl
@[simp] theorem State.issue_done (s : State) (cw : Word) : (s.issue cw).done = false := rfl
@[simp] theorem State.issue_err (s : State) (cw : Word) : (s.issue cw).err = s.err := rfl
@[simp] theorem State.issue_wign (s : State) (cw : Word) : (s.issue cw).wign = s.wign := rfl
@[simp] theorem State.issue_errcode (s : State) (cw : Word) : (s.issue cw).errcode = s.errcode := rfl
@[simp] theorem State.issue_regs (s : State) (cw : Word) : (s.issue cw).regs = s.regs := rfl
@[simp] theorem State.issue_result (s : State) (cw : Word) : (s.issue cw).result = s.result := rfl
@[simp] theorem State.issue_flight (s : State) (cw : Word) : (s.issue cw).flight = some { word := cw, regs := s.regs } := rfl
@[simp] theorem State.issue_resetHeld (s : State) (cw : Word) : (s.issue cw).resetHeld = s.resetHeld := rfl
@[simp] theorem State.issue_mem (s : State) (cw : Word) : (s.issue cw).mem = s.mem := rfl
@[simp] theorem State.issue_unserved (s : State) (cw : Word) : (s.issue cw).unserved = s.unserved := rfl
@[simp] theorem State.issue_inputs (s : State) (cw : Word) : (s.issue cw).inputs = s.inputs := rfl
@[simp] theorem State.issue_readLog (s : State) (cw : Word) : (s.issue cw).readLog = s.readLog := rfl
@[simp] theorem State.issue_choices (s : State) (cw : Word) : (s.issue cw).choices = s.choices := rfl

/-! ### `State.withMem` -/

@[simp] theorem State.withMem_irqEn (s : State) (m : Memory) : (s.withMem m).irqEn = s.irqEn := rfl
@[simp] theorem State.withMem_done (s : State) (m : Memory) : (s.withMem m).done = s.done := rfl
@[simp] theorem State.withMem_err (s : State) (m : Memory) : (s.withMem m).err = s.err := rfl
@[simp] theorem State.withMem_wign (s : State) (m : Memory) : (s.withMem m).wign = s.wign := rfl
@[simp] theorem State.withMem_errcode (s : State) (m : Memory) : (s.withMem m).errcode = s.errcode := rfl
@[simp] theorem State.withMem_regs (s : State) (m : Memory) : (s.withMem m).regs = s.regs := rfl
@[simp] theorem State.withMem_result (s : State) (m : Memory) : (s.withMem m).result = s.result := rfl
@[simp] theorem State.withMem_flight (s : State) (m : Memory) : (s.withMem m).flight = s.flight := rfl
@[simp] theorem State.withMem_resetHeld (s : State) (m : Memory) : (s.withMem m).resetHeld = s.resetHeld := rfl
@[simp] theorem State.withMem_mem (s : State) (m : Memory) : (s.withMem m).mem = m := rfl
@[simp] theorem State.withMem_unserved (s : State) (m : Memory) : (s.withMem m).unserved = s.unserved := rfl
@[simp] theorem State.withMem_inputs (s : State) (m : Memory) : (s.withMem m).inputs = s.inputs := rfl
@[simp] theorem State.withMem_readLog (s : State) (m : Memory) : (s.withMem m).readLog = s.readLog := rfl
@[simp] theorem State.withMem_choices (s : State) (m : Memory) : (s.withMem m).choices = s.choices := rfl

/-! ### `State.clearStatus` -/

@[simp] theorem State.clearStatus_irqEn (s : State) (v : Word) : (s.clearStatus v).irqEn = s.irqEn := rfl
@[simp] theorem State.clearStatus_done (s : State) (v : Word) : (s.clearStatus v).done = (s.done && !v.getLsbD 1) := rfl
@[simp] theorem State.clearStatus_err (s : State) (v : Word) : (s.clearStatus v).err = (s.err && !v.getLsbD 2) := rfl
@[simp] theorem State.clearStatus_wign (s : State) (v : Word) : (s.clearStatus v).wign = (s.wign && !v.getLsbD 3) := rfl
@[simp] theorem State.clearStatus_errcode (s : State) (v : Word) : (s.clearStatus v).errcode = s.errcode := rfl
@[simp] theorem State.clearStatus_regs (s : State) (v : Word) : (s.clearStatus v).regs = s.regs := rfl
@[simp] theorem State.clearStatus_result (s : State) (v : Word) : (s.clearStatus v).result = s.result := rfl
@[simp] theorem State.clearStatus_flight (s : State) (v : Word) : (s.clearStatus v).flight = s.flight := rfl
@[simp] theorem State.clearStatus_resetHeld (s : State) (v : Word) : (s.clearStatus v).resetHeld = s.resetHeld := rfl
@[simp] theorem State.clearStatus_mem (s : State) (v : Word) : (s.clearStatus v).mem = s.mem := rfl
@[simp] theorem State.clearStatus_unserved (s : State) (v : Word) : (s.clearStatus v).unserved = s.unserved := rfl
@[simp] theorem State.clearStatus_inputs (s : State) (v : Word) : (s.clearStatus v).inputs = s.inputs := rfl
@[simp] theorem State.clearStatus_readLog (s : State) (v : Word) : (s.clearStatus v).readLog = s.readLog := rfl
@[simp] theorem State.clearStatus_choices (s : State) (v : Word) : (s.clearStatus v).choices = s.choices := rfl

/-! ### `State.ignoredWrite` -/

@[simp] theorem State.ignoredWrite_irqEn (s : State) : (s.ignoredWrite).irqEn = s.irqEn := rfl
@[simp] theorem State.ignoredWrite_done (s : State) : (s.ignoredWrite).done = s.done := rfl
@[simp] theorem State.ignoredWrite_err (s : State) : (s.ignoredWrite).err = s.err := rfl
@[simp] theorem State.ignoredWrite_wign (s : State) : (s.ignoredWrite).wign = true := rfl
@[simp] theorem State.ignoredWrite_errcode (s : State) : (s.ignoredWrite).errcode = s.errcode := rfl
@[simp] theorem State.ignoredWrite_regs (s : State) : (s.ignoredWrite).regs = s.regs := rfl
@[simp] theorem State.ignoredWrite_result (s : State) : (s.ignoredWrite).result = s.result := rfl
@[simp] theorem State.ignoredWrite_flight (s : State) : (s.ignoredWrite).flight = s.flight := rfl
@[simp] theorem State.ignoredWrite_resetHeld (s : State) : (s.ignoredWrite).resetHeld = s.resetHeld := rfl
@[simp] theorem State.ignoredWrite_mem (s : State) : (s.ignoredWrite).mem = s.mem := rfl
@[simp] theorem State.ignoredWrite_unserved (s : State) : (s.ignoredWrite).unserved = s.unserved := rfl
@[simp] theorem State.ignoredWrite_inputs (s : State) : (s.ignoredWrite).inputs = s.inputs := rfl
@[simp] theorem State.ignoredWrite_readLog (s : State) : (s.ignoredWrite).readLog = s.readLog := rfl
@[simp] theorem State.ignoredWrite_choices (s : State) : (s.ignoredWrite).choices = s.choices := rfl

/-! ### `State.logRead` -/

@[simp] theorem State.logRead_irqEn (s : State) (v : Word) : (s.logRead v).irqEn = s.irqEn := rfl
@[simp] theorem State.logRead_done (s : State) (v : Word) : (s.logRead v).done = s.done := rfl
@[simp] theorem State.logRead_err (s : State) (v : Word) : (s.logRead v).err = s.err := rfl
@[simp] theorem State.logRead_wign (s : State) (v : Word) : (s.logRead v).wign = s.wign := rfl
@[simp] theorem State.logRead_errcode (s : State) (v : Word) : (s.logRead v).errcode = s.errcode := rfl
@[simp] theorem State.logRead_regs (s : State) (v : Word) : (s.logRead v).regs = s.regs := rfl
@[simp] theorem State.logRead_result (s : State) (v : Word) : (s.logRead v).result = s.result := rfl
@[simp] theorem State.logRead_flight (s : State) (v : Word) : (s.logRead v).flight = s.flight := rfl
@[simp] theorem State.logRead_resetHeld (s : State) (v : Word) : (s.logRead v).resetHeld = s.resetHeld := rfl
@[simp] theorem State.logRead_mem (s : State) (v : Word) : (s.logRead v).mem = s.mem := rfl
@[simp] theorem State.logRead_unserved (s : State) (v : Word) : (s.logRead v).unserved = s.unserved := rfl
@[simp] theorem State.logRead_inputs (s : State) (v : Word) : (s.logRead v).inputs = s.inputs := rfl
@[simp] theorem State.logRead_readLog (s : State) (v : Word) : (s.logRead v).readLog = v :: s.readLog := rfl
@[simp] theorem State.logRead_choices (s : State) (v : Word) : (s.logRead v).choices = s.choices := rfl

/-! ### `State.resetRegisters` -/

@[simp] theorem State.resetRegisters_irqEn (s : State) : (s.resetRegisters).irqEn = false := rfl
@[simp] theorem State.resetRegisters_done (s : State) : (s.resetRegisters).done = false := rfl
@[simp] theorem State.resetRegisters_err (s : State) : (s.resetRegisters).err = false := rfl
@[simp] theorem State.resetRegisters_wign (s : State) : (s.resetRegisters).wign = false := rfl
@[simp] theorem State.resetRegisters_errcode (s : State) : (s.resetRegisters).errcode = .ok := rfl
@[simp] theorem State.resetRegisters_regs (s : State) : (s.resetRegisters).regs = Regs.reset := rfl
@[simp] theorem State.resetRegisters_result (s : State) : (s.resetRegisters).result = 0 := rfl
@[simp] theorem State.resetRegisters_flight (s : State) : (s.resetRegisters).flight = none := rfl
@[simp] theorem State.resetRegisters_resetHeld (s : State) : (s.resetRegisters).resetHeld = s.resetHeld := rfl
@[simp] theorem State.resetRegisters_mem (s : State) : (s.resetRegisters).mem = s.mem := rfl
@[simp] theorem State.resetRegisters_unserved (s : State) : (s.resetRegisters).unserved = s.unserved := rfl
@[simp] theorem State.resetRegisters_inputs (s : State) : (s.resetRegisters).inputs = s.inputs := rfl
@[simp] theorem State.resetRegisters_readLog (s : State) : (s.resetRegisters).readLog = s.readLog := rfl
@[simp] theorem State.resetRegisters_choices (s : State) : (s.resetRegisters).choices = s.choices := rfl

/-! ### `State.holdReset` -/

@[simp] theorem State.holdReset_irqEn (s : State) : (s.holdReset).irqEn = s.irqEn := rfl
@[simp] theorem State.holdReset_done (s : State) : (s.holdReset).done = s.done := rfl
@[simp] theorem State.holdReset_err (s : State) : (s.holdReset).err = s.err := rfl
@[simp] theorem State.holdReset_wign (s : State) : (s.holdReset).wign = s.wign := rfl
@[simp] theorem State.holdReset_errcode (s : State) : (s.holdReset).errcode = s.errcode := rfl
@[simp] theorem State.holdReset_regs (s : State) : (s.holdReset).regs = s.regs := rfl
@[simp] theorem State.holdReset_result (s : State) : (s.holdReset).result = s.result := rfl
@[simp] theorem State.holdReset_flight (s : State) : (s.holdReset).flight = s.flight := rfl
@[simp] theorem State.holdReset_resetHeld (s : State) : (s.holdReset).resetHeld = true := rfl
@[simp] theorem State.holdReset_mem (s : State) : (s.holdReset).mem = s.mem := rfl
@[simp] theorem State.holdReset_unserved (s : State) : (s.holdReset).unserved = s.unserved := rfl
@[simp] theorem State.holdReset_inputs (s : State) : (s.holdReset).inputs = s.inputs := rfl
@[simp] theorem State.holdReset_readLog (s : State) : (s.holdReset).readLog = s.readLog := rfl
@[simp] theorem State.holdReset_choices (s : State) : (s.holdReset).choices = s.choices := rfl

/-! ### `State.clashStatus` -/

@[simp] theorem State.clashStatus_irqEn (s : State) (v : Word) : (s.clashStatus v).irqEn = s.irqEn := rfl
@[simp] theorem State.clashStatus_done (s : State) (v : Word) : (s.clashStatus v).done = s.done := rfl
@[simp] theorem State.clashStatus_err (s : State) (v : Word) : (s.clashStatus v).err = (if v.getLsbD 2 then decide (s.errcode ≠ .ok) && Config.errOnClash s.choices else s.err) := rfl
@[simp] theorem State.clashStatus_wign (s : State) (v : Word) : (s.clashStatus v).wign = (s.wign && !v.getLsbD 3) := rfl
@[simp] theorem State.clashStatus_errcode (s : State) (v : Word) : (s.clashStatus v).errcode = s.errcode := rfl
@[simp] theorem State.clashStatus_regs (s : State) (v : Word) : (s.clashStatus v).regs = s.regs := rfl
@[simp] theorem State.clashStatus_result (s : State) (v : Word) : (s.clashStatus v).result = s.result := rfl
@[simp] theorem State.clashStatus_flight (s : State) (v : Word) : (s.clashStatus v).flight = s.flight := rfl
@[simp] theorem State.clashStatus_resetHeld (s : State) (v : Word) : (s.clashStatus v).resetHeld = s.resetHeld := rfl
@[simp] theorem State.clashStatus_mem (s : State) (v : Word) : (s.clashStatus v).mem = s.mem := rfl
@[simp] theorem State.clashStatus_unserved (s : State) (v : Word) : (s.clashStatus v).unserved = s.unserved := rfl
@[simp] theorem State.clashStatus_inputs (s : State) (v : Word) : (s.clashStatus v).inputs = s.inputs := rfl
@[simp] theorem State.clashStatus_readLog (s : State) (v : Word) : (s.clashStatus v).readLog = s.readLog := rfl
@[simp] theorem State.clashStatus_choices (s : State) (v : Word) : (s.clashStatus v).choices = s.choices + 1 := rfl

/-! ### `State.commit` -/

@[simp] theorem State.commit_irqEn (s : State) (w : RegWrite) : (s.commit w).irqEn = s.irqEn := by
  rcases w with _ | (_ | _) | _ | _ <;> rfl
@[simp] theorem State.commit_done (s : State) (w : RegWrite) : (s.commit w).done = s.done := by
  rcases w with _ | (_ | _) | _ | _ <;> rfl
@[simp] theorem State.commit_err (s : State) (w : RegWrite) : (s.commit w).err = s.err := by
  rcases w with _ | (_ | _) | _ | _ <;> rfl
@[simp] theorem State.commit_wign (s : State) (w : RegWrite) : (s.commit w).wign = s.wign := by
  rcases w with _ | (_ | _) | _ | _ <;> rfl
@[simp] theorem State.commit_errcode (s : State) (w : RegWrite) : (s.commit w).errcode = s.errcode := by
  rcases w with _ | (_ | _) | _ | _ <;> rfl
@[simp] theorem State.commit_flight (s : State) (w : RegWrite) : (s.commit w).flight = s.flight := by
  rcases w with _ | (_ | _) | _ | _ <;> rfl
@[simp] theorem State.commit_resetHeld (s : State) (w : RegWrite) : (s.commit w).resetHeld = s.resetHeld := by
  rcases w with _ | (_ | _) | _ | _ <;> rfl
@[simp] theorem State.commit_mem (s : State) (w : RegWrite) : (s.commit w).mem = s.mem := by
  rcases w with _ | (_ | _) | _ | _ <;> rfl
@[simp] theorem State.commit_unserved (s : State) (w : RegWrite) : (s.commit w).unserved = s.unserved := by
  rcases w with _ | (_ | _) | _ | _ <;> rfl
@[simp] theorem State.commit_inputs (s : State) (w : RegWrite) : (s.commit w).inputs = s.inputs := by
  rcases w with _ | (_ | _) | _ | _ <;> rfl
@[simp] theorem State.commit_readLog (s : State) (w : RegWrite) : (s.commit w).readLog = s.readLog := by
  rcases w with _ | (_ | _) | _ | _ <;> rfl
@[simp] theorem State.commit_choices (s : State) (w : RegWrite) : (s.commit w).choices = s.choices := by
  rcases w with _ | (_ | _) | _ | _ <;> rfl

@[simp] theorem State.commit_none (s : State) : s.commit .none = s := rfl
@[simp] theorem State.commit_result_none_result (s : State) : (s.commit (.result none)).result = 0 := rfl
@[simp] theorem State.commit_result_some_result (s : State) (p : Place) :
    (s.commit (.result (some p))).result = BitVec.ofNat 32 (readPlace s.mem p) := rfl
@[simp] theorem State.commit_result_regs (s : State) (p : Option Place) : (s.commit (.result p)).regs = s.regs := by
  cases p <;> rfl
@[simp] theorem State.commit_orient_regs (s : State) (sl : Slot) (a x y : Bool) :
    (s.commit (.orient sl a x y)).regs = s.regs.setDesc sl ((s.regs.desc sl).setOrient a x y) := rfl
@[simp] theorem State.commit_orient_result (s : State) (sl : Slot) (a x y : Bool) :
    (s.commit (.orient sl a x y)).result = s.result := rfl
@[simp] theorem State.commit_slot_regs (s : State) (sl : Slot) (d : Desc) :
    (s.commit (.slot sl d)).regs = s.regs.setDesc sl d := rfl
@[simp] theorem State.commit_slot_result (s : State) (sl : Slot) (d : Desc) :
    (s.commit (.slot sl d)).result = s.result := rfl

/-! ### Derived views -/

theorem State.busy_eq (s : State) : s.busy = s.flight.isSome := rfl
theorem State.releaseReset_held {s : State} (h : s.resetHeld = true) :
    s.releaseReset = { s.resetRegisters with resetHeld := false } := if_pos h
theorem State.releaseReset_idle {s : State} (h : s.resetHeld = false) : s.releaseReset = s := by
  simp [State.releaseReset, h]
@[simp] theorem State.complete_busy (s : State) (c : ErrCode) : (s.complete c).busy = false := rfl
@[simp] theorem State.issue_busy (s : State) (cw : Word) : (s.issue cw).busy = true := rfl
theorem State.operands_of_flight {s : State} {f : Flight} (h : s.flight = some f) : s.operands = f.regs := by
  simp [State.operands, h]
theorem State.operands_of_idle {s : State} (h : s.flight = none) : s.operands = s.regs := by
  simp [State.operands, h]

/-! ### Slots and operand registers -/

@[simp] theorem Slots.get_set_self (d : Slots) (s : Slot) (v : Desc) : (d.set s v).get s = v := by cases s <;> rfl
theorem Slots.get_set_ne (d : Slots) {s t : Slot} (v : Desc) (h : t ≠ s) : (d.set s v).get t = d.get t := by
  cases s <;> cases t <;> first | rfl | exact absurd rfl h
@[simp] theorem Slots.set_get_self (d : Slots) (s : Slot) : d.set s (d.get s) = d := by cases s <;> rfl
@[simp] theorem Slots.set_set_self (d : Slots) (s : Slot) (v w : Desc) : (d.set s v).set s w = d.set s w := by
  cases s <;> rfl
@[simp] theorem Regs.desc_setDesc_self (r : Regs) (s : Slot) (v : Desc) : (r.setDesc s v).desc s = v :=
  Slots.get_set_self r.slots s v
theorem Regs.desc_setDesc_ne (r : Regs) {s t : Slot} (v : Desc) (h : t ≠ s) : (r.setDesc s v).desc t = r.desc t :=
  Slots.get_set_ne r.slots v h
@[simp] theorem Regs.setDesc_desc_self (r : Regs) (s : Slot) : r.setDesc s (r.desc s) = r := by
  cases r; simp [Regs.setDesc, Regs.desc]
@[simp] theorem Regs.setDesc_setDesc_self (r : Regs) (s : Slot) (v w : Desc) :
    (r.setDesc s v).setDesc s w = r.setDesc s w := by simp [Regs.setDesc]
@[simp] theorem Regs.setDesc_arg0 (r : Regs) (s : Slot) (v : Desc) : (r.setDesc s v).arg0 = r.arg0 := rfl
@[simp] theorem Regs.setDesc_arg1 (r : Regs) (s : Slot) (v : Desc) : (r.setDesc s v).arg1 = r.arg1 := rfl
@[simp] theorem Regs.setDesc_arg2 (r : Regs) (s : Slot) (v : Desc) : (r.setDesc s v).arg2 = r.arg2 := rfl
@[simp] theorem Regs.setDesc_arg3 (r : Regs) (s : Slot) (v : Desc) : (r.setDesc s v).arg3 = r.arg3 := rfl
@[simp] theorem Regs.setDesc_arg4 (r : Regs) (s : Slot) (v : Desc) : (r.setDesc s v).arg4 = r.arg4 := rfl
@[simp] theorem Regs.setDesc_arg5 (r : Regs) (s : Slot) (v : Desc) : (r.setDesc s v).arg5 = r.arg5 := rfl
@[simp] theorem Regs.setDesc_color (r : Regs) (s : Slot) (v : Desc) : (r.setDesc s v).color = r.color := rfl

end Sys2Proof.Machine
end

