-- ==== Sys2Proof/Laws/Memory.lean ====
section
/-! SUPPORT. Memory: read after write, the canonical form and the address space kept by every write, little-endian
multi-byte accesses. -/

namespace Sys2Proof.Machine

theorem Memory.wfFrom_cons {low c : Nat} {b : Byte} {m : Memory} :
    Memory.wfFrom low ((c, b) :: m) = true ↔ low ≤ c ∧ b ≠ Memory.blank ∧ Memory.wfFrom (c + 1) m = true := by
  simp [Memory.wfFrom, and_assoc]

theorem Memory.wfFrom_mono {lo hi : Nat} (h : lo ≤ hi) : ∀ {m : Memory}, Memory.wfFrom hi m = true →
    Memory.wfFrom lo m = true
  | [], _ => rfl
  | (c, b) :: m, hm => by
    rw [Memory.wfFrom_cons] at hm ⊢
    exact ⟨h.trans hm.1, hm.2⟩

theorem Memory.wf_of_wfFrom {low : Nat} {m : Memory} (h : Memory.wfFrom low m = true) : m.wf = true :=
  Memory.wfFrom_mono (Nat.zero_le low) h

@[simp] theorem Memory.read_nil (a : Nat) : Memory.read [] a = Memory.blank := rfl

theorem Memory.read_cons (c : Nat) (b : Byte) (m : Memory) (a : Nat) :
    Memory.read ((c, b) :: m) a = if c = a then b else Memory.read m a := rfl

/-- Below the first listed address, memory is blank. -/
theorem Memory.read_below : ∀ {m : Memory} {low a : Nat}, Memory.wfFrom low m = true → a < low →
    m.read a = Memory.blank
  | [], _, _, _, _ => rfl
  | (c, b) :: m, low, a, h, ha => by
    rw [Memory.wfFrom_cons] at h
    rw [Memory.read_cons, if_neg (by omega)]
    exact Memory.read_below h.2.2 (by omega)

theorem Memory.read_write_from : ∀ {m : Memory} {low : Nat} (a : Nat) (b : Byte) (x : Nat),
    Memory.wfFrom low m = true → (m.write a b).read x = if x = a then b else m.read x
  | [], low, a, b, x, _ => by
    by_cases hb : b = Memory.blank
    · simp [Memory.write, hb]
    · simp only [Memory.write, if_neg hb, Memory.read_cons, Memory.read_nil, eq_comm]
  | (c, y) :: m, low, a, b, x, h => by
    rw [Memory.wfFrom_cons] at h
    have below : ∀ {z : Nat}, z ≤ c → Memory.read m z = Memory.blank := fun hz => Memory.read_below h.2.2 (by omega)
    have ih : Memory.read (Memory.write m a b) x = if x = a then b else Memory.read m x :=
      Memory.read_write_from a b x h.2.2
    simp only [Memory.write]
    by_cases h1 : a < c
    · rw [if_pos h1]
      by_cases hb : b = Memory.blank
      · rw [if_pos hb]
        by_cases hx : x = a
        · rw [if_pos hx, Memory.read_cons, if_neg (by omega), below (by omega), hb]
        · rw [if_neg hx]
      · rw [if_neg hb, Memory.read_cons]
        simp only [eq_comm]
    · rw [if_neg h1]
      by_cases h2 : a = c
      · rw [if_pos h2]
        by_cases hb : b = Memory.blank
        · rw [if_pos hb]
          by_cases hx : x = a
          · rw [if_pos hx, below (by omega), hb]
          · rw [if_neg hx, Memory.read_cons, if_neg (by omega)]
        · rw [if_neg hb, Memory.read_cons]
          by_cases hx : x = a
          · rw [if_pos hx, if_pos hx.symm]
          · rw [if_neg hx, if_neg (Ne.symm hx), Memory.read_cons, if_neg (by omega)]
      · rw [if_neg h2, Memory.read_cons, ih]
        by_cases hx : x = a
        · rw [if_pos hx, if_neg (by omega), if_pos hx]
        · rw [if_neg hx, if_neg hx, Memory.read_cons]

/-- Read after write (R9, R42). -/
theorem Memory.read_write {m : Memory} (h : m.wf = true) (a : Nat) (b : Byte) (x : Nat) :
    (m.write a b).read x = if x = a then b else m.read x := Memory.read_write_from a b x h

theorem Memory.write_wfFrom : ∀ {m : Memory} {low : Nat} (a : Nat) (b : Byte), low ≤ a →
    Memory.wfFrom low m = true → Memory.wfFrom low (m.write a b) = true
  | [], low, a, b, ha, _ => by
    by_cases hb : b = Memory.blank
    · simp [Memory.write, hb, Memory.wfFrom]
    · simp [Memory.write, hb, Memory.wfFrom, ha]
  | (c, y) :: m, low, a, b, ha, h => by
    rw [Memory.wfFrom_cons] at h
    simp only [Memory.write]
    split_ifs with h1 hb h2 hb
    · exact Memory.wfFrom_cons.2 h
    · exact Memory.wfFrom_cons.2 ⟨ha, hb, Memory.wfFrom_cons.2 ⟨by omega, h.2⟩⟩
    · exact Memory.wfFrom_mono (by omega) h.2.2
    · exact Memory.wfFrom_cons.2 ⟨ha, hb, h2 ▸ h.2.2⟩
    · exact Memory.wfFrom_cons.2 ⟨h.1, h.2.1, Memory.write_wfFrom a b (by omega) h.2.2⟩

/-- A write keeps the canonical form. -/
theorem Memory.write_wf {m : Memory} (h : m.wf = true) (a : Nat) (b : Byte) : (m.write a b).wf = true :=
  Memory.write_wfFrom a b (Nat.zero_le a) h

theorem Memory.inSpace_cons {c : Nat} {y : Byte} {m : Memory} :
    Memory.inSpace ((c, y) :: m) = true ↔ c < addressSpace ∧ Memory.inSpace m = true := by
  simp [Memory.inSpace]

theorem Memory.write_inSpace : ∀ {m : Memory} {a : Nat} (b : Byte), a < addressSpace → m.inSpace = true →
    (m.write a b).inSpace = true
  | [], a, b, ha, _ => by
    by_cases hb : b = Memory.blank
    · simp [Memory.write, hb, Memory.inSpace]
    · simp [Memory.write, hb, Memory.inSpace, ha]
  | (c, y) :: m, a, b, ha, h => by
    have h' := Memory.inSpace_cons.1 h
    have ih := Memory.write_inSpace b ha h'.2
    simp only [Memory.write]
    split_ifs
    · exact h
    · exact Memory.inSpace_cons.2 ⟨ha, h⟩
    · exact h'.2
    · exact Memory.inSpace_cons.2 ⟨ha, h'.2⟩
    · exact Memory.inSpace_cons.2 ⟨h'.1, ih⟩

/-- Two memories in canonical form that read alike are equal. -/
theorem Memory.ext_of_wfFrom : ∀ {m n : Memory} {low : Nat}, Memory.wfFrom low m = true → Memory.wfFrom low n = true →
    (∀ a, m.read a = n.read a) → m = n
  | [], [], _, _, _, _ => rfl
  | [], (c, y) :: n, low, _, hn, h => by
    have hn' := Memory.wfFrom_cons.1 hn
    have hc := h c
    simp only [Memory.read_cons, if_true, Memory.read_nil] at hc
    exact absurd hc.symm hn'.2.1
  | (c, y) :: m, [], low, hm, _, h => by
    have hm' := Memory.wfFrom_cons.1 hm
    have hc := h c
    simp only [Memory.read_cons, if_true, Memory.read_nil] at hc
    exact absurd hc hm'.2.1
  | (c, y) :: m, (d, z) :: n, low, hm, hn, h => by
    have hm' := Memory.wfFrom_cons.1 hm
    have hn' := Memory.wfFrom_cons.1 hn
    have hcd : c = d := by
      rcases Nat.lt_trichotomy c d with hlt | heq | hgt
      · have hc := h c
        rw [Memory.read_cons, if_pos rfl, Memory.read_cons, if_neg (by omega),
          Memory.read_below hn'.2.2 (by omega)] at hc
        exact absurd hc hm'.2.1
      · exact heq
      · have hd := h d
        rw [Memory.read_cons, if_neg (by omega), Memory.read_cons, if_pos rfl,
          Memory.read_below hm'.2.2 (by omega)] at hd
        exact absurd hd.symm hn'.2.1
    subst hcd
    have hyz : y = z := by simpa [Memory.read_cons] using h c
    subst hyz
    have ht : m = n := Memory.ext_of_wfFrom hm'.2.2 hn'.2.2 (fun a => by
      by_cases hac : c = a
      · subst hac
        rw [Memory.read_below hm'.2.2 (by omega), Memory.read_below hn'.2.2 (by omega)]
      · simpa [Memory.read_cons, hac] using h a)
    rw [ht]

theorem Memory.ext {m n : Memory} (hm : m.wf = true) (hn : n.wf = true) (h : ∀ a, m.read a = n.read a) : m = n :=
  Memory.ext_of_wfFrom hm hn h

/-- Cells taken as memory are in canonical form, and inside the address space. -/
theorem Memory.ofCells_wf (cells : List Host.Cell) : (Memory.ofCells cells).wf = true ∧
    (Memory.ofCells cells).inSpace = true := by
  have h : ∀ (cells : List Host.Cell) (m : Memory), m.wf = true ∧ m.inSpace = true →
      (cells.foldl (fun m c => if c.1 < addressSpace then Memory.write m c.1 c.2 else m) m).wf = true ∧
      (cells.foldl (fun m c => if c.1 < addressSpace then Memory.write m c.1 c.2 else m) m).inSpace = true := by
    intro cells
    induction cells with
    | nil => exact fun _ h => h
    | cons c cs ih =>
      intro m hm
      refine ih _ ?_
      beta_reduce
      split_ifs with hc
      · exact ⟨Memory.write_wf hm.1 _ _, Memory.write_inSpace _ hc hm.2⟩
      · exact hm
  exact h cells [] ⟨rfl, rfl⟩

/-- Memory at power-up is in canonical form, whatever it holds (R42). -/
theorem Memory.powerUp_wf : Memory.powerUp.wf = true ∧ Memory.powerUp.inSpace = true := Memory.ofCells_wf _

/-! ### Multi-byte accesses -/

theorem memWrite_wf : ∀ (n : Nat) {m : Memory} (a v : Nat), m.wf = true → (memWrite m a n v).wf = true
  | 0, _, _, _, h => h
  | n + 1, _, a, v, h => memWrite_wf n (a + 1) (v / 256) (Memory.write_wf h a (BitVec.ofNat 8 v))

theorem memWrite_inSpace : ∀ (n : Nat) {m : Memory} (a v : Nat), a + n ≤ addressSpace → m.inSpace = true →
    (memWrite m a n v).inSpace = true
  | 0, _, _, _, _, h => h
  | n + 1, _, a, v, ha, h =>
    memWrite_inSpace n (a + 1) (v / 256) (by omega) (Memory.write_inSpace _ (by omega) h)

/-- The bytes outside a multi-byte write keep their values. -/
theorem read_memWrite_outside : ∀ (n : Nat) {m : Memory} (a v x : Nat), m.wf = true → (x < a ∨ a + n ≤ x) →
    (memWrite m a n v).read x = m.read x
  | 0, _, _, _, _, _, _ => rfl
  | n + 1, m, a, v, x, h, hx => by
    rw [memWrite, read_memWrite_outside n (a + 1) (v / 256) x (Memory.write_wf h _ _) (by omega),
      Memory.read_write h, if_neg (by omega)]

theorem memRead_congr : ∀ (n : Nat) {m m' : Memory} (a : Nat), (∀ x, a ≤ x → x < a + n → m.read x = m'.read x) →
    memRead m a n = memRead m' a n
  | 0, _, _, _, _ => rfl
  | n + 1, m, m', a, h => by
    rw [memRead, memRead, h a (by omega) (by omega), memRead_congr n (a + 1) (fun x h1 h2 => h x (by omega) (by omega))]

/-- A multi-byte read after the write of the same bytes gives the value's low bytes (R61). -/
theorem memRead_memWrite : ∀ (n : Nat) {m : Memory} (a v : Nat), m.wf = true →
    memRead (memWrite m a n v) a n = v % 256 ^ n
  | 0, _, _, v, _ => by simp [memRead, Nat.mod_one]
  | n + 1, m, a, v, h => by
    rw [memWrite, memRead, memRead_memWrite n (a + 1) (v / 256) (Memory.write_wf h _ _),
      read_memWrite_outside n (a + 1) (v / 256) a (Memory.write_wf h _ _) (by omega), Memory.read_write h, if_pos rfl,
      BitVec.toNat_ofNat, show 256 ^ (n + 1) = 2 ^ 8 * 256 ^ n by rw [pow_succ']; norm_num, Nat.mod_mul]
    norm_num

theorem memRead_lt : ∀ (n : Nat) (m : Memory) (a : Nat), memRead m a n < 256 ^ n
  | 0, _, _ => by simp [memRead]
  | n + 1, m, a => by
    have h1 := memRead_lt n m (a + 1)
    have h2 := (m.read a).isLt
    rw [memRead, pow_succ']
    omega

end Sys2Proof.Machine
end

