-- ==== Sys2Proof/Laws/Kernels.lean ====
section
/-! SUPPORT. The bit-addressing kernels: what a pixel write does to each bit of memory, what a pixel read depends on, and
that a read after a write of the same place returns the low bits written. -/

namespace Sys2Proof.Machine

theorem Kernel.bpp_cases (k : Kernel) :
    k.bpp = 1 ∨ k.bpp = 2 ∨ k.bpp = 4 ∨ k.bpp = 8 ∨ k.bpp = 16 ∨ k.bpp = 24 ∨ k.bpp = 32 := by
  cases k <;> simp [Kernel.bpp]

theorem Kernel.bpp_pos (k : Kernel) : 0 < k.bpp := by cases k <;> simp [Kernel.bpp]

theorem Kernel.bpp_le (k : Kernel) : k.bpp ≤ 32 := by cases k <;> simp [Kernel.bpp]

theorem Kernel.wide_bytes {k : Kernel} (h : 8 ≤ k.bpp) : 8 * (k.bpp / 8) = k.bpp := by
  rcases k.bpp_cases with e | e | e | e | e | e | e <;> rw [e] at h ⊢ <;> omega

/-- Kernel selection answers the kernel of that width, and of that ENDIAN below 8 bits (R130). -/
theorem dispatch_ok {w : Nat} {e : Bool} {k : Kernel} (h : dispatch w e = .ok k) :
    k.bpp = w ∧ (w < 8 → k.bigEndian = e) := by
  unfold dispatch at h
  split at h <;> first | (cases e <;> cases h <;> exact ⟨rfl, fun _ => rfl⟩) | (cases h; exact ⟨rfl, by omega⟩)

theorem bppRom_cases {t : BitVec 5} {w : Nat} (h : bppRom t = some w) :
    w = 1 ∨ w = 2 ∨ w = 4 ∨ w = 8 ∨ w = 16 ∨ w = 24 ∨ w = 32 := by
  have hw : w ∈ bppTable := List.mem_of_getElem? h
  revert hw
  simp only [bppTable, List.mem_cons, List.not_mem_nil, or_false]
  omega

/-- The ROM has an entry exactly for the defined types 0..17 (R100, R101). -/
theorem bppRom_isSome (t : BitVec 5) : (bppRom t).isSome = true ↔ t.toNat ≤ 17 := by
  simp [bppRom, bppTable]
  omega

/-! ### Bits of memory -/

theorem pixelMask_getLsbD (w sh j : Nat) :
    (pixelMask w sh).getLsbD j = (decide (j < 8) && decide (sh ≤ j) && decide (j < sh + w)) := by
  rw [pixelMask, BitVec.getLsbD_ofNat, Nat.testBit_mul_two_pow, Nat.testBit_two_pow_sub_one, Bool.and_assoc]
  by_cases h : sh ≤ j
  · simp only [h, decide_true, Bool.true_and]
    congr 2
    simp only [eq_iff_iff]
    omega
  · simp [h]

theorem pixelValue_getLsbD (v w sh j : Nat) :
    (BitVec.ofNat 8 (v % 2 ^ w * 2 ^ sh)).getLsbD j
      = (decide (j < 8) && decide (sh ≤ j) && decide (j < sh + w) && v.testBit (j - sh)) := by
  rw [BitVec.getLsbD_ofNat, Nat.testBit_mul_two_pow, Nat.testBit_mod_two_pow]
  by_cases h : sh ≤ j
  · have : decide (j - sh < w) = decide (j < sh + w) := by
      simp only [decide_eq_decide]
      omega
    simp [h, this, Bool.and_assoc]
  · simp [h]

theorem byteWrite_getLsbD (b : Byte) (v w sh j : Nat) (hj : j < 8) :
    ((b &&& ~~~(pixelMask w sh)) ||| BitVec.ofNat 8 (v % 2 ^ w * 2 ^ sh)).getLsbD j
      = if sh ≤ j ∧ j < sh + w then v.testBit (j - sh) else b.getLsbD j := by
  rw [BitVec.getLsbD_or, BitVec.getLsbD_and, BitVec.getLsbD_not, pixelMask_getLsbD, pixelValue_getLsbD]
  by_cases h1 : sh ≤ j <;> by_cases h2 : j < sh + w <;> simp [h1, h2, hj]

theorem byteRead_testBit (b : Byte) (w sh i : Nat) :
    (b.toNat / 2 ^ sh % 2 ^ w).testBit i = (decide (i < w) && b.getLsbD (sh + i)) := by
  rw [Nat.testBit_mod_two_pow, Nat.testBit_div_two_pow, BitVec.getLsbD, Nat.add_comm]

/-- The byte at offset `i` of a little-endian write. -/
theorem read_memWrite_inside : ∀ (n : Nat) {m : Memory} (a v i : Nat), m.wf = true → i < n →
    (memWrite m a n v).read (a + i) = BitVec.ofNat 8 (v / 256 ^ i)
  | 0, _, _, _, _, _, hi => absurd hi (by omega)
  | n + 1, m, a, v, 0, h, _ => by
    rw [memWrite, read_memWrite_outside n (a + 1) (v / 256) (a + 0) (Memory.write_wf h _ _) (by omega),
      Memory.read_write h, if_pos (by omega)]
    simp
  | n + 1, m, a, v, i + 1, h, hi => by
    have := read_memWrite_inside n (a + 1) (v / 256) i (Memory.write_wf h a (BitVec.ofNat 8 v)) (by omega)
    rw [memWrite, show a + (i + 1) = a + 1 + i by omega, this, Nat.div_div_eq_div_mul, pow_succ']

theorem writePlace_wf {m : Memory} (h : m.wf = true) (p : Place) (v : Nat) : (writePlace m p v).wf = true := by
  unfold writePlace writeRaw
  split
  · exact memWrite_wf _ _ _ h
  · exact Memory.write_wf h _ _

/-- A pixel write changes exactly the bits its place has (R107). -/
theorem writePlace_other_bit {m : Memory} (h : m.wf = true) (p : Place) (v a j : Nat) (hb : ¬ p.hasBit a j) :
    ((writePlace m p v).read a).getLsbD j = (m.read a).getLsbD j := by
  by_cases hj : j < 8
  · unfold writePlace writeRaw
    unfold Place.hasBit at hb
    by_cases hw : 8 ≤ p.kernel.bpp
    · rw [if_pos hw] at hb ⊢
      rw [read_memWrite_outside _ _ _ _ h (by omega)]
    · rw [if_neg hw] at hb ⊢
      simp only []
      rw [Memory.read_write h]
      by_cases ha : a = p.addr
      · subst ha
        rw [if_pos rfl, byteWrite_getLsbD _ _ _ _ _ hj, if_neg (by omega)]
      · rw [if_neg ha]
  · rw [BitVec.getLsbD_of_ge _ _ (by omega), BitVec.getLsbD_of_ge _ _ (by omega)]

/-- The bytes outside a place keep their values (R66, R107). -/
theorem writePlace_outside {m : Memory} (h : m.wf = true) (p : Place) (v a : Nat) (ha : a ∉ p.bytes) :
    (writePlace m p v).read a = m.read a := by
  apply BitVec.eq_of_getLsbD_eq
  intro j hj
  apply writePlace_other_bit h
  intro hb
  apply ha
  unfold Place.hasBit at hb
  unfold Place.bytes
  rw [List.mem_map]
  split at hb
  · exact ⟨a - p.addr, by rw [if_pos ‹_›, List.mem_range]; omega, by omega⟩
  · exact ⟨0, by rw [if_neg ‹_›, List.mem_range]; omega, by omega⟩

/-- A pixel read depends only on the bits its place has (R106). -/
theorem readPlace_congr {m m' : Memory} (p : Place)
    (h : ∀ a j, p.hasBit a j → (m.read a).getLsbD j = (m'.read a).getLsbD j) : readPlace m p = readPlace m' p := by
  unfold readPlace readRaw
  unfold Place.hasBit at h
  by_cases hw : 8 ≤ p.kernel.bpp
  · rw [if_pos hw, if_pos hw]
    apply memRead_congr
    intro x h1 h2
    apply BitVec.eq_of_getLsbD_eq
    intro j hj
    exact h x j (by rw [if_pos hw]; exact ⟨h1, h2, hj⟩)
  · rw [if_neg hw, if_neg hw]
    apply Nat.eq_of_testBit_eq
    intro i
    simp only [memRead, Nat.mul_zero, Nat.add_zero]
    rw [byteRead_testBit, byteRead_testBit]
    by_cases hi : i < p.kernel.bpp
    · rw [h p.addr _ (by rw [if_neg hw]; omega)]
    · simp [hi]

theorem readPlace_congr_bytes {m m' : Memory} (p : Place) (h : ∀ a ∈ p.bytes, m.read a = m'.read a) :
    readPlace m p = readPlace m' p := by
  apply readPlace_congr
  intro a j hb
  rw [h a]
  unfold Place.hasBit at hb
  unfold Place.bytes
  rw [List.mem_map]
  split at hb
  · exact ⟨a - p.addr, by rw [if_pos ‹_›, List.mem_range]; omega, by omega⟩
  · exact ⟨0, by rw [if_neg ‹_›, List.mem_range]; omega, by omega⟩

theorem physShift_fits {p : Place} (h : p.aligned) (hw : p.kernel.bpp < 8) :
    physShift p.pos p.kernel.bpp p.kernel.bigEndian + p.kernel.bpp ≤ 8 := by
  obtain ⟨h1, h2⟩ := h
  have h2 := h2 hw
  unfold physShift
  rcases p.kernel.bpp_cases with e | e | e | e | e | e | e <;> rw [e] at h2 hw ⊢ <;> split <;> omega

/-- The round trip (R110): a read after a write of the same aligned place returns the low bits of the value. -/
theorem readPlace_writePlace {m : Memory} (h : m.wf = true) {p : Place} (hp : p.aligned) (v : Nat) :
    readPlace (writePlace m p v) p = v % 2 ^ p.kernel.bpp := by
  unfold readPlace writePlace readRaw writeRaw
  by_cases hw : 8 ≤ p.kernel.bpp
  · rw [if_pos hw, if_pos hw, memRead_memWrite _ _ _ h]
    have : 256 ^ (p.kernel.bpp / 8) = 2 ^ p.kernel.bpp := by
      rw [show 256 = 2 ^ 8 by norm_num, ← pow_mul, Kernel.wide_bytes hw]
    rw [this, Nat.mod_mod]
  · rw [if_neg hw, if_neg hw]
    have hf := physShift_fits hp (by omega)
    apply Nat.eq_of_testBit_eq
    intro i
    simp only [memRead, Nat.mul_zero, Nat.add_zero]
    rw [byteRead_testBit, Nat.testBit_mod_two_pow, Memory.read_write h, if_pos rfl]
    by_cases hi : i < p.kernel.bpp
    · rw [byteWrite_getLsbD _ _ _ _ _ (by omega), if_pos (by omega), Nat.add_sub_cancel_left]
    · simp [hi]

/-- A pixel write leaves alone every place that shares no bit with it. -/
theorem readPlace_writePlace_of_disjoint {m : Memory} (h : m.wf = true) {p q : Place} (v : Nat)
    (hd : ∀ a j, p.hasBit a j → ¬ q.hasBit a j) : readPlace (writePlace m p v) q = readPlace m q :=
  readPlace_congr q (fun a j hq => writePlace_other_bit h p v a j (fun hp => hd a j hp hq))

theorem readPlace_lt (m : Memory) (p : Place) : readPlace m p < 2 ^ p.kernel.bpp := by
  unfold readPlace readRaw
  by_cases hw : 8 ≤ p.kernel.bpp
  · rw [if_pos hw]
    have := memRead_lt (p.kernel.bpp / 8) m p.addr
    rwa [show 256 = 2 ^ 8 by norm_num, ← pow_mul, Kernel.wide_bytes hw] at this
  · rw [if_neg hw]
    exact Nat.mod_lt _ (by positivity)

theorem mem_bytes_iff (p : Place) (a : Nat) :
    a ∈ p.bytes ↔ p.addr ≤ a ∧ a < p.addr + (if 8 ≤ p.kernel.bpp then p.kernel.bpp / 8 else 1) := by
  unfold Place.bytes
  rw [List.mem_map]
  constructor
  · rintro ⟨i, hi, rfl⟩
    rw [List.mem_range] at hi
    omega
  · intro h
    exact ⟨a - p.addr, by rw [List.mem_range]; omega, by omega⟩

theorem writePlace_inSpace {m : Memory} {p : Place} (v : Nat) (hp : ∀ a ∈ p.bytes, a < addressSpace)
    (h : m.inSpace = true) : (writePlace m p v).inSpace = true := by
  unfold writePlace writeRaw
  by_cases hw : 8 ≤ p.kernel.bpp
  · rw [if_pos hw]
    have hb := Kernel.wide_bytes hw
    have := hp (p.addr + p.kernel.bpp / 8 - 1) (by rw [mem_bytes_iff, if_pos hw]; omega)
    exact memWrite_inSpace _ _ _ (by omega) h
  · rw [if_neg hw]
    exact Memory.write_inSpace _ (hp p.addr (by rw [mem_bytes_iff, if_neg hw]; omega)) h

end Sys2Proof.Machine
end

