-- ==== Sys2Proof/Laws/Surface.lean ====
section
/-! SUPPORT. Legal surfaces: what the slot check says, where the pixels of a legal surface stand, the orientation
transform and the clip. -/

namespace Sys2Proof.Machine

/-- What a slot that passes the check satisfies (R140). -/
structure LegalFacts (d : Desc) (k : Kernel) : Prop where
  rom : bppRom d.ptype = some k.bpp
  endian : k.bpp < 8 → k.bigEndian = d.endian
  width_pos : 0 < d.width.toNat
  height_pos : 0 < d.height.toNat
  wide_bitoff : 8 ≤ k.bpp → d.bitoff.toNat = 0
  narrow_bitoff : k.bpp < 8 → d.bitoff.toNat % k.bpp = 0
  stride_ge : d.rowBytes k.bpp ≤ d.stride.toNat
  extent : d.base.toNat + d.stride.toNat * (d.height.toNat - 1) + d.rowBytes k.bpp ≤ addressSpace
  clip : d.clipOk = true

/-- The slot check answers a kernel exactly when every condition of R140 holds and the kernel is the dispatched one. -/
theorem checkSurface_ok_iff {d : Desc} {k : Kernel} :
    checkSurface d = .ok k ↔ dispatch k.bpp d.endian = .ok k ∧ LegalFacts d k := by
  constructor
  · intro h
    unfold checkSurface at h
    split at h
    · cases h
    · rename_i w hw
      split at h
      · cases h
      · rename_i k' hk
        have hd := dispatch_ok hk
        split_ifs at h with h1 h2 h3 h4 h5 h6
        cases h
        obtain ⟨rfl, he⟩ := hd
        exact ⟨hk, ⟨hw, he, by omega, by omega, by omega, by omega, by omega, by omega, by simpa using h6⟩⟩
  · rintro ⟨hk, f⟩
    have h1 := f.width_pos
    have h2 := f.height_pos
    have h3 := f.stride_ge
    have h4 := f.extent
    unfold checkSurface
    rw [f.rom]
    simp only [hk]
    rw [if_neg (by omega), if_neg (by rintro ⟨a, b⟩; exact b (f.wide_bitoff a)),
      if_neg (by rintro ⟨a, b⟩; exact b (f.narrow_bitoff a)), if_neg (by omega), if_neg (by omega),
      if_neg (by simp [f.clip])]

theorem checkSurface_ok {d : Desc} {k : Kernel} (h : checkSurface d = .ok k) : LegalFacts d k :=
  (checkSurface_ok_iff.1 h).2

/-- The errors a slot check can end with; UNIMPL_FORMAT is not among them (R132, R140). -/
theorem checkSurface_error {d : Desc} {c : ErrCode} (h : checkSurface d = .error c) :
    c = .badPtype ∨ c = .badDesc ∨ c = .badClip := by
  unfold checkSurface at h
  split at h
  · cases h
    simp
  · rename_i w hw
    obtain ⟨k, hk⟩ : ∃ k, dispatch w d.endian = .ok k := by
      rcases bppRom_cases hw with rfl | rfl | rfl | rfl | rfl | rfl | rfl <;> exact ⟨_, rfl⟩
    rw [hk] at h
    simp only at h
    split_ifs at h <;> cases h <;> simp

theorem legal_iff {d : Desc} : d.legal = true ↔ ∃ k, checkSurface d = .ok k := by
  unfold Desc.legal
  cases h : checkSurface d <;> simp

theorem Desc.clipOk_iff (d : Desc) : d.clipOk = true ↔
    d.xmin.toNat ≤ d.xmax.toNat ∧ d.xmax.toNat < d.width.toNat ∧ d.ymin.toNat ≤ d.ymax.toNat
      ∧ d.ymax.toNat < d.height.toNat := by
  simp [Desc.clipOk, and_assoc]

/-- The clip test as inequalities (R170). -/
theorem clipped_eq_false_iff (d : Desc) (p : Int × Int) : clipped d p = false ↔
    (d.xmin.toNat : Int) ≤ p.1 ∧ p.1 ≤ d.xmax.toNat ∧ (d.ymin.toNat : Int) ≤ p.2 ∧ p.2 ≤ d.ymax.toNat := by
  simp [clipped, and_assoc]

/-- On a legal slot an unclipped coordinate is a pixel of the surface (R170). -/
theorem LegalFacts.holds_of_unclipped {d : Desc} {k : Kernel} (f : LegalFacts d k) {p : Int × Int}
    (h : clipped d p = false) : d.holds p := by
  have hc := (Desc.clipOk_iff d).1 f.clip
  have hp := (clipped_eq_false_iff d p).1 h
  exact ⟨by omega, by omega, by omega, by omega⟩

/-! ### Where the pixels stand -/

@[simp] theorem placeOf_addr (d : Desc) (k : Kernel) (px py : Nat) : (placeOf d k px py).addr
    = d.base.toNat + py * d.stride.toNat + (px * k.bpp + d.bitoff.toNat) / 8 := rfl
@[simp] theorem placeOf_pos (d : Desc) (k : Kernel) (px py : Nat) :
    (placeOf d k px py).pos = (px * k.bpp + d.bitoff.toNat) % 8 := rfl
@[simp] theorem placeOf_kernel (d : Desc) (k : Kernel) (px py : Nat) : (placeOf d k px py).kernel = k := rfl

theorem mem_bytes_placeOf (d : Desc) (k : Kernel) (px py a : Nat) : a ∈ (placeOf d k px py).bytes ↔
    d.base.toNat + py * d.stride.toNat + (px * k.bpp + d.bitoff.toNat) / 8 ≤ a
      ∧ a < d.base.toNat + py * d.stride.toNat + (px * k.bpp + d.bitoff.toNat) / 8
        + (if 8 ≤ k.bpp then k.bpp / 8 else 1) := mem_bytes_iff (placeOf d k px py) a

theorem hasBit_placeOf (d : Desc) (k : Kernel) (px py a j : Nat) : (placeOf d k px py).hasBit a j ↔
    if 8 ≤ k.bpp then
      d.base.toNat + py * d.stride.toNat + (px * k.bpp + d.bitoff.toNat) / 8 ≤ a
        ∧ a < d.base.toNat + py * d.stride.toNat + (px * k.bpp + d.bitoff.toNat) / 8 + k.bpp / 8 ∧ j < 8
    else a = d.base.toNat + py * d.stride.toNat + (px * k.bpp + d.bitoff.toNat) / 8
      ∧ physShift ((px * k.bpp + d.bitoff.toNat) % 8) k.bpp k.bigEndian ≤ j
      ∧ j < physShift ((px * k.bpp + d.bitoff.toNat) % 8) k.bpp k.bigEndian + k.bpp := Iff.rfl

/-- A pixel of a legal surface has its bits whole (R141). -/
theorem LegalFacts.aligned {d : Desc} {k : Kernel} (f : LegalFacts d k) (px py : Nat) : (placeOf d k px py).aligned := by
  refine ⟨by simp only [placeOf_pos]; omega, fun hw => ?_⟩
  have hb := f.narrow_bitoff hw
  simp only [placeOf_kernel, placeOf_pos] at *
  rcases k.bpp_cases with e | e | e | e | e | e | e <;> rw [e] at hb hw ⊢ <;> omega

/-- The bytes of a pixel lie inside its row (R65). -/
theorem LegalFacts.pixel_in_row {d : Desc} {k : Kernel} (f : LegalFacts d k) {px : Nat} (hx : px < d.width.toNat) :
    (px * k.bpp + d.bitoff.toNat) / 8 + (if 8 ≤ k.bpp then k.bpp / 8 else 1) ≤ d.rowBytes k.bpp := by
  have hm : (px + 1) * k.bpp ≤ d.width.toNat * k.bpp := Nat.mul_le_mul_right _ hx
  rw [Nat.add_mul, Nat.one_mul] at hm
  unfold Desc.rowBytes ceil8
  have h1 := f.wide_bitoff
  have h2 := f.narrow_bitoff
  generalize px * k.bpp = q at *
  generalize d.width.toNat * k.bpp = r at *
  rcases k.bpp_cases with e | e | e | e | e | e | e <;> rw [e] at hm h1 h2 ⊢ <;> simp at h1 h2 ⊢ <;> omega

theorem Desc.row_le {d : Desc} {py : Nat} (hy : py < d.height.toNat) :
    py * d.stride.toNat ≤ d.stride.toNat * (d.height.toNat - 1) := by
  rw [Nat.mul_comm]
  exact Nat.mul_le_mul_left _ (by omega)

/-- Every byte of a pixel of a legal surface is in the address space (R65). -/
theorem LegalFacts.bytes_inSpace {d : Desc} {k : Kernel} (f : LegalFacts d k) {px py : Nat}
    (hx : px < d.width.toNat) (hy : py < d.height.toNat) : ∀ a ∈ (placeOf d k px py).bytes, a < addressSpace := by
  intro a ha
  rw [mem_bytes_placeOf] at ha
  have h1 := f.pixel_in_row hx
  have h2 := Desc.row_le hy
  have h3 := f.extent
  omega

theorem covers_iff {d : Desc} {w : Nat} (h : bppRom d.ptype = some w) (a : Nat) : d.covers a = true ↔
    ∃ r < d.height.toNat, d.base.toNat + r * d.stride.toNat ≤ a
      ∧ a < d.base.toNat + r * d.stride.toNat + d.rowBytes w := by
  simp [Desc.covers, h]

/-- Every byte of a pixel of a legal surface is in its footprint (R65). -/
theorem LegalFacts.bytes_covered {d : Desc} {k : Kernel} (f : LegalFacts d k) {px py : Nat}
    (hx : px < d.width.toNat) (hy : py < d.height.toNat) : ∀ a ∈ (placeOf d k px py).bytes, d.covers a = true := by
  intro a ha
  rw [mem_bytes_placeOf] at ha
  have h1 := f.pixel_in_row hx
  exact (covers_iff f.rom a).2 ⟨py, hy, by omega, by omega⟩

/-- A surface meets a span exactly when a byte of its footprint is in it. -/
theorem Desc.meets_iff (d : Desc) (span : Nat × Nat) :
    d.meets span = true ↔ ∃ a, d.covers a = true ∧ span.1 ≤ a ∧ a ≤ span.2 := by
  unfold Desc.meets Desc.covers
  cases bppRom d.ptype with
  | none => simp
  | some w =>
    simp only [List.any_eq_true, List.mem_range, decide_eq_true_eq, Bool.and_eq_true]
    constructor
    · rintro ⟨r, hr, h⟩
      exact ⟨max (d.base.toNat + r * d.stride.toNat) span.1, ⟨r, hr, by omega, by omega⟩, by omega, by omega⟩
    · rintro ⟨a, ⟨r, hr, h1, h2⟩, h3, h4⟩
      exact ⟨r, hr, by omega⟩

/-- The test of a whole surface is the duty of R69, byte by byte. -/
theorem servesSurface_iff (s : State) (d : Desc) : servesSurface s.unserved d = true ↔ s.serves d := by
  unfold servesSurface State.serves servedByte
  simp only [List.all_eq_true, Bool.not_eq_true', Bool.or_eq_true, decide_eq_true_eq]
  constructor
  · intro h a ha span hs
    by_contra hc
    have := (Desc.meets_iff d span).2 ⟨a, ha, by omega, by omega⟩
    simp [h span hs] at this
  · intro h span hs
    by_contra hc
    obtain ⟨a, ha, h1, h2⟩ := (Desc.meets_iff d span).1 (by simpa using hc)
    have := h a ha span hs
    omega

theorem mem_bytes_of_hasBit {p : Place} {a j : Nat} (h : p.hasBit a j) : a ∈ p.bytes := by
  rw [mem_bytes_iff]
  unfold Place.hasBit at h
  split at h
  · rw [if_pos ‹_›]
    omega
  · rw [if_neg ‹_›]
    omega

/-- Bytes of different rows of a legal surface differ, since the stride is at least the row's bytes. -/
theorem LegalFacts.rows_disjoint {d : Desc} {k : Kernel} (f : LegalFacts d k) {px py qx qy a : Nat}
    (hx : px < d.width.toNat) (hqx : qx < d.width.toNat) (hp : a ∈ (placeOf d k px py).bytes)
    (hq : a ∈ (placeOf d k qx qy).bytes) : py = qy := by
  rw [mem_bytes_placeOf] at hp hq
  have h1 := f.pixel_in_row hx
  have h2 := f.pixel_in_row hqx
  have h3 := f.stride_ge
  rcases Nat.lt_trichotomy py qy with h | h | h
  · have : (py + 1) * d.stride.toNat ≤ qy * d.stride.toNat := Nat.mul_le_mul_right _ h
    rw [Nat.add_mul, Nat.one_mul] at this
    omega
  · exact h
  · have : (qy + 1) * d.stride.toNat ≤ py * d.stride.toNat := Nat.mul_le_mul_right _ h
    rw [Nat.add_mul, Nat.one_mul] at this
    omega

/-- No two distinct pixels of a legal surface share a bit (R141). -/
theorem LegalFacts.bits_disjoint {d : Desc} {k : Kernel} (f : LegalFacts d k) {px py qx qy : Nat}
    (hx : px < d.width.toNat) (hqx : qx < d.width.toNat) (hne : (px, py) ≠ (qx, qy)) (a j : Nat)
    (hp : (placeOf d k px py).hasBit a j) : ¬ (placeOf d k qx qy).hasBit a j := by
  intro hq
  have hy := f.rows_disjoint hx hqx (mem_bytes_of_hasBit hp) (mem_bytes_of_hasBit hq)
  subst hy
  apply hne
  have h1 := f.wide_bitoff
  have h2 := f.narrow_bitoff
  rw [hasBit_placeOf] at hp hq
  unfold physShift at hp hq
  have : px = qx := by
    cases hbe : k.bigEndian <;> rcases k.bpp_cases with e | e | e | e | e | e | e <;>
      rw [e, hbe] at hp hq <;> rw [e] at h1 h2 <;> simp at hp hq h1 h2 <;> omega
  rw [this]

/-! ### Orientation (R150, R151) -/

theorem xform_holds_iff (d : Desc) (x y : Int) : d.holds (xform d x y) ↔ d.holdsLogical (x, y) := by
  unfold Desc.holds Desc.holdsLogical xform Desc.logicalWidth Desc.logicalHeight
  cases d.axesSwap <;> cases d.xSwap <;> cases d.ySwap <;> simp <;> omega

theorem xform_injective (d : Desc) {x y x' y' : Int} (h : xform d x y = xform d x' y') : x = x' ∧ y = y' := by
  unfold xform at h
  cases hx : d.xSwap <;> cases hy : d.ySwap <;> cases ha : d.axesSwap <;> simp [hx, hy, ha] at h <;> omega

/-- Every pixel of the surface is the image of a logical one (R151). -/
theorem xform_surjective (d : Desc) (p : Int × Int) : ∃ x y, xform d x y = p := by
  unfold xform
  obtain ⟨u, v⟩ := p
  refine ⟨if d.axesSwap then (if d.ySwap then (d.height.toNat : Int) - 1 - v else v)
      else (if d.xSwap then (d.width.toNat : Int) - 1 - u else u),
    if d.axesSwap then (if d.xSwap then (d.width.toNat : Int) - 1 - u else u)
      else (if d.ySwap then (d.height.toNat : Int) - 1 - v else v), ?_⟩
  cases d.axesSwap <;> cases d.xSwap <;> cases d.ySwap <;> simp

theorem mapPoint_raw (d : Desc) (x y : Int) : mapPoint d true x y = (x, y) := rfl
theorem mapPoint_logical (d : Desc) (x y : Int) : mapPoint d false x y = xform d x y := rfl

theorem mapPoint_injective (d : Desc) (raw : Bool) {x y x' y' : Int}
    (h : mapPoint d raw x y = mapPoint d raw x' y') : x = x' ∧ y = y' := by
  cases raw
  · exact xform_injective d h
  · simpa [mapPoint] using h

theorem mem_intRange {a b x : Int} : x ∈ intRange a b ↔ a ≤ x ∧ x ≤ b := by
  unfold intRange
  rw [List.mem_map]
  constructor
  · rintro ⟨i, hi, rfl⟩
    rw [List.mem_range] at hi
    omega
  · intro h
    exact ⟨(x - a).toNat, by rw [List.mem_range]; omega, by omega⟩

theorem intRange_nodup (a b : Int) : (intRange a b).Nodup := by
  unfold intRange
  exact List.Nodup.map (fun i j h => by simpa using h) List.nodup_range

end Sys2Proof.Machine
end

