-- ==== Sys2Proof/Laws/Command.lean ====
section
/-! SUPPORT. Commands: every meaning is the shared end of a command applied to its plan; what the shared end answers; where
the pixel accesses of a plan stand. -/

namespace Sys2Proof.Machine

/-- Every meaning is the shared end of a command on its plan (R221). -/
theorem exec_eq_finish (i : Instr) (s : State) : exec i s = s.finish (planOf i s.operands) := by
  cases i <;> rfl

/-- Everything the shared end of a command can do when it answers a next state (R222, R223). -/
theorem finish_next {s t : State} {r : Except ErrCode Plan} (h : s.finish r = .next t) :
    (∃ c, r = .error c ∧ t = s.complete c) ∨
    (∃ p, r = .ok p ∧ (∀ a ∈ p.bytes, a < addressSpace) ∧ (∀ d ∈ p.surfaces, s.serves d) ∧
      t = ((s.withMem (runWrites s.mem p.writes)).commit p.regWrite).complete .ok) := by
  unfold State.finish at h
  split at h
  · cases h
    exact .inl ⟨_, rfl, rfl⟩
  · split_ifs at h with h1 h2
    cases h
    rw [List.all_eq_true] at h2
    exact .inr ⟨_, rfl, by simpa using h1, fun d hd => (servesSurface_iff s d).1 (h2 d hd), rfl⟩

theorem finish_error (s : State) (c : ErrCode) : s.finish (.error c) = .next (s.complete c) := rfl

theorem finish_ok {s : State} {p : Plan} (h1 : ∀ a ∈ p.bytes, a < addressSpace) (h2 : ∀ d ∈ p.surfaces, s.serves d) :
    s.finish (.ok p) = .next (((s.withMem (runWrites s.mem p.writes)).commit p.regWrite).complete .ok) := by
  unfold State.finish
  simp only []
  rw [if_pos (by simpa using h1), if_pos (List.all_eq_true.2 (fun d hd => (servesSurface_iff s d).2 (h2 d hd)))]

theorem finish_unserved {s : State} {p : Plan} (h1 : ∀ a ∈ p.bytes, a < addressSpace) {d : Desc} (hd : d ∈ p.surfaces)
    (h2 : ¬ s.serves d) : s.finish (.ok p) = .refused .unservedMemory := by
  unfold State.finish
  simp only []
  rw [if_pos (by simpa using h1),
    if_neg (fun h => h2 ((servesSurface_iff s d).1 (List.all_eq_true.1 h d hd)))]

/-! ### Where the accesses of a plan stand -/

/-- A place that is a pixel of a legal slot. -/
def PixelOf (r : Regs) (sl : Slot) (p : Place) : Prop :=
  ∃ k px py, checkSurface (r.desc sl) = .ok k ∧ px < (r.desc sl).width.toNat ∧ py < (r.desc sl).height.toNat
    ∧ p = placeOf (r.desc sl) k px py

theorem PixelOf.inSpace {r : Regs} {sl : Slot} {p : Place} (h : PixelOf r sl p) : ∀ a ∈ p.bytes, a < addressSpace := by
  obtain ⟨k, px, py, hk, hx, hy, rfl⟩ := h
  exact (checkSurface_ok hk).bytes_inSpace hx hy

theorem PixelOf.covered {r : Regs} {sl : Slot} {p : Place} (h : PixelOf r sl p) :
    ∀ a ∈ p.bytes, (r.desc sl).covers a = true := by
  obtain ⟨k, px, py, hk, hx, hy, rfl⟩ := h
  exact (checkSurface_ok hk).bytes_covered hx hy

theorem PixelOf.aligned {r : Regs} {sl : Slot} {p : Place} (h : PixelOf r sl p) : p.aligned := by
  obtain ⟨k, px, py, hk, hx, hy, rfl⟩ := h
  exact (checkSurface_ok hk).aligned px py

theorem pixelOf_of_holds {r : Regs} {sl : Slot} {k : Kernel} (hk : checkSurface (r.desc sl) = .ok k) {p : Int × Int}
    (h : (r.desc sl).holds p) : PixelOf r sl (placeOf (r.desc sl) k p.1.toNat p.2.toNat) := by
  obtain ⟨h1, h2, h3, h4⟩ := h
  exact ⟨k, _, _, hk, by omega, by omega, rfl⟩

/-- A pixel write of a command on slot `dst` of the operands, copying from slot `src` if it copies. -/
def WriteOn (r : Regs) (src dst : Slot) (w : PixelWrite) : Prop :=
  (∃ p v, PixelOf r dst p ∧ w = .put p v) ∨
  (∃ p q, PixelOf r src p ∧ PixelOf r dst q ∧ w = .copy p q (r.desc src).ptype (r.desc dst).ptype)

theorem putAll_writeOn {r : Regs} {sl : Slot} {k : Kernel} (hk : checkSurface (r.desc sl) = .ok k) (v : Word)
    (pts : List (Int × Int)) : ∀ w ∈ putAll (r.desc sl) k v pts, WriteOn r sl sl w := by
  intro w hw
  unfold putAll at hw
  rw [List.mem_map] at hw
  obtain ⟨p, hp, rfl⟩ := hw
  rw [List.mem_filter] at hp
  exact .inl ⟨_, _, pixelOf_of_holds hk ((checkSurface_ok hk).holds_of_unclipped (by simpa using hp.2)), rfl⟩

theorem planRun_ok {dst : Slot} {raw : Bool} {r : Regs} {pts : List (Int × Int)} {p : Plan}
    (h : planRun dst raw r pts = .ok p) : ∃ k, checkSurface (r.desc dst) = .ok k ∧
      p = { surfaces := [r.desc dst],
            writes := putAll (r.desc dst) k r.color (pts.map (fun q => mapPoint (r.desc dst) raw q.1 q.2)),
            regWrite := .none } := by
  unfold planRun at h
  simp only [] at h
  split at h
  · cases h
  · cases h
    exact ⟨_, ‹_›, rfl⟩

theorem mapPoint_holds_of_bound {d : Desc} {raw : Bool} {x y : Int} (hx : 0 ≤ x) (hy : 0 ≤ y)
    (hw : x < d.boundWidth raw) (hh : y < d.boundHeight raw) : d.holds (mapPoint d raw x y) := by
  cases raw
  · exact (xform_holds_iff d x y).2 ⟨hx, hw, hy, hh⟩
  · exact ⟨hx, hw, hy, hh⟩

theorem mem_rectOffsets {cw ch : Int} {o : Int × Int} :
    o ∈ rectOffsets cw ch ↔ 0 ≤ o.1 ∧ o.1 < cw ∧ 0 ≤ o.2 ∧ o.2 < ch := by
  unfold rectOffsets
  simp only [List.mem_flatMap, List.mem_map, mem_intRange]
  constructor
  · rintro ⟨j, hj, i, hi, rfl⟩
    simp only []
    omega
  · intro h
    exact ⟨o.2, by omega, o.1, by omega, rfl⟩

/-- What a plan of BLIT is (R200). -/
theorem planBlit_ok {src dst : Slot} {raw : Bool} {r : Regs} {p : Plan} (h : planBlit src dst raw r = .ok p) :
    ∃ ks kt, checkSurface (r.desc src) = .ok ks ∧ checkSurface (r.desc dst) = .ok kt ∧
      (0 ≤ min (coord r.arg0) (coord r.arg2) ∧ 0 ≤ min (coord r.arg1) (coord r.arg3)
        ∧ max (coord r.arg0) (coord r.arg2) < (r.desc src).boundWidth raw
        ∧ max (coord r.arg1) (coord r.arg3) < (r.desc src).boundHeight raw) ∧
      (0 ≤ coord r.arg4 ∧ 0 ≤ coord r.arg5
        ∧ coord r.arg4 + (max (coord r.arg0) (coord r.arg2) - min (coord r.arg0) (coord r.arg2) + 1)
          ≤ (r.desc dst).boundWidth raw
        ∧ coord r.arg5 + (max (coord r.arg1) (coord r.arg3) - min (coord r.arg1) (coord r.arg3) + 1)
          ≤ (r.desc dst).boundHeight raw) ∧
      p = { surfaces := [r.desc src, r.desc dst],
            writes := (rectOffsets (max (coord r.arg0) (coord r.arg2) - min (coord r.arg0) (coord r.arg2) + 1)
              (max (coord r.arg1) (coord r.arg3) - min (coord r.arg1) (coord r.arg3) + 1)).map (fun o =>
                copyPixel (r.desc src) (r.desc dst) ks kt
                  (mapPoint (r.desc src) raw (min (coord r.arg0) (coord r.arg2) + o.1)
                    (min (coord r.arg1) (coord r.arg3) + o.2))
                  (mapPoint (r.desc dst) raw (coord r.arg4 + o.1) (coord r.arg5 + o.2))),
            regWrite := .none } := by
  unfold planBlit at h
  simp only [] at h
  split at h
  · cases h
  · split at h
    · cases h
    · split_ifs at h with h1 h2
      cases h
      exact ⟨_, _, ‹_›, ‹_›, by omega, by omega, rfl⟩

theorem planBlit_writeOn {src dst : Slot} {raw : Bool} {r : Regs} {p : Plan} (h : planBlit src dst raw r = .ok p) :
    p.regWrite = .none ∧ ∀ w ∈ p.writes, WriteOn r src dst w := by
  obtain ⟨ks, kt, hks, hkt, hs, hd, rfl⟩ := planBlit_ok h
  refine ⟨rfl, fun w hw => ?_⟩
  simp only [List.mem_map] at hw
  obtain ⟨o, ho, rfl⟩ := hw
  rw [mem_rectOffsets] at ho
  exact .inr ⟨_, _, pixelOf_of_holds hks (mapPoint_holds_of_bound (by omega) (by omega) (by omega) (by omega)),
    pixelOf_of_holds hkt (mapPoint_holds_of_bound (by omega) (by omega) (by omega) (by omega)), rfl⟩

theorem planGetpix_ok {src : Slot} {raw : Bool} {r : Regs} {p : Plan} (h : planGetpix src raw r = .ok p) :
    ∃ k, checkSurface (r.desc src) = .ok k ∧ p =
      { surfaces := [r.desc src],
        writes := [],
        regWrite := .result (if clipped (r.desc src) (mapPoint (r.desc src) raw (coord r.arg0) (coord r.arg1)) then none
          else some (placeOf (r.desc src) k (mapPoint (r.desc src) raw (coord r.arg0) (coord r.arg1)).1.toNat
            (mapPoint (r.desc src) raw (coord r.arg0) (coord r.arg1)).2.toNat)) } := by
  unfold planGetpix at h
  simp only [] at h
  split at h
  · cases h
  · cases h
    exact ⟨_, ‹_›, rfl⟩

theorem planPutpix_ok {dst : Slot} {raw : Bool} {r : Regs} {p : Plan} (h : planPutpix dst raw r = .ok p) :
    ∃ k, checkSurface (r.desc dst) = .ok k ∧ p =
      { surfaces := [r.desc dst],
        writes := putAll (r.desc dst) k r.color [mapPoint (r.desc dst) raw (coord r.arg0) (coord r.arg1)],
        regWrite := .none } := by
  unfold planPutpix at h
  simp only [] at h
  split at h
  · cases h
  · cases h
    exact ⟨_, ‹_›, rfl⟩

theorem planLine_ok {dst : Slot} {raw : Bool} {r : Regs} {p : Plan} (h : planLine dst raw r = .ok p) :
    ∃ k, checkSurface (r.desc dst) = .ok k ∧ p =
      { surfaces := [r.desc dst],
        writes := putAll (r.desc dst) k r.color
          (bresenham (mapPoint (r.desc dst) raw (coord r.arg0) (coord r.arg1)).1
            (mapPoint (r.desc dst) raw (coord r.arg0) (coord r.arg1)).2
            (mapPoint (r.desc dst) raw (coord r.arg2) (coord r.arg3)).1
            (mapPoint (r.desc dst) raw (coord r.arg2) (coord r.arg3)).2),
        regWrite := .none } := by
  unfold planLine at h
  simp only [] at h
  split at h
  · cases h
  · cases h
    exact ⟨_, ‹_›, rfl⟩

theorem planSubview_ok {parent result : Slot} {r : Regs} {p : Plan} (h : planSubview parent result r = .ok p) :
    ∃ k, checkSurface (r.desc parent) = .ok k ∧
      (0 < count r.arg2 ∧ 0 < count r.arg3 ∧ 0 ≤ coord r.arg0 ∧ 0 ≤ coord r.arg1
        ∧ coord r.arg0 + count r.arg2 ≤ (r.desc parent).logicalWidth
        ∧ coord r.arg1 + count r.arg3 ≤ (r.desc parent).logicalHeight) ∧
      p = { surfaces := [r.desc parent], writes := [],
            regWrite := .slot result (subviewDesc (r.desc parent) k.bpp (xform (r.desc parent) (coord r.arg0) (coord r.arg1))
              (xform (r.desc parent) (coord r.arg0 + count r.arg2 - 1) (coord r.arg1 + count r.arg3 - 1))) } := by
  unfold planSubview at h
  simp only [] at h
  split at h
  · cases h
  · have : ∀ w : Word, 0 ≤ count w := fun w => Int.natCast_nonneg _
    have h2 := this r.arg2
    have h3 := this r.arg3
    split_ifs at h with h1 h2
    cases h
    exact ⟨_, ‹_›, by omega, rfl⟩

/-- Where the pixel writes of a plan stand: on the command's pixel slot, reading only its used slots (R29, R65). -/
theorem planOf_writes {i : Instr} {r : Regs} {p : Plan} (h : planOf i r = .ok p) : ∀ w ∈ p.writes,
    ∃ src dst, src ∈ usedSlots i ∧ dst ∈ usedSlots i ∧ pixelSlot i = some dst ∧ WriteOn r src dst w := by
  intro w hw
  have run : ∀ {dst raw pts}, planRun dst raw r pts = .ok p → WriteOn r dst dst w := by
    intro dst raw pts hr
    obtain ⟨k, hk, rfl⟩ := planRun_ok hr
    exact putAll_writeOn hk _ _ w hw
  cases i with
  | nop => cases h; cases hw
  | getpix src raw =>
    obtain ⟨k, hk, rfl⟩ := planGetpix_ok h
    cases hw
  | putpix dst raw =>
    obtain ⟨k, hk, rfl⟩ := planPutpix_ok h
    exact ⟨dst, dst, by simp [usedSlots], by simp [usedSlots], rfl, putAll_writeOn hk _ _ w hw⟩
  | line dst raw =>
    obtain ⟨k, hk, rfl⟩ := planLine_ok h
    exact ⟨dst, dst, by simp [usedSlots], by simp [usedSlots], rfl, putAll_writeOn hk _ _ w hw⟩
  | hline dst raw => exact ⟨dst, dst, by simp [usedSlots], by simp [usedSlots], rfl, run h⟩
  | hlinew dst raw => exact ⟨dst, dst, by simp [usedSlots], by simp [usedSlots], rfl, run h⟩
  | vline dst raw => exact ⟨dst, dst, by simp [usedSlots], by simp [usedSlots], rfl, run h⟩
  | vlineh dst raw => exact ⟨dst, dst, by simp [usedSlots], by simp [usedSlots], rfl, run h⟩
  | blit src dst raw =>
    exact ⟨src, dst, by simp [usedSlots], by simp [usedSlots], rfl, (planBlit_writeOn h).2 w hw⟩
  | subview parent result =>
    obtain ⟨k, hk, _, rfl⟩ := planSubview_ok h
    cases hw
  | rotcw sl => cases h; cases hw
  | rotccw sl => cases h; cases hw
  | flipx sl => cases h; cases hw
  | flipy sl => cases h; cases hw

/-- The pixel a plan reads for RESULT is one of GETPIX's slot. -/
theorem planOf_result {i : Instr} {r : Regs} {p : Plan} (h : planOf i r = .ok p) {q : Place}
    (hq : p.regWrite = .result (some q)) : ∃ src raw, i = .getpix src raw ∧ PixelOf r src q := by
  have run : ∀ {dst raw pts}, planRun dst raw r pts = .ok p → False := by
    intro dst raw pts hr
    obtain ⟨k, hk, rfl⟩ := planRun_ok hr
    cases hq
  cases i with
  | nop => cases h; cases hq
  | getpix src raw =>
    obtain ⟨k, hk, rfl⟩ := planGetpix_ok h
    refine ⟨src, raw, rfl, ?_⟩
    simp only [RegWrite.result.injEq] at hq
    split at hq
    · cases hq
    · rename_i hc
      cases hq
      exact pixelOf_of_holds hk ((checkSurface_ok hk).holds_of_unclipped (by simpa using hc))
  | putpix dst raw => obtain ⟨k, hk, rfl⟩ := planPutpix_ok h; cases hq
  | line dst raw => obtain ⟨k, hk, rfl⟩ := planLine_ok h; cases hq
  | hline dst raw => exact (run h).elim
  | hlinew dst raw => exact (run h).elim
  | vline dst raw => exact (run h).elim
  | vlineh dst raw => exact (run h).elim
  | blit src dst raw => rw [(planBlit_writeOn h).1] at hq; cases hq
  | subview parent result => obtain ⟨k, hk, _, rfl⟩ := planSubview_ok h; cases hq
  | rotcw sl => cases h; cases hq
  | rotccw sl => cases h; cases hq
  | flipx sl => cases h; cases hq
  | flipy sl => cases h; cases hq

/-- Every byte a plan touches is a byte of a pixel of one of the command's used slots, all of them legal (R65). -/
theorem planOf_bytes {i : Instr} {r : Regs} {p : Plan} (h : planOf i r = .ok p) : ∀ a ∈ p.bytes,
    ∃ sl ∈ usedSlots i, ∃ q, PixelOf r sl q ∧ a ∈ q.bytes := by
  intro a ha
  unfold Plan.bytes at ha
  rw [List.mem_append, List.mem_flatMap] at ha
  rcases ha with ⟨w, hw, ha⟩ | ha
  · obtain ⟨src, dst, hs, hd, _, ⟨q, v, hq, rfl⟩ | ⟨q, q', hq, hq', rfl⟩⟩ := planOf_writes h w hw
    · exact ⟨dst, hd, q, hq, ha⟩
    · simp only [PixelWrite.bytes, List.mem_append] at ha
      rcases ha with ha | ha
      · exact ⟨src, hs, q, hq, ha⟩
      · exact ⟨dst, hd, q', hq', ha⟩
  · match hr : p.regWrite, ha with
    | .result (some q), ha =>
      obtain ⟨src, raw, rfl, hq⟩ := planOf_result h hr
      exact ⟨src, by simp [usedSlots], q, hq, ha⟩

/-- Everything a command can raise past decode: the error of a slot it uses, or its own bounds error (R225). -/
theorem planOf_error {i : Instr} {r : Regs} {c : ErrCode} (h : planOf i r = .error c) :
    (∃ sl ∈ usedSlots i, checkSurface (r.desc sl) = .error c) ∨
    (c = .blitBounds ∧ ∃ src dst raw, i = .blit src dst raw) ∨
    (c = .subviewBounds ∧ ∃ parent result, i = .subview parent result) := by
  have run : ∀ dst raw pts, planRun dst raw r pts = .error c → checkSurface (r.desc dst) = .error c := by
    intro dst raw pts h
    unfold planRun at h
    simp only at h
    split at h
    · cases h
      assumption
    · cases h
  cases i
  all_goals try exact .inl ⟨_, List.mem_cons_self .., run _ _ _ h⟩
  all_goals simp only [planOf, planNop, planGetpix, planPutpix, planLine, planBlit, planSubview, planRotcw, planRotccw,
    planFlipx, planFlipy] at h
  all_goals first | cases h | split at h
  all_goals try (cases h; exact .inl ⟨_, List.mem_cons_self .., by assumption⟩)
  all_goals try cases h
  · split at h
    · cases h
      exact .inl ⟨_, List.mem_cons_of_mem _ (List.mem_cons_self ..), by assumption⟩
    · split_ifs at h <;> cases h <;> simp
  · split_ifs at h <;> cases h <;> simp

theorem planOf_inSpace {i : Instr} {r : Regs} {p : Plan} (h : planOf i r = .ok p) : ∀ a ∈ p.bytes, a < addressSpace := by
  intro a ha
  obtain ⟨sl, _, q, hq, haq⟩ := planOf_bytes h a ha
  exact hq.inSpace a haq

theorem planOf_covered {i : Instr} {r : Regs} {p : Plan} (h : planOf i r = .ok p) :
    ∀ a ∈ p.bytes, ∃ sl ∈ usedSlots i, (r.desc sl).covers a = true := by
  intro a ha
  obtain ⟨sl, hs, q, hq, haq⟩ := planOf_bytes h a ha
  exact ⟨sl, hs, hq.covered a haq⟩

/-- The surfaces a plan works on: those of the command's used slots; none for NOP and the flag commands, which take a
slot as a register and not as a surface (R160 to R163). -/
theorem planOf_surfaces {i : Instr} {r : Regs} {p : Plan} (h : planOf i r = .ok p) :
    p.surfaces = match i with
      | .nop | .rotcw _ | .rotccw _ | .flipx _ | .flipy _ => []
      | _ => (usedSlots i).map r.desc := by
  cases i with
  | nop | rotcw | rotccw | flipx | flipy => cases h; rfl
  | getpix => obtain ⟨k, _, rfl⟩ := planGetpix_ok h; rfl
  | putpix => obtain ⟨k, _, rfl⟩ := planPutpix_ok h; rfl
  | line => obtain ⟨k, _, rfl⟩ := planLine_ok h; rfl
  | hline | hlinew | vline | vlineh => obtain ⟨k, _, rfl⟩ := planRun_ok h; rfl
  | blit => obtain ⟨_, _, _, _, _, _, rfl⟩ := planBlit_ok h; rfl
  | subview => obtain ⟨k, _, _, rfl⟩ := planSubview_ok h; rfl

theorem planOf_surfaces_used {i : Instr} {r : Regs} {p : Plan} (h : planOf i r = .ok p) :
    ∀ d ∈ p.surfaces, ∃ sl ∈ usedSlots i, d = r.desc sl := by
  intro d hd
  rw [planOf_surfaces h] at hd
  split at hd
  all_goals first
    | cases hd
    | (obtain ⟨sl, hs, rfl⟩ := List.mem_map.1 hd
       exact ⟨sl, hs, rfl⟩)

/-- Every byte a plan touches is in the footprint of one of its surfaces (R65). -/
theorem planOf_bytes_on_surfaces {i : Instr} {r : Regs} {p : Plan} (h : planOf i r = .ok p) :
    ∀ a ∈ p.bytes, ∃ d ∈ p.surfaces, d.covers a = true := by
  intro a ha
  obtain ⟨sl, hs, hc⟩ := planOf_covered h a ha
  refine ⟨r.desc sl, ?_, hc⟩
  rw [planOf_surfaces h]
  cases i with
  | nop | rotcw | rotccw | flipx | flipy => cases h; cases ha
  | _ => exact List.mem_map_of_mem hs

/-- A command whose used slots are served and whose plan passes its checks runs to completion (R69, R222). -/
theorem exec_of_plan {i : Instr} {s : State} {p : Plan} (h : planOf i s.operands = .ok p)
    (hs : ∀ sl ∈ usedSlots i, s.serves (s.operands.desc sl)) :
    exec i s = .next (((s.withMem (runWrites s.mem p.writes)).commit p.regWrite).complete .ok) := by
  rw [exec_eq_finish, h]
  refine finish_ok (planOf_inSpace h) (fun d hd => ?_)
  obtain ⟨sl, hsl, rfl⟩ := planOf_surfaces_used h d hd
  exact hs sl hsl

/-! ### Pixel writes in sequence -/

theorem PixelWrite.run_wf {m : Memory} (h : m.wf = true) (w : PixelWrite) : (w.run m).wf = true := by
  cases w <;> exact writePlace_wf h _ _

theorem runWrites_wf : ∀ {ws : List PixelWrite} {m : Memory}, m.wf = true → (runWrites m ws).wf = true
  | [], _, h => h
  | w :: ws, _, h => runWrites_wf (ws := ws) (PixelWrite.run_wf h w)

theorem runWrites_inSpace : ∀ {ws : List PixelWrite} {m : Memory}, (∀ w ∈ ws, ∀ a ∈ w.bytes, a < addressSpace) →
    m.inSpace = true → (runWrites m ws).inSpace = true
  | [], _, _, h => h
  | w :: ws, m, hw, h => by
    refine runWrites_inSpace (ws := ws) (fun x hx => hw x (List.mem_cons_of_mem _ hx)) ?_
    have hb := hw w (List.mem_cons_self ..)
    cases w with
    | put p v => exact writePlace_inSpace _ hb h
    | copy p q ts td => exact writePlace_inSpace _ (fun a ha => hb a (by simp [PixelWrite.bytes, ha])) h

/-- The place a pixel write stores to. -/
def PixelWrite.target : PixelWrite → Place
  | .put p _ => p
  | .copy _ q _ _ => q

theorem PixelWrite.run_eq (m : Memory) (w : PixelWrite) : ∃ v, w.run m = writePlace m w.target v := by
  cases w <;> exact ⟨_, rfl⟩

/-- The bytes outside the places written keep their values. -/
theorem runWrites_outside : ∀ {ws : List PixelWrite} {m : Memory} {a : Nat}, m.wf = true →
    (∀ w ∈ ws, a ∉ w.target.bytes) → (runWrites m ws).read a = m.read a
  | [], _, _, _, _ => rfl
  | w :: ws, m, a, h, ha => by
    obtain ⟨v, hv⟩ := w.run_eq m
    have := runWrites_outside (ws := ws) (PixelWrite.run_wf h w) (fun x hx => ha x (List.mem_cons_of_mem _ hx))
    exact this.trans (hv ▸ writePlace_outside h _ _ _ (ha w (List.mem_cons_self ..)))

/-- A place that shares no bit with any place written reads as before. -/
theorem readPlace_runWrites_of_disjoint : ∀ {ws : List PixelWrite} {m : Memory} {q : Place}, m.wf = true →
    (∀ w ∈ ws, ∀ a j, w.target.hasBit a j → ¬ q.hasBit a j) → readPlace (runWrites m ws) q = readPlace m q
  | [], _, _, _, _ => rfl
  | w :: ws, m, q, h, hd => by
    obtain ⟨v, hv⟩ := w.run_eq m
    have := readPlace_runWrites_of_disjoint (ws := ws) (PixelWrite.run_wf h w)
      (fun x hx => hd x (List.mem_cons_of_mem _ hx))
    exact this.trans (hv ▸ readPlace_writePlace_of_disjoint h v (hd w (List.mem_cons_self ..)))

end Sys2Proof.Machine
end

