-- ==== Sys2Proof/Laws/Fill.lean ====
section
/-! SUPPORT. Filling: what writing one value at a list of points does to every pixel and every byte of a surface. -/

namespace Sys2Proof.Machine

theorem putAll_nil (d : Desc) (k : Kernel) (v : Word) : putAll d k v [] = [] := rfl

theorem putAll_cons (d : Desc) (k : Kernel) (v : Word) (p : Int × Int) (ps : List (Int × Int)) :
    putAll d k v (p :: ps) =
      if clipped d p then putAll d k v ps else .put (placeOf d k p.1.toNat p.2.toNat) v.toNat :: putAll d k v ps := by
  unfold putAll
  by_cases h : clipped d p <;> simp [h]

theorem runWrites_cons (m : Memory) (w : PixelWrite) (ws : List PixelWrite) :
    runWrites m (w :: ws) = runWrites (w.run m) ws := rfl

theorem runWrites_append (m : Memory) (ws ws' : List PixelWrite) :
    runWrites m (ws ++ ws') = runWrites (runWrites m ws) ws' := List.foldl_append ..

/-- After a fill, a pixel of the surface holds the value if it is one of the unclipped points, and is as before if not
(R107, R171). -/
theorem readPlace_putAll {d : Desc} {k : Kernel} (f : LegalFacts d k) (v : Word) {qx qy : Nat}
    (hx : qx < d.width.toNat) : ∀ (ps : List (Int × Int)) {m : Memory}, m.wf = true →
    readPlace (runWrites m (putAll d k v ps)) (placeOf d k qx qy) =
      if ((qx : Int), (qy : Int)) ∈ ps ∧ clipped d (qx, qy) = false then v.toNat % 2 ^ k.bpp
      else readPlace m (placeOf d k qx qy)
  | [], m, _ => by simp [putAll_nil, runWrites]
  | p :: ps, m, h => by
    rw [putAll_cons]
    by_cases hc : clipped d p
    · rw [if_pos hc, readPlace_putAll f v hx ps h]
      by_cases hp : ((qx : Int), (qy : Int)) = p
      · subst hp
        simp [hc]
      · simp [List.mem_cons, hp]
    · rw [if_neg hc, runWrites_cons, readPlace_putAll f v hx ps (PixelWrite.run_wf h _)]
      have hh := f.holds_of_unclipped (by simpa using hc)
      obtain ⟨h1, h2, h3, h4⟩ := hh
      by_cases hp : ((qx : Int), (qy : Int)) = p
      · subst hp
        have hcf : clipped d ((qx : Int), (qy : Int)) = false := by simpa using hc
        simp only [List.mem_cons, true_or, hcf, and_true, if_true]
        split
        · rfl
        · exact readPlace_writePlace h (f.aligned _ _) _
      · have hne : (p.1.toNat, p.2.toNat) ≠ (qx, qy) := by
          intro e
          simp only [Prod.mk.injEq] at e
          exact hp (Prod.ext (by simp only []; omega) (by simp only []; omega))
        simp only [List.mem_cons, hp, false_or]
        split
        · rfl
        · exact readPlace_writePlace_of_disjoint h _ (fun a j => f.bits_disjoint (by omega) hx hne a j)

/-- A fill leaves every byte outside the pixels it writes alone. -/
theorem putAll_outside (d : Desc) (k : Kernel) (v : Word) (ps : List (Int × Int)) {m : Memory} (h : m.wf = true)
    {a : Nat} (ha : ∀ p ∈ ps, clipped d p = false → a ∉ (placeOf d k p.1.toNat p.2.toNat).bytes) :
    (runWrites m (putAll d k v ps)).read a = m.read a := by
  apply runWrites_outside h
  intro w hw
  unfold putAll at hw
  rw [List.mem_map] at hw
  obtain ⟨p, hp, rfl⟩ := hw
  rw [List.mem_filter] at hp
  exact ha p hp.1 (by simpa using hp.2)

theorem runWrites_other_bit : ∀ {ws : List PixelWrite} {m : Memory} {a j : Nat}, m.wf = true →
    (∀ w ∈ ws, ¬ w.target.hasBit a j) → ((runWrites m ws).read a).getLsbD j = (m.read a).getLsbD j
  | [], _, _, _, _, _ => rfl
  | w :: ws, m, a, j, h, ha => by
    obtain ⟨v, hv⟩ := w.run_eq m
    have := runWrites_other_bit (ws := ws) (PixelWrite.run_wf h w) (fun x hx => ha x (List.mem_cons_of_mem _ hx))
    exact this.trans (hv ▸ writePlace_other_bit h _ _ _ _ (ha w (List.mem_cons_self ..)))

/-- A fill changes no bit but those of the pixels it writes (R107). -/
theorem putAll_other_bit (d : Desc) (k : Kernel) (v : Word) (ps : List (Int × Int)) {m : Memory} (h : m.wf = true)
    {a j : Nat} (ha : ∀ p ∈ ps, clipped d p = false → ¬ (placeOf d k p.1.toNat p.2.toNat).hasBit a j) :
    ((runWrites m (putAll d k v ps)).read a).getLsbD j = (m.read a).getLsbD j := by
  apply runWrites_other_bit h
  intro w hw
  unfold putAll at hw
  rw [List.mem_map] at hw
  obtain ⟨p, hp, rfl⟩ := hw
  rw [List.mem_filter] at hp
  exact ha p hp.1 (by simpa using hp.2)

/-- A fill none of whose points is unclipped writes nothing (R68, R171). -/
theorem putAll_eq_nil {d : Desc} {k : Kernel} {v : Word} {ps : List (Int × Int)}
    (h : ∀ p ∈ ps, clipped d p = true) : putAll d k v ps = [] := by
  unfold putAll
  rw [List.map_eq_nil_iff, List.filter_eq_nil_iff]
  intro p hp
  simp [h p hp]

/-- The bits of a multi-byte read are the bits of its bytes. -/
theorem memRead_testBit : ∀ (n : Nat) (m : Memory) (a i j : Nat), i < n → j < 8 →
    (memRead m a n).testBit (8 * i + j) = (m.read (a + i)).getLsbD j
  | 0, _, _, _, _, hi, _ => absurd hi (by omega)
  | n + 1, m, a, 0, j, _, hj => by
    rw [memRead, BitVec.getLsbD, Nat.mul_zero, Nat.zero_add, Nat.add_comm,
      show 256 * memRead m (a + 1) n = 2 ^ 8 * memRead m (a + 1) n by norm_num,
      Nat.testBit_two_pow_mul_add _ (m.read a).isLt, if_pos hj, Nat.add_zero]
  | n + 1, m, a, i + 1, j, hi, hj => by
    rw [memRead, Nat.add_comm, show 256 * memRead m (a + 1) n = 2 ^ 8 * memRead m (a + 1) n by norm_num,
      Nat.testBit_two_pow_mul_add _ (m.read a).isLt, if_neg (by omega),
      show 8 * (i + 1) + j - 8 = 8 * i + j by omega, memRead_testBit n m (a + 1) i j (by omega) hj,
      show a + 1 + i = a + (i + 1) by omega]

/-- Two memories that read a pixel alike agree on every bit of it. -/
theorem bit_eq_of_readPlace_eq {m m' : Memory} {p : Place} (h : readPlace m p = readPlace m' p) {a j : Nat}
    (hb : p.hasBit a j) : (m.read a).getLsbD j = (m'.read a).getLsbD j := by
  unfold readPlace readRaw at h
  unfold Place.hasBit at hb
  by_cases hw : 8 ≤ p.kernel.bpp
  · rw [if_pos hw] at hb
    rw [if_pos hw, if_pos hw] at h
    have e := fun m => memRead_testBit (p.kernel.bpp / 8) m p.addr (a - p.addr) j (by omega) hb.2.2
    rw [show a = p.addr + (a - p.addr) by omega, ← e m, ← e m', h]
  · rw [if_neg hw] at hb
    rw [if_neg hw, if_neg hw] at h
    obtain ⟨rfl, h1, h2⟩ := hb
    have e := congrArg (fun n => n.testBit (j - physShift p.pos p.kernel.bpp p.kernel.bigEndian)) h
    simp only [memRead, Nat.mul_zero, Nat.add_zero, byteRead_testBit] at e
    rw [show physShift p.pos p.kernel.bpp p.kernel.bigEndian
      + (j - physShift p.pos p.kernel.bpp p.kernel.bigEndian) = j by omega] at e
    simpa [show j - physShift p.pos p.kernel.bpp p.kernel.bigEndian < p.kernel.bpp by omega] using e

/-- A fill depends only on which unclipped points it has, not on their order or number (R176). -/
theorem runWrites_putAll_congr {d : Desc} {k : Kernel} (f : LegalFacts d k) (v : Word) {ps qs : List (Int × Int)}
    (h : ∀ p, clipped d p = false → (p ∈ ps ↔ p ∈ qs)) {m : Memory} (hm : m.wf = true) :
    runWrites m (putAll d k v ps) = runWrites m (putAll d k v qs) := by
  apply Memory.ext (runWrites_wf hm) (runWrites_wf hm)
  intro a
  apply BitVec.eq_of_getLsbD_eq
  intro j hj
  have away : ∀ rs : List (Int × Int),
      (∀ p ∈ rs, clipped d p = false → ¬ (placeOf d k p.1.toNat p.2.toNat).hasBit a j) →
      ((runWrites m (putAll d k v rs)).read a).getLsbD j = (m.read a).getLsbD j :=
    fun rs hrs => putAll_other_bit d k v rs hm hrs
  by_cases hb : ∃ p ∈ ps, clipped d p = false ∧ (placeOf d k p.1.toNat p.2.toNat).hasBit a j
  · obtain ⟨p, hp, hc, hpb⟩ := hb
    obtain ⟨h1, h2, h3, h4⟩ := f.holds_of_unclipped hc
    have e : p = ((p.1.toNat : Int), (p.2.toNat : Int)) := Prod.ext (by simp only []; omega) (by simp only []; omega)
    apply bit_eq_of_readPlace_eq (p := placeOf d k p.1.toNat p.2.toNat) _ hpb
    rw [readPlace_putAll f v (by omega) ps hm, readPlace_putAll f v (by omega) qs hm, ← e, if_pos ⟨hp, hc⟩,
      if_pos ⟨(h p hc).1 hp, hc⟩]
  · rw [away ps (fun p hp hc hpb => hb ⟨p, hp, hc, hpb⟩),
      away qs (fun p hp hc hpb => hb ⟨p, (h p hc).2 hp, hc, hpb⟩)]

/-- A command whose plan is the fill of a list of points, on its one slot, paints those points (R171). -/
theorem paints_of_plan {s : State} {i : Instr} {sl : Slot} {k : Kernel} {pts : Int × Int → Prop} {l : List (Int × Int)}
    (hm : s.mem.wf = true) (hk : checkSurface (s.operands.desc sl) = .ok k) (hs : s.serves (s.operands.desc sl))
    (hp : planOf i s.operands = .ok { surfaces := [s.operands.desc sl],
                                      writes := putAll (s.operands.desc sl) k s.operands.color l, regWrite := .none })
    (hu : usedSlots i = [sl]) (hl : ∀ p, p ∈ l ↔ pts p) : Paints s i sl k pts := by
  have f := checkSurface_ok hk
  refine ⟨runWrites s.mem (putAll (s.operands.desc sl) k s.operands.color l), ?_, ?_, ?_, ?_⟩
  · rw [exec_of_plan hp (by intro t h; rw [hu, List.mem_singleton] at h; exact h ▸ hs)]
    simp [State.withMem, State.complete, State.succeededWith]
  · intro px py hx hy
    rw [readPlace_putAll f _ hx _ hm]
    constructor <;> intro h
    · rw [if_pos ⟨(hl _).2 h.1, h.2⟩]
    · rw [if_neg (fun h' => h ⟨(hl _).1 h'.1, h'.2⟩)]
  · intro a ha
    exact putAll_outside _ _ _ _ hm (fun p hp' hc => ha p ((hl p).1 hp') hc)
  · intro a j ha
    exact putAll_other_bit _ _ _ _ hm (fun p hp' hc => ha p ((hl p).1 hp') hc)

end Sys2Proof.Machine
end

