-- ==== Sys2Proof/Laws/Line.lean ====
section
/-! SUPPORT. The line walk: its length, and where its n-th pixel stands. -/

namespace Sys2Proof.Machine

theorem bresenhamWalk_length (steep : Bool) (da db bstep : Int) :
    ∀ (m : Nat) (a b err : Int), (bresenhamWalk steep da db bstep m a b err).length = m
  | 0, _, _, _ => rfl
  | m + 1, a, b, err => by
    rw [bresenhamWalk, List.length_cons]
    split <;> rw [bresenhamWalk_length steep da db bstep m]

/-- Pixel `n` of a walk that starts at (a, b) with error term `err`: `n` major steps, and a minor step each time the
error term has passed below 0 (R175). -/
theorem bresenhamWalk_getElem (steep : Bool) {da db : Int} (bstep : Int) (hdb : 0 ≤ db) (hle : db ≤ da) :
    ∀ {m : Nat} (a b : Int) {err : Int} {n : Nat}, n < m → 0 ≤ err → err < da →
      (bresenhamWalk steep da db bstep m a b err)[n]? =
        some (if steep then (b + bstep * ((n * db + da - 1 - err) / da), a + n)
          else (a + n, b + bstep * ((n * db + da - 1 - err) / da)))
  | 0, _, _, _, _, h, _, _ => absurd h (by omega)
  | m + 1, a, b, err, 0, _, h0, h1 => by
    have : (da - 1 - err) / da = 0 := Int.ediv_eq_zero_of_lt (by omega) (by omega)
    simp [bresenhamWalk, this]
  | m + 1, a, b, err, n + 1, h, h0, h1 => by
    rw [bresenhamWalk, List.getElem?_cons_succ]
    by_cases he : err - db < 0
    · rw [if_pos he, bresenhamWalk_getElem steep bstep hdb hle (a + 1) (b + bstep) (by omega) (by omega) (by omega),
        show ((n + 1 : Nat) * db + da - 1 - err) = (n * db + da - 1 - (err - db + da)) + 1 * da by push_cast; ring,
        Int.add_mul_ediv_right _ _ (by omega)]
      congr 1
      split <;> apply Prod.ext <;> push_cast <;> ring
    · rw [if_neg he, bresenhamWalk_getElem steep bstep hdb hle (a + 1) b (by omega) (by omega) (by omega),
        show ((n + 1 : Nat) * db + da - 1 - err) = (n * db + da - 1 - (err - db)) by push_cast; ring]
      congr 1
      split <;> apply Prod.ext <;> push_cast <;> ring

end Sys2Proof.Machine
end

