-- ==== Sys2Proof/Laws/PerInstr.lean ====
section
/-! SUPPORT. Statements made instruction by instruction, one lemma per constructor. -/

namespace Sys2Proof.Laws.EncodingMatchesRow

/-- Exactly one row of R82 accepts the word of a command, and the word is well formed (R82, R87). -/
def Statement (i : Instr) : Prop :=
  opcodeRows.countP (fun r => r.accepts (encode i)) = 1 ∧ (fieldsOf (encode i)).wellFormed = true

theorem nop : Statement (.nop) := ⟨rfl, rfl⟩

theorem getpix (s : Slot) (r : Bool) : Statement (.getpix s r) := by
  cases s <;> cases r <;> exact ⟨rfl, rfl⟩

theorem putpix (s : Slot) (r : Bool) : Statement (.putpix s r) := by
  cases s <;> cases r <;> exact ⟨rfl, rfl⟩

theorem line (s : Slot) (r : Bool) : Statement (.line s r) := by
  cases s <;> cases r <;> exact ⟨rfl, rfl⟩

theorem hline (s : Slot) (r : Bool) : Statement (.hline s r) := by
  cases s <;> cases r <;> exact ⟨rfl, rfl⟩

theorem hlinew (s : Slot) (r : Bool) : Statement (.hlinew s r) := by
  cases s <;> cases r <;> exact ⟨rfl, rfl⟩

theorem vline (s : Slot) (r : Bool) : Statement (.vline s r) := by
  cases s <;> cases r <;> exact ⟨rfl, rfl⟩

theorem vlineh (s : Slot) (r : Bool) : Statement (.vlineh s r) := by
  cases s <;> cases r <;> exact ⟨rfl, rfl⟩

theorem blit (s : Slot) (t : Slot) (r : Bool) : Statement (.blit s t r) := by
  cases s <;> cases t <;> cases r <;> exact ⟨rfl, rfl⟩

theorem subview (s : Slot) (t : Slot) : Statement (.subview s t) := by
  cases s <;> cases t <;> exact ⟨rfl, rfl⟩

theorem rotcw (s : Slot) : Statement (.rotcw s) := by
  cases s <;> exact ⟨rfl, rfl⟩

theorem rotccw (s : Slot) : Statement (.rotccw s) := by
  cases s <;> exact ⟨rfl, rfl⟩

theorem flipx (s : Slot) : Statement (.flipx s) := by
  cases s <;> exact ⟨rfl, rfl⟩

theorem flipy (s : Slot) : Statement (.flipy s) := by
  cases s <;> exact ⟨rfl, rfl⟩

end Sys2Proof.Laws.EncodingMatchesRow
end

