-- ==== Sys2Proof/Laws/Registers.lean ====
section
/-! SUPPORT. The register map and the register offsets agree (R20, R32). -/

namespace Sys2Proof.Machine

theorem regAt_offset (g : Reg) : regAt g.offset = g := by
  cases g with
  | slot s f => cases s <;> cases f <;> simp [Reg.offset, Slot.bits, SlotReg.offset, regAt, slotRegAt, Slot.ofBits]
  | _ => rfl

/-- An aligned 32-bit access at a register's offset is an access to that register (R20). -/
theorem windowAccess_offset (g : Reg) : windowAccess g.offset 4 = .ok g := by
  have h : g.offset % 4 = 0 ∧ g.offset < 0x200 := by
    cases g with
    | slot s f => cases s <;> cases f <;> simp [Reg.offset, Slot.bits, SlotReg.offset]
    | _ => simp [Reg.offset]
  unfold windowAccess
  rw [if_neg (by omega), if_neg (by omega), regAt_offset]

end Sys2Proof.Machine
end

