-- ==== Sys2Proof/Laws/Step.lean ====
section
/-! SUPPORT. Steps: what the unit's turn, a reset, a host operation and a whole step answer, said once. -/

namespace Sys2Proof.Machine

theorem andThen_next {o : Outcome} {f : State → State} {t : State} (h : andThen o f = .next t) :
    ∃ u, o = .next u ∧ t = f u := by
  unfold andThen at h
  split at h
  · cases h
    exact ⟨_, rfl, rfl⟩
  · cases h
  · cases h

theorem andThen_fault {o : Outcome} {f : State → State} {r : Fault} : andThen o f = .fault r ↔ o = .fault r := by
  cases o <;> simp [andThen]

/-- Everything a command can do when it answers a next state: complete with an error and nothing else, or carry out its
plan and complete with 0 (R222, R223). -/
theorem exec_next {i : Instr} {s t : State} (h : exec i s = .next t) :
    (∃ c, planOf i s.operands = .error c ∧ t = s.complete c) ∨
    (∃ p, planOf i s.operands = .ok p ∧ (∀ d ∈ p.surfaces, s.serves d) ∧
      t = ((s.withMem (runWrites s.mem p.writes)).commit p.regWrite).complete .ok) := by
  rw [exec_eq_finish] at h
  rcases finish_next h with ⟨c, hc, rfl⟩ | ⟨p, hp, _, hs, rfl⟩
  · exact .inl ⟨c, hc, rfl⟩
  · exact .inr ⟨p, hp, hs, rfl⟩

/-- No command faults: every access stays in the address space (R65). -/
theorem exec_ne_fault (i : Instr) (s : State) (r : Fault) : exec i s ≠ .fault r := by
  rw [exec_eq_finish]
  intro h
  unfold State.finish at h
  split at h
  · cases h
  · rename_i p hp
    rw [if_pos (by simpa using planOf_inSpace hp)] at h
    split at h <;> cases h

/-- Everything the unit's turn can do (R221). -/
theorem unitTurn_next {s t : State} (h : s.unitTurn = .next t) :
    (s.flight = none ∧ t = s) ∨
    (∃ f i, s.flight = some f ∧ decode f.word = .ok i ∧ exec i s = .next t) ∨
    (∃ f e, s.flight = some f ∧ decode f.word = .error e ∧ t = s.complete .badCmd) := by
  unfold State.unitTurn at h
  split at h
  · cases h
    exact .inl ⟨‹_›, rfl⟩
  · split at h
    · exact .inr (.inl ⟨_, _, ‹_›, ‹_›, h⟩)
    · cases h
      exact .inr (.inr ⟨_, _, ‹_›, ‹_›, rfl⟩)

theorem Flight.plan_inSpace {f : Flight} {p : Plan} (h : f.plan = .ok p) : ∀ a ∈ p.bytes, a < addressSpace := by
  unfold Flight.plan at h
  split at h
  · exact planOf_inSpace h
  · cases h

/-- Everything a reset can do (R250 to R252): the registers take their reset values, and memory is as it was or holds
the first pixel writes of the command in flight. -/
theorem resetUnit_next {s t : State} (h : s.resetUnit = .next t) :
    t = s.resetRegisters ∨
    (∃ f p, s.flight = some f ∧ f.plan = .ok p ∧ (∀ d ∈ p.surfaces, s.serves d) ∧
      t = { s.resetRegisters with
            mem := runWrites s.mem (p.writes.take (abortedCount s.choices p.writes.length))
            choices := s.choices + 1 }) := by
  unfold State.resetUnit at h
  split at h
  · cases h
    exact .inl rfl
  · split at h
    · cases h
      exact .inl rfl
    · split_ifs at h with h1 h2
      cases h
      rw [List.all_eq_true] at h2
      exact .inr ⟨_, _, ‹_›, ‹_›, fun d hd => (servesSurface_iff s d).1 (h2 d hd), rfl⟩

/-- After a reset every register is at its reset value, and the level of the reset input is as it was (R250, R251). -/
theorem resetUnit_registers {s t : State} (h : s.resetUnit = .next t) :
    t.resetRegisters = t ∧ t.resetHeld = s.resetHeld := by
  rcases resetUnit_next h with rfl | ⟨_, _, _, _, _, rfl⟩ <;> exact ⟨rfl, rfl⟩

theorem resetUnit_ne_fault (s : State) (r : Fault) : s.resetUnit ≠ .fault r := by
  intro h
  unfold State.resetUnit at h
  split at h
  · cases h
  · split at h
    · cases h
    · rename_i p hp
      rw [if_pos (by simpa using Flight.plan_inSpace hp)] at h
      split at h <;> cases h

/-- While the reset input is asserted a host register write has no effect (R250). -/
theorem hostWrite_held {s : State} (h : s.resetHeld = true) (g : Reg) (v : Word) : s.hostWrite g v = .next s := by
  simp only [State.hostWrite, h, if_true]

/-- Everything a host register write can do when it answers a next state (R21 to R28, R44, R45, R250). -/
theorem hostWrite_next {s t : State} {g : Reg} {v : Word} (h : s.hostWrite g v = .next t) :
    (s.resetHeld = true ∧ t = s) ∨ (s.resetHeld = false ∧ (
      (g = .ctrl ∧ v.getLsbD 1 = true ∧ s.resetUnit = .next t) ∨
      (g = .ctrl ∧ v.getLsbD 1 = false ∧ t = { s with irqEn := v.getLsbD 0 }) ∨
      (g = .status ∧ t = s.clearStatus v) ∨
      (g = .cmd ∧ s.busy = false ∧ t = s.issue v) ∨
      ((g = .id ∨ g = .result ∨ g = .reserved) ∧ t = s) ∨
      (g.isOperand = true ∧ s.busy = false ∧ t = { s with regs := s.regs.write g v }) ∨
      ((g = .cmd ∨ g.isOperand = true) ∧ s.busy = true ∧ t = s.ignoredWrite))) := by
  cases hr : s.resetHeld
  case true =>
    rw [hostWrite_held hr] at h
    cases h
    exact .inl ⟨rfl, rfl⟩
  refine .inr ⟨rfl, ?_⟩
  cases hb : s.busy <;> cases hv : v.getLsbD 1 <;> cases g <;>
    simp only [State.hostWrite, hr, hb, hv, Bool.false_eq_true, if_true, if_false] at h <;>
    first
    | exact .inl ⟨rfl, rfl, h⟩
    | (injection h with h; subst h; simp [Reg.isOperand])

theorem windowAccess_ok {off size : Nat} {g : Reg} (h : windowAccess off size = .ok g) :
    size = 4 ∧ off % 4 = 0 ∧ off < 0x200 ∧ g = regAt off := by
  unfold windowAccess at h
  split_ifs at h with h1 h2
  cases h
  exact ⟨by omega, by omega, by omega, rfl⟩

theorem hostAccess_next {s u t : State} {a : Nat} (h : s.hostAccess a u = .next t) :
    s.races a = false ∧ servedByte s.unserved a = true ∧ t = u := by
  unfold State.hostAccess at h
  split_ifs at h with h1 h2
  cases h
  exact ⟨by simpa using h1, h2, rfl⟩

theorem unitTurn_ne_fault (s : State) (r : Fault) : s.unitTurn ≠ .fault r := by
  intro h
  unfold State.unitTurn at h
  split at h
  · cases h
  · split at h
    · exact exec_ne_fault _ _ _ h
    · cases h

theorem step_nil {s : State} (h : s.inputs = []) : step s = s.unitTurn := by
  simp [step, State.advance, h]

theorem step_cons {s : State} {i : Input} {rest : List Input} (h : s.inputs = i :: rest) :
    step s = State.applyInput { s with inputs := rest } i := by
  simp [step, State.advance, h]

/-- What every part of a step keeps is kept by a step: a property closed under completion of a command, reset, host
register writes, host memory writes and the model's own bookkeeping holds after every step. -/
theorem step_keeps (P : State → Prop)
    (hin : ∀ s l, P s → P { s with inputs := l })
    (hlog : ∀ s v, P s → P (s.logRead v))
    (hexec : ∀ i s t f, P s → s.flight = some f → exec i s = .next t → P t)
    (hbad : ∀ s f, P s → s.flight = some f → P (s.complete .badCmd))
    (hhold : ∀ s t, P s → s.resetUnit = .next t → P t.holdReset)
    (hrelease : ∀ s, P s → P s.releaseReset)
    (hwrite : ∀ s t g v, P s → s.hostWrite g v = .next t → P t)
    (hmem : ∀ s (a : Word) b, P s → P (s.withMem (s.mem.write a.toNat b)))
    (hclash : ∀ s v, P s → P (s.clashStatus v))
    {s t : State} (hs : P s) (h : step s = .next t) : P t := by
  have hturn : ∀ {s t : State}, P s → s.unitTurn = .next t → P t := by
    intro s t hs h
    rcases unitTurn_next h with ⟨_, rfl⟩ | ⟨_, _, hf, _, he⟩ | ⟨_, _, hf, _, rfl⟩
    · exact hs
    · exact hexec _ _ _ _ hs hf he
    · exact hbad _ _ hs hf
  cases hi : s.inputs with
  | nil => exact hturn hs (step_nil hi ▸ h)
  | cons i rest =>
    rw [step_cons hi] at h
    have hs' := hin s rest hs
    revert h
    generalize { s with inputs := rest } = u at hs'
    intro h
    cases i with
    | regWrite off size v =>
      simp only [State.applyInput] at h
      split at h
      · exact hwrite _ _ _ _ hs' h
      · cases h
    | regRead off size =>
      simp only [State.applyInput] at h
      split at h
      · cases h
        exact hlog _ _ hs'
      · cases h
    | memWrite a b =>
      obtain ⟨_, _, rfl⟩ := hostAccess_next h
      exact hmem _ _ _ hs'
    | memRead a =>
      obtain ⟨_, _, rfl⟩ := hostAccess_next h
      exact hlog _ _ hs'
    | unit => exact hturn hs' h
    | poll =>
      simp only [State.applyInput] at h
      split_ifs at h
      · obtain ⟨w, hw, rfl⟩ := andThen_next h
        exact hin _ _ (hturn hs' hw)
      · cases h
        exact hlog _ _ hs'
    | statusAtCompletion v =>
      simp only [State.applyInput] at h
      split_ifs at h
      · obtain ⟨w, hw, rfl⟩ := andThen_next h
        exact hclash _ _ (hturn hs' hw)
      · refine hwrite u t .status v hs' ?_
        exact h
    | resetAssert =>
      obtain ⟨w, hw, rfl⟩ := andThen_next h
      exact hhold _ _ hs' hw
    | resetRelease =>
      cases h
      exact hrelease _ hs'

end Sys2Proof.Machine
end

