-- ==== Sys2Proof/Laws/Subview.lean ====
section
/-! SUPPORT. Sub-views: the numbers of a rectangle inside a legal surface, and where the pixels of a slot whose base is
a pixel of another slot stand. -/

namespace Sys2Proof.Machine

/-- The quantities of a rectangle of columns `px0..px1` and rows `py0..py1` of a legal surface: its first byte exists,
its packing offset is legal, its rows fit the stride and its extent fits the memory space (R140, R156). -/
theorem LegalFacts.rectangle {d : Desc} {k : Kernel} (f : LegalFacts d k) {px0 px1 py0 py1 : Nat}
    (h1 : px0 ≤ px1) (h2 : px1 < d.width.toNat) (h3 : py0 ≤ py1) (h4 : py1 < d.height.toNat) :
    let bp := px0 * k.bpp + d.bitoff.toNat
    let base := d.base.toNat + py0 * d.stride.toNat + bp / 8
    base < addressSpace ∧ (k.bpp < 8 → bp % 8 % k.bpp = 0) ∧ (8 ≤ k.bpp → bp % 8 = 0) ∧
    ceil8 (bp % 8 + (px1 - px0 + 1) * k.bpp) ≤ d.stride.toNat ∧
    base + d.stride.toNat * (py1 - py0) + ceil8 (bp % 8 + (px1 - px0 + 1) * k.bpp) ≤ addressSpace := by
  intro bp base
  have e1 := f.stride_ge
  have e2 := f.extent
  have e3 : py0 * d.stride.toNat + d.stride.toNat * (py1 - py0) ≤ d.stride.toNat * (d.height.toNat - 1) := by
    rw [Nat.mul_comm py0, ← Nat.mul_add]
    exact Nat.mul_le_mul_left _ (by omega)
  have e4 : px0 * k.bpp + (px1 - px0 + 1) * k.bpp ≤ d.width.toNat * k.bpp := by
    rw [← Nat.add_mul]
    exact Nat.mul_le_mul_right _ (by omega)
  have e5 := f.wide_bitoff
  have e6 := f.narrow_bitoff
  have e7 := k.bpp_pos
  have e8 : k.bpp ≤ (px1 - px0 + 1) * k.bpp := Nat.le_mul_of_pos_left _ (by omega)
  have hl : (k.bpp < 8 → bp % 8 % k.bpp = 0) ∧ (8 ≤ k.bpp → bp % 8 = 0) := by
    simp only [bp]
    rcases k.bpp_cases with e | e | e | e | e | e | e <;> rw [e] at e5 e6 ⊢ <;> simp at e5 e6 ⊢ <;> omega
  simp only [Desc.rowBytes, ceil8, addressSpace] at e1 e2 ⊢
  refine ⟨?_, hl.1, hl.2, ?_, ?_⟩ <;> omega

/-- A slot that starts at pixel (px0, py0) of another, with its stride, has its pixel (i, j) where the other has
(px0 + i, py0 + j) (R157). -/
theorem placeOf_shift {d n : Desc} (k : Kernel) {px0 py0 : Nat} (i j : Nat)
    (hb : n.base.toNat = d.base.toNat + py0 * d.stride.toNat + (px0 * k.bpp + d.bitoff.toNat) / 8)
    (ho : n.bitoff.toNat = (px0 * k.bpp + d.bitoff.toNat) % 8) (hs : n.stride = d.stride) :
    placeOf n k i j = placeOf d k (px0 + i) (py0 + j) := by
  unfold placeOf addressOf
  simp only [hb, ho, hs, Nat.add_mul]
  congr 1 <;> omega

end Sys2Proof.Machine
end

