-- ==== Sys2Proof/Tests/Slice0.lean ====
section
/-! SUPPORT. The model's own tests: the WellFormed smoke, decoding of words written out from the spec's encoding, one step
of each command with the values of 95_test_vectors.md, and a witness for the hypotheses of each statement. -/

open Sys2Proof Sys2Proof.Machine

namespace Sys2Proof.Tests

/-! ### Helpers -/

/-- A slot with the clip at the whole surface and orientation 0, as `SETSURF` leaves it (R90). -/
def surf (ty base stride w h : Nat) (be : Bool) : Desc :=
  { Desc.reset with
    base := BitVec.ofNat 32 base
    stride := BitVec.ofNat 32 stride
    width := BitVec.ofNat 16 w
    height := BitVec.ofNat 16 h
    ptype := BitVec.ofNat 5 ty
    endian := be
    xmax := BitVec.ofNat 16 (w - 1)
    ymax := BitVec.ofNat 16 (h - 1) }

/-- A slot turned to an ORIENT value (R39). -/
def turned (d : Desc) (o : Nat) : Desc := d.setOrient (o.testBit 0) (o.testBit 1) (o.testBit 2)

/-- Operand registers with slots 0 and 1, ARG0 to ARG5 and COLOR given. -/
def regs (d0 d1 : Desc) (a0 a1 a2 a3 a4 a5 : Int) (c : Nat) : Regs where
  arg0 := BitVec.ofInt 32 a0
  arg1 := BitVec.ofInt 32 a1
  arg2 := BitVec.ofInt 32 a2
  arg3 := BitVec.ofInt 32 a3
  arg4 := BitVec.ofInt 32 a4
  arg5 := BitVec.ofInt 32 a5
  color := BitVec.ofNat 32 c
  slots := ⟨d0, d1, Desc.reset, Desc.reset⟩

/-- An idle state with the given operand registers and memory. -/
def idle (r : Regs) (m : Memory) : State := { State.reset with regs := r, mem := m }

/-- Bytes placed from an address on. -/
def bytesFrom (a : Nat) (l : List Nat) : Memory :=
  l.zipIdx.foldl (fun m p => m.write (a + p.2) (BitVec.ofNat 8 p.1)) []

/-- One step on an issued command word, and what a reading of the next state gives. -/
def after {α : Type} (s : State) (cw : Nat) (f : State → α) : Option α :=
  match step (s.withFetchWord 32 cw) with
  | .next t => some (f t)
  | .fault _ => none
  | .refused _ => none

/-- STATUS and the `n` bytes from `a`. -/
def seen (a n : Nat) (t : State) : Nat × List Nat :=
  (t.statusWord.toNat, (List.range n).map (fun i => (t.mem.read (a + i)).toNat))

/-- A state with the given inputs waiting. -/
def given (s : State) (l : List Input) : State := { s with inputs := l }

/-- A G8 surface of 4 by 2 at 0x100, used by most witnesses. -/
def g8 : Desc := surf 5 0x100 4 4 2 false

/-- An idle state with `g8` in slot 0 and a like surface at 0x200 in slot 1; the arguments are those of V-T1. -/
def two : State := idle (regs g8 (surf 5 0x200 4 4 2 false) 3 1 2 0 0 0 7) (bytesFrom 0x100 [1, 2, 3, 4, 5, 6, 7, 8])

/-! ### WellFormed smoke: each check refuses a word (R87) -/

theorem test_opcode_listed_refuses : (fieldsOf 0x0000000E).opcodeListed = false := by decide
theorem test_reserved_zero_refuses : (fieldsOf 0x00002000).reservedZero = false := by decide
theorem test_t_allowed_refuses : (fieldsOf 0x00000402).tAllowed = false := by decide
theorem test_raw_allowed_refuses : (fieldsOf 0x00001009).rawAllowed = false := by decide
theorem test_nop_slot_zero_refuses : (fieldsOf 0x00000100).nopSlotZero = false := by decide

/-! ### Decoding: words written out bit by bit from R80 and R81 (reserved, RAW, T, S, OPC) -/

theorem test_decode_nop : decode 0b0000000000000000000_0_00_00_00000000 = .ok .nop := by rfl
theorem test_decode_getpix : decode 0b0000000000000000000_1_00_10_00000001 = .ok (.getpix .s2 true) := by rfl
theorem test_decode_putpix : decode 0b0000000000000000000_0_00_11_00000010 = .ok (.putpix .s3 false) := by rfl
theorem test_decode_line : decode 0b0000000000000000000_1_00_11_00000011 = .ok (.line .s3 true) := by rfl
theorem test_decode_hline : decode 0b0000000000000000000_0_00_01_00000100 = .ok (.hline .s1 false) := by rfl
theorem test_decode_hlinew : decode 0b0000000000000000000_1_00_00_00000101 = .ok (.hlinew .s0 true) := by rfl
theorem test_decode_vline : decode 0b0000000000000000000_0_00_10_00000110 = .ok (.vline .s2 false) := by rfl
theorem test_decode_vlineh : decode 0b0000000000000000000_1_00_01_00000111 = .ok (.vlineh .s1 true) := by rfl
theorem test_decode_blit : decode 0b0000000000000000000_1_10_01_00001000 = .ok (.blit .s1 .s2 true) := by rfl
theorem test_decode_subview : decode 0b0000000000000000000_0_10_01_00001001 = .ok (.subview .s1 .s2) := by rfl
theorem test_decode_rotcw : decode 0b0000000000000000000_0_00_10_00001010 = .ok (.rotcw .s2) := by rfl
theorem test_decode_rotccw : decode 0b0000000000000000000_0_00_11_00001011 = .ok (.rotccw .s3) := by rfl
theorem test_decode_flipx : decode 0b0000000000000000000_0_00_01_00001100 = .ok (.flipx .s1) := by rfl
theorem test_decode_flipy : decode 0b0000000000000000000_0_00_01_00001101 = .ok (.flipy .s1) := by rfl

/-- The words V-EN lists as decoding to no row. -/
theorem test_decode_rejects :
    [0x0E, 0xFF, 0x2000, 0x80000002, 0x402, 0x100A, 0x1009, 0x100, 0x1000].map (decodeTableWord 32)
      = List.replicate 9 none := by rfl

/-! ### One step of each command -/

/-- V-ST: NOP from reset gives STATUS 0x2. -/
theorem test_nop_status : after State.reset 0 (seen 0 0) = some (2, []) := by decide

/-- V-C1: a negative coordinate is clipped, and RESULT is 0. -/
theorem test_getpix_clipped : after (idle (regs g8 g8 (-1) 1 0 0 0 0 0) (bytesFrom 0xFF [9, 9])) 1
    (fun t => t.result.toNat) = some 0 := by decide

/-- V-C4: GETPIX at logical (0, 0) of a 5 by 3 surface with ORIENT 3 reads physical (4, 0). -/
theorem test_getpix_turned : after (idle (regs (turned (surf 5 0x100 5 5 3 false) 3) g8 0 0 0 0 0 0 0)
    [(0x104, 0x44)]) 1 (fun t => t.result.toNat) = some 0x44 := by decide

/-- V-C3: PUTPIX masks the value to 2 bits and keeps the other pixels. -/
theorem test_putpix_masks : after (idle (regs (surf 3 0x100 1 4 1 false) g8 1 0 0 0 0 0 0xFFFFFFFE) []) 2
    (seen 0x100 1) = some (2, [0x08]) := by decide

/-- V-B6: the endpoints of LINE are turned first, then walked. -/
theorem test_line_turned : after (idle (regs (turned (surf 5 0x100 5 5 3 false) 3) g8 0 0 2 1 0 0 5) []) 3
    (seen 0x100 15) = some (2, [0, 0, 0, 0, 5, 0, 0, 0, 0, 5, 0, 0, 0, 5, 0]) := by decide

/-- V-B: a steep line and a falling one. -/
theorem test_line_walks : bresenham 0 0 2 5 = [(0, 0), (0, 1), (1, 2), (1, 3), (2, 4), (2, 5)] ∧
    bresenham 0 0 (-3) 1 = [(-3, 1), (-2, 1), (-1, 0), (0, 0)] := by decide

/-- V-H: HLINE on a BE G2 surface, with partial bytes at both ends. -/
theorem test_hline_packs : after (idle (regs (surf 3 0x100 2 8 2 true) g8 1 6 0 0 0 0 2) []) 4
    (seen 0x100 4) = some (2, [0x2A, 0xA8, 0, 0]) := by decide

/-- V-H: X_SWAP reverses an HLINE. -/
theorem test_hline_swapped : after (idle (regs (turned (surf 5 0x100 4 4 4 false) 2) g8 0 1 0 0 0 0 9) []) 4
    (seen 0x100 4) = some (2, [0, 0, 9, 9]) := by decide

/-- V-H: HLINEW from x = -3 with rw = 5 paints two pixels. -/
theorem test_hlinew_clips : after (idle (regs (surf 5 0x100 10 10 1 false) g8 (-3) 0 5 0 0 0 6) []) 5
    (seen 0x100 4) = some (2, [6, 6, 0, 0]) := by decide

/-- V-H: VLINE on a BE G1 surface sets the high bit of each row. -/
theorem test_vline_column : after (idle (regs (surf 2 0x100 1 8 4 true) g8 0 0 3 0 0 0 1) []) 6
    (seen 0x100 5) = some (2, [0x80, 0x80, 0x80, 0x80, 0]) := by decide

/-- V-H: VLINEH on a G4 surface. -/
theorem test_vlineh_column : after (idle (regs (surf 4 0x100 2 4 4 false) g8 1 1 2 0 0 0 0xA) []) 7
    (seen 0x100 6) = some (2, [0, 0, 0xA0, 0, 0xA0, 0]) := by decide

/-- V-T1: the corners in either order. -/
theorem test_blit_corners : after two 0x408 (seen 0x200 8) = some (2, [3, 4, 0, 0, 7, 8, 0, 0]) := by decide

/-- V-T2: an overlapping copy repeats the first pixel. -/
theorem test_blit_overlap : after (idle (regs (surf 5 0x100 4 4 1 false) g8 0 0 2 0 1 0 0) (bytesFrom 0x100 [1, 2, 3, 4]))
    8 (seen 0x100 4) = some (2, [1, 1, 1, 1]) := by decide

/-- V-SV1: SUBVIEW of a G1 surface at column 3. -/
theorem test_subview_fields : after (idle (regs (surf 2 0x100 2 16 4 false) Desc.reset 3 1 8 2 0 0 0) []) 0x409
    (fun t => [SlotReg.base, .stride, .dim, .fmt, .clipx, .clipy, .orient].map
      (fun f => (t.readReg (.slot .s1 f)).toNat))
    = some [0x102, 2, 0x00020008, 0x00030002, 0x00070000, 0x00010000, 0] := by decide

/-- V-SV4: a rectangle one column too wide. -/
theorem test_subview_bounds : after (idle (regs (surf 5 0x100 5 5 3 false) Desc.reset 4 0 2 1 0 0 0) []) 0x409
    (fun t => (t.statusWord.toNat, t.readReg (.slot .s1 .dim))) = some (0x806, 0) := by decide

/-- V-E6: ORIENT after a flag command, for each ORIENT before it. -/
def orients (cw : Nat) : List (Option Nat) :=
  (List.range 8).map fun o =>
    after (idle (regs (turned g8 o) g8 0 0 0 0 0 0 0) []) cw (fun t => (t.readReg (.slot .s0 .orient)).toNat)

theorem test_rotcw_table : orients 0xA = [3, 2, 7, 6, 1, 0, 5, 4].map some := by decide
theorem test_rotccw_table : orients 0xB = [5, 4, 1, 0, 7, 6, 3, 2].map some := by decide
theorem test_flipx_table : orients 0xC = [2, 3, 0, 1, 6, 7, 4, 5].map some := by decide
theorem test_flipy_table : orients 0xD = [4, 5, 6, 7, 0, 1, 2, 3].map some := by decide

/-! ### The host's side -/

/-- V-ST: a write to ARG0 while BUSY = 1 is lost, and STATUS then shows BUSY and WIGN. -/
theorem test_busy_write_lost :
    (match step { State.reset.withFetchWord 32 0 with inputs := [.regWrite 0x010 4 5] } with
      | .next t => some (t.regs.arg0.toNat, t.statusWord.toNat)
      | _ => none) = some (0, 9) := by decide

/-- V-ST: S0.FMT keeps its non-reserved bits. -/
theorem test_fmt_reads_back :
    (match step { State.reset with inputs := [.regWrite 0x10C 4 0xFFFFFFFF] } with
      | .next t => some (t.readReg (.slot .s0 .fmt)).toNat
      | _ => none) = some 0x0007011F := by decide

/-- R90: SETSURF with W = 0 writes CLIPX 0xFFFF0000, and W = 0x10001 with H = 1 ORs into DIM. -/
theorem test_setsurf_fields :
    (HostProgram.setsurf .s0 0 0 0 1 0 0 0)[4]? = some (.regWrite 0x110 4 0xFFFF0000) ∧
    (HostProgram.setsurf .s0 0 0 0x10001 1 0 0 0)[2]? = some (.regWrite 0x108 4 0x00010001) := by decide

/-- R67: a GETPIX of a clipped pixel on a surface with one byte not served as plain RAM is refused. -/
theorem test_unserved_surface_refused :
    step (State.withFetchWord { idle (regs g8 g8 (-1) 0 0 0 0 0 0) [] with unserved := [(0x106, 0x106)] } 32 1)
      = .refused .unservedMemory := by rfl

/-! ### Witnesses: states and operands that meet the hypotheses of each statement -/

/-- `two` with command word `cw` issued. -/
def busyWith (cw : Nat) : State := two.withFetchWord 32 cw

theorem witness_IllegalWordCompletesWithBadCmd :
    (busyWith 0x2000).inputs = [] ∧ (busyWith 0x2000).flight = some ⟨0x2000, two.regs⟩ ∧
    (fieldsOf 0x2000).wellFormed = false := by decide

theorem witness_StepRunsTheDecodedCommand :
    (busyWith 0x408).flight = some ⟨0x408, two.regs⟩ ∧ decode 0x408 = .ok (.blit .s0 .s1 false) ∧
    (busyWith 0x408).inputs = [] ∧ (given (busyWith 0x408) [.unit, .resetAssert]).inputs = .unit :: [.resetAssert] :=
  ⟨rfl, rfl, rfl, rfl⟩

theorem witness_CmdWriteIssuesOrIsLost :
    ((given two [.regWrite 0x00C 4 0x408]).inputs = .regWrite 0x00C 4 0x408 :: [] ∧ two.resetHeld = false ∧
      (given two [.regWrite 0x00C 4 0x408]).busy = false) ∧
    ((given (busyWith 0) [.regWrite 0x00C 4 0x408]).inputs = .regWrite 0x00C 4 0x408 :: [] ∧
      (busyWith 0).resetHeld = false ∧ (given (busyWith 0) [.regWrite 0x00C 4 0x408]).busy = true) ∧
    (given two [.regRead 0x00C 4]).inputs = .regRead 0x00C 4 :: [] := by decide

theorem witness_StepKeepsMemoryCanonical :
    two.mem.wf = true ∧ two.mem.inSpace = true ∧ ∃ t, step (busyWith 0x408) = .next t :=
  ⟨by decide, by decide, _, rfl⟩

theorem witness_StepKeepsTheSnapshotCurrent :
    (busyWith 0x408).snapshotCurrent ∧ (busyWith 0x408).busyExcludesDone ∧ ∃ t, step (busyWith 0x408) = .next t :=
  ⟨fun _ h => by cases h; rfl, fun _ => rfl, _, rfl⟩

/-- `two` with the reset input asserted. -/
def held : State := { two.resetRegisters with resetHeld := true }

/-- Every register at its reset value and the reset input asserted, with a step to take. -/
theorem witness_StepKeepsTheAssertedReset :
    held.resetHolds ∧ held.resetHeld = true ∧ ∃ t, step (given held [.regWrite 0x010 4 5]) = .next t :=
  ⟨fun _ => rfl, rfl, _, rfl⟩

theorem witness_CommandsWriteOnlyTheirRegisters : ∃ t, exec (.blit .s0 .s1 false) two = .next t := ⟨_, rfl⟩

theorem witness_CommandsWriteOnlyTheirFootprint :
    two.mem.wf = true ∧ (∃ t, exec (.blit .s0 .s1 false) two = .next t) ∧
    (∀ sl, pixelSlot (.blit .s0 .s1 false) = some sl → (two.operands.desc sl).covers 0x208 = false) ∧
    (two.operands.desc .s1).covers 0x207 = true := by
  refine ⟨by decide, ⟨_, rfl⟩, ?_, by decide⟩
  rintro sl h
  cases h
  decide

theorem witness_CommandsReadOnlyTheirFootprints :
    two.mem.wf = true ∧ (two.mem.write 0x300 5).wf = true ∧
    (∀ a sl, sl ∈ usedSlots (.blit .s0 .s1 false) → (two.operands.desc sl).covers a = true →
      two.mem.read a = (two.mem.write 0x300 5).read a) ∧
    ∃ t, exec (.blit .s0 .s1 false) two = .next t := by
  refine ⟨by decide, by decide, ?_, _, rfl⟩
  intro a sl hs ha
  by_cases h : a = 0x300
  · subst h
    revert ha
    cases sl <;> decide
  · simp [two, idle, bytesFrom, Memory.write, Memory.blank, Memory.read, Ne.symm h]

theorem witness_NopOnlyCompletes : (0x2000 : Word) ≠ 0 ∧ (0x2000 : Word).extractLsb' 0 8 = 0 := by decide

theorem witness_OrientationGroupCloses :
    two.busy = false ∧ (two.regs.desc .s0).setOrient false false false = two.regs.desc .s0 := by decide

/-- `two` with other arguments. -/
def twoWith (a0 a1 a2 a3 a4 a5 : Int) : State := idle (regs g8 (surf 5 0x200 4 4 2 false) a0 a1 a2 a3 a4 a5 7) two.mem

/-- At the far corner of the parent: the last column that still fits. -/
theorem witness_SubviewWritesTheResultSlot :
    checkSurface g8 = .ok .k8 ∧ (twoWith 1 1 3 1 0 0).serves g8 ∧ 0 < count (twoWith 1 1 3 1 0 0).operands.arg2 ∧
    0 < count (twoWith 1 1 3 1 0 0).operands.arg3 ∧ 0 ≤ coord (twoWith 1 1 3 1 0 0).operands.arg0 ∧
    0 ≤ coord (twoWith 1 1 3 1 0 0).operands.arg1 ∧
    coord (twoWith 1 1 3 1 0 0).operands.arg0 + count (twoWith 1 1 3 1 0 0).operands.arg2 ≤ g8.logicalWidth ∧
    coord (twoWith 1 1 3 1 0 0).operands.arg1 + count (twoWith 1 1 3 1 0 0).operands.arg3 ≤ g8.logicalHeight :=
  ⟨rfl, fun _ _ => rfl, by decide, by decide, by decide, by decide, by decide, by decide⟩

theorem witness_SubviewIsLegalAndAliasesItsParent :
    ∃ t, exec (.subview .s0 .s1) (twoWith 1 1 3 1 0 0) = .next t ∧ t.errcode = .ok := ⟨_, rfl, rfl⟩

/-- Each way out, by one: empty, negative, one column or row too many; and a SUBVIEW that has raised. -/
theorem witness_SubviewRaisesOutsideItsParent :
    checkSurface g8 = .ok .k8 ∧ count (twoWith 0 0 0 1 0 0).operands.arg2 = 0 ∧
    count (twoWith 0 0 1 0 0 0).operands.arg3 = 0 ∧ coord (twoWith (-1) 0 1 1 0 0).operands.arg0 < 0 ∧
    coord (twoWith 0 (-1) 1 1 0 0).operands.arg1 < 0 ∧
    coord (twoWith 1 0 4 1 0 0).operands.arg0 + count (twoWith 1 0 4 1 0 0).operands.arg2 > g8.logicalWidth ∧
    coord (twoWith 0 1 1 2 0 0).operands.arg1 + count (twoWith 0 1 1 2 0 0).operands.arg3 > g8.logicalHeight ∧
    ∃ t, exec (.subview .s0 .s1) (twoWith 1 0 4 1 0 0) = .next t ∧ t.errcode = .subviewBounds :=
  ⟨rfl, by decide, by decide, by decide, by decide, by decide, by decide, _, rfl, rfl⟩

/-- A legal, served slot; of a clipped and of an unclipped coordinate. -/
theorem witness_GetpixReadsThePixel :
    checkSurface (two.operands.desc .s0) = .ok .k8 ∧ two.serves (two.operands.desc .s0) ∧
    clipped g8 (mapPoint g8 false 3 1) = false ∧ clipped g8 (mapPoint g8 false 4 1) = true :=
  ⟨rfl, fun _ _ => rfl, by decide, by decide⟩

/-- Shared by PUTPIX, LINE and the run commands, whose statements have the same hypotheses. -/
theorem witness_PutpixPaintsOnePixel :
    two.mem.wf = true ∧ checkSurface (two.operands.desc .s0) = .ok .k8 ∧ two.serves (two.operands.desc .s0) :=
  ⟨by decide, rfl, fun _ _ => rfl⟩

theorem witness_LinePaintsTheBresenhamPoints :
    two.mem.wf = true ∧ checkSurface (two.operands.desc .s1) = .ok .k8 ∧ two.serves (two.operands.desc .s1) :=
  ⟨by decide, rfl, fun _ _ => rfl⟩

theorem witness_RunCommandsPaintTheirRuns :
    two.mem.wf = true ∧ checkSurface (two.operands.desc .s0) = .ok .k8 ∧ two.serves (two.operands.desc .s0) :=
  ⟨by decide, rfl, fun _ _ => rfl⟩

/-- A run that meets the clip, and one that misses it. -/
theorem witness_HlineEqualsItsRunForm :
    (twoWith (-1) 2 1 0 0 0).mem.wf = true ∧ checkSurface g8 = .ok .k8 ∧ (twoWith (-1) 2 1 0 0 0).serves g8 ∧
    g8.axesSwap = false ∧
    coord (twoWith (-1) 2 1 0 0 0).operands.arg0 ≤ coord (twoWith (-1) 2 1 0 0 0).operands.arg1 ∧
    coord (twoWith 4 9 1 0 0 0).operands.arg0 ≤ coord (twoWith 4 9 1 0 0 0).operands.arg1 :=
  ⟨by decide, rfl, fun _ _ => rfl, rfl, by decide, by decide⟩

/-- An HLINEW on an upright slot, and a VLINE and a VLINEH on a turned one. -/
theorem witness_OtherRunsEqualTheirRunForm :
    (two.mem.wf = true ∧ checkSurface g8 = .ok .k8 ∧ two.serves g8 ∧ g8.axesSwap = false ∧
      0 < count (twoWith 1 1 3 0 0 0).operands.arg2) ∧
    (checkSurface (turned g8 1) = .ok .k8 ∧ two.serves (turned g8 1) ∧ (turned g8 1).axesSwap = true ∧
      coord (twoWith 0 0 3 0 0 0).operands.arg1 ≤ coord (twoWith 0 0 3 0 0 0).operands.arg2) :=
  ⟨⟨by decide, rfl, fun _ _ => rfl, rfl, by decide⟩, rfl, fun _ _ => rfl, rfl, by decide⟩

theorem witness_WidthFormsEqualEndpointForms :
    (twoWith 1 1 3 0 0 0).busy = false ∧ (twoWith 2 0 2 0 0 0).busy = false ∧
    (coord 1 = coord (twoWith 1 1 3 0 0 0).regs.arg0 ∧
      coord 3 = coord (twoWith 1 1 3 0 0 0).regs.arg0 + count (twoWith 1 1 3 0 0 0).regs.arg2 - 1 ∧
      coord 1 = coord (twoWith 1 1 3 0 0 0).regs.arg1 ∧
      ∃ t, exec (.hlinew .s0 false) ((twoWith 1 1 3 0 0 0).issue (encode (.hlinew .s0 false))) = .next t) ∧
    (coord 2 = coord (twoWith 2 0 2 0 0 0).regs.arg0 ∧ coord 0 = coord (twoWith 2 0 2 0 0 0).regs.arg1 ∧
      coord 1 = coord (twoWith 2 0 2 0 0 0).regs.arg1 + count (twoWith 2 0 2 0 0 0).regs.arg2 - 1 ∧
      ∃ t, exec (.vlineh .s0 false) ((twoWith 2 0 2 0 0 0).issue (encode (.vlineh .s0 false))) = .next t) :=
  ⟨rfl, rfl, ⟨by decide, by decide, by decide, _, rfl⟩, by decide, by decide, by decide, _, rfl⟩

/-- Each case of the properties of Bresenham's list: along x, along y, shallow and steep; and its first and last entry. -/
theorem witness_BresenhamWalksTheSegment :
    (2 : Int) = 2 ∧ ((2 - 2 : Int)).natAbs ≤ ((5 - 1 : Int)).natAbs ∧ ((2 - 2 : Int)).natAbs < ((5 - 1 : Int)).natAbs ∧
    (1 : Int) < 5 ∧ ((0 : Nat) : Int) ≤ 5 - 1 ∧ ((4 : Nat) : Int) ≤ 5 - 1 := by decide

/-- The hypotheses of both BLIT statements, at the far edges of both surfaces, with the corners in falling order. -/
theorem witness_BlitCopiesInRowMajorOrder : let s := twoWith 3 1 2 0 2 0
    checkSurface (s.operands.desc .s0) = .ok .k8 ∧ checkSurface (s.operands.desc .s1) = .ok .k8 ∧
    s.serves (s.operands.desc .s0) ∧ s.serves (s.operands.desc .s1) ∧
    0 ≤ min (coord s.operands.arg0) (coord s.operands.arg2) ∧ 0 ≤ min (coord s.operands.arg1) (coord s.operands.arg3) ∧
    max (coord s.operands.arg0) (coord s.operands.arg2) < (s.operands.desc .s0).boundWidth false ∧
    max (coord s.operands.arg1) (coord s.operands.arg3) < (s.operands.desc .s0).boundHeight false ∧
    0 ≤ coord s.operands.arg4 ∧ 0 ≤ coord s.operands.arg5 ∧
    coord s.operands.arg4 + (max (coord s.operands.arg0) (coord s.operands.arg2)
      - min (coord s.operands.arg0) (coord s.operands.arg2) + 1) ≤ (s.operands.desc .s1).boundWidth false ∧
    coord s.operands.arg5 + (max (coord s.operands.arg1) (coord s.operands.arg3)
      - min (coord s.operands.arg1) (coord s.operands.arg3) + 1) ≤ (s.operands.desc .s1).boundHeight false :=
  ⟨rfl, rfl, fun _ _ => rfl, fun _ _ => rfl, by decide, by decide, by decide, by decide, by decide, by decide, by decide,
    by decide⟩

/-- Beside the hypotheses above: the footprints share no byte, and offset (0, 0) is in the rectangle while destination
pixel (0, 0) is not. -/
theorem witness_BlitBetweenDisjointSurfaces : let s := twoWith 3 1 2 0 2 0
    s.mem.wf = true ∧
    (∀ a, (s.operands.desc .s0).covers a = true → (s.operands.desc .s1).covers a = false) ∧
    mapPoint (s.operands.desc .s1) false 2 0 ≠ ((0 : Int), (0 : Int)) := by
  refine ⟨by decide, ?_, by decide⟩
  intro a h
  simp [twoWith, idle, regs, State.operands, State.reset, Regs.desc, Slots.get, Desc.covers, g8, surf, bppRom, bppTable,
    Desc.rowBytes, ceil8, Desc.reset] at h ⊢
  intro x hx
  obtain ⟨y, hy, h1, h2⟩ := h
  interval_cases x <;> interval_cases y <;> omega

/-- Each of the eight bounds, passed by one. -/
theorem witness_BlitRaisesOutOfBounds :
    checkSurface g8 = .ok .k8 ∧ checkSurface (two.operands.desc .s1) = .ok .k8 ∧
    (let r := (twoWith (-1) 0 0 0 0 0).operands; min (coord r.arg0) (coord r.arg2) < 0) ∧
    (let r := (twoWith 0 (-1) 0 0 0 0).operands; min (coord r.arg1) (coord r.arg3) < 0) ∧
    (let r := (twoWith 4 0 0 0 0 0).operands; max (coord r.arg0) (coord r.arg2) ≥ g8.logicalWidth) ∧
    (let r := (twoWith 0 2 0 0 0 0).operands; max (coord r.arg1) (coord r.arg3) ≥ g8.logicalHeight) ∧
    (let r := (twoWith 0 0 0 0 (-1) 0).operands; coord r.arg4 < 0) ∧
    (let r := (twoWith 0 0 0 0 0 (-1)).operands; coord r.arg5 < 0) ∧
    (let r := (twoWith 0 0 3 0 1 0).operands; coord r.arg4 + (coord r.arg2 - coord r.arg0 + 1) > g8.logicalWidth) ∧
    (let r := (twoWith 0 0 0 1 0 1).operands; coord r.arg5 + (coord r.arg3 - coord r.arg1 + 1) > g8.logicalHeight) :=
  ⟨rfl, rfl, by decide, by decide, by decide, by decide, by decide, by decide, by decide, by decide⟩

theorem witness_RawWriteThenReadReturnsTheValue :
    (bytesFrom 0 [0xB6]).wf = true ∧ 4 ∈ [1, 2, 4, 8, 16, 24, 32] ∧ 4 < 8 ∧ 4 % 4 = 0 ∧ 15 < 2 ^ 4 := by decide

/-- A sub-byte and a wide write, each with a place outside the pixel next to it. -/
theorem witness_RawWriteChangesOnlyThePixel :
    (bytesFrom 0 [0xB6]).wf = true ∧ 7 < 8 ∧
    (2 ∈ [1, 2, 4, 8, 16, 24, 32] ∧ 4 < 8 ∧ 4 % 2 = 0 ∧ ¬ (0 = 0 ∧ 4 ≤ 6 ∧ 6 < 4 + 2)) ∧
    (24 ∈ [1, 2, 4, 8, 16, 24, 32] ∧ 8 ≤ 24 ∧ ¬ (0 ≤ 3 ∧ 3 < 0 + 24 / 8)) := by decide

/-- A run of six 2-bit pixels from position 4, which covers the second byte whole and ends with the third byte's first
half, and a wide run, with the byte on either side of each. -/
theorem witness_RunOverAByteReplicates :
    (bytesFrom 0 [0xB6]).wf = true ∧ 2 ∈ [1, 2, 4] ∧ 4 < 8 ∧ 4 % 2 = 0 ∧
    (1 ≤ 2 ∧ 4 ≤ 8 * (2 - 1) ∧ 8 * (2 - 1) + 8 ≤ 4 + 8 * 2) ∧ 0 < 1 ∧ 4 + 8 * 2 ≤ 8 * (4 - 1) ∧
    24 ∈ [8, 16, 24, 32] ∧ 1 < 2 ∧ 2 < 24 / 8 ∧ 1 + 2 * (24 / 8) ≤ 7 := by decide

theorem witness_DispatchSelectsTheKernel :
    10 ≤ (17 : BitVec 5).toNat ∧ (17 : BitVec 5).toNat ≤ 17 ∧ 18 ≤ (18 : BitVec 5).toNat ∧
    24 ∈ [1, 2, 4, 8, 16, 24, 32] ∧ 3 ∉ [1, 2, 4, 8, 16, 24, 32] ∧ 8 ≤ 8 := by decide

theorem witness_WideSurfacesIgnoreEndian :
    two.busy = false ∧ bppRom (two.regs.desc .s0).ptype = some 8 ∧ 8 ≤ 8 ∧
    (∀ p q, Instr.blit .s0 .s1 false ≠ .subview p q) ∧
    (∃ t, exec (.blit .s0 .s1 false) (two.issue (encode (.blit .s0 .s1 false))) = .next t) ∧
    ∃ t, exec (.subview .s0 .s1) ((twoWith 1 1 3 1 0 0).issue (encode (.subview .s0 .s1))) = .next t :=
  ⟨rfl, rfl, by decide, fun _ _ h => by (cases h), ⟨_, rfl⟩, _, rfl⟩

theorem witness_TypesOfOneWidthShareAKernel :
    two.busy = false ∧ bppRom 1 = bppRom (two.regs.desc .s0).ptype ∧
    (∀ p q, Instr.line .s0 false ≠ .subview p q) ∧ (∀ p q raw, Instr.line .s0 false ≠ .blit p q raw) ∧
    ∃ t, exec (.line .s0 false) (two.issue (encode (.line .s0 false))) = .next t :=
  ⟨rfl, rfl, fun _ _ h => by (cases h), fun _ _ _ h => by (cases h), _, rfl⟩

/-- The boundary types, and a slot for each of the three last clauses: bad descriptor, bad clip, legal at the very end
of memory (V-ER). -/
theorem witness_SlotCheckFollowsItsOrder :
    17 < (surf 18 0 4 4 2 false).ptype.toNat ∧ bppRom (surf 17 0 16 4 2 false).ptype = some 32 ∧
    ((surf 5 0xFFFFFFF2 5 5 3 false).base.toNat + 5 * (3 - 1) + 5 > 2 ^ 32) ∧
    ({ surf 5 0x100 5 5 3 false with xmax := 5 } : Desc).clipOk = false ∧
    (surf 5 0xFFFFFFF1 5 5 3 false).base.toNat + 5 * (3 - 1) + 5 ≤ 2 ^ 32 ∧
    checkSurface (surf 5 0xFFFFFFF1 5 5 3 false) = .ok .k8 :=
  ⟨by decide, rfl, by decide, by decide, by decide, rfl⟩

/-- The last pixel and the one before it. -/
theorem witness_LegalSurfacePixelsAreWholeAndDisjoint :
    checkSurface (surf 3 0x100 2 8 2 true) = .ok .k2be ∧ 7 < (surf 3 0x100 2 8 2 true).width.toNat ∧
    1 < (surf 3 0x100 2 8 2 true).height.toNat ∧ (6, 1) ≠ (7, 1) ∧ clipped (surf 3 0x100 2 8 2 true) (7, 1) = false :=
  ⟨rfl, by decide, by decide, by decide, by decide⟩

/-- The corners of a turned 5 by 3 surface, and the coordinates next to them. -/
theorem witness_OrientationMapsBoxOntoBox :
    (turned (surf 5 0x100 5 5 3 false) 3).holdsLogical (2, 4) ∧
    ¬ (turned (surf 5 0x100 5 5 3 false) 3).holdsLogical (3, 4) ∧
    ¬ (turned (surf 5 0x100 5 5 3 false) 3).holdsLogical (-1, 0) ∧
    (turned (surf 5 0x100 5 5 3 false) 3).holds (4, 2) := by
  simp [Desc.holdsLogical, Desc.holds, turned, surf, Desc.setOrient, Desc.logicalWidth, Desc.logicalHeight]

theorem witness_ErrorsArePrecise :
    ∃ t, exec (.blit .s0 .s1 false) (twoWith 4 0 0 0 0 0) = .next t ∧ t.errcode ≠ .ok := ⟨_, rfl, by decide⟩

/-- A failing first slot, and a legal source before a failing destination (V-T7). -/
theorem witness_SlotChecksRaiseFirst :
    let s := idle (regs (surf 18 0 4 4 2 false) g8 0 0 0 0 0 0 0) []
    checkSurface (s.operands.desc .s0) = .error .badPtype ∧ checkSurface (s.operands.desc .s1) = .ok .k8 := ⟨rfl, rfl⟩

/-- A BLIT and a SUBVIEW out of bounds, and a flag command. -/
theorem witness_EachCommandHasItsErrorCodes :
    (∃ t, exec (.blit .s0 .s1 false) (twoWith 4 0 0 0 0 0) = .next t ∧ t.errcode = .blitBounds) ∧
    (∃ t, exec (.subview .s0 .s1) (twoWith 4 0 1 1 0 0) = .next t ∧ t.errcode = .subviewBounds) ∧
    (∃ t, exec (.rotcw .s3) two = .next t) := ⟨⟨_, rfl, rfl⟩, ⟨_, rfl, rfl⟩, _, rfl⟩

theorem witness_IdleRegisterWritesReadBack :
    (Reg.slot .s3 .fmt).isOperand = true ∧ two.resetHeld = false ∧ two.busy = false ∧
    (given two [.regWrite 0x16C 4 0xFFFFFFFF]).inputs = .regWrite (Reg.slot .s3 .fmt).offset 4 0xFFFFFFFF :: [] ∧
    Reg.arg0 ≠ .slot .s3 .fmt := by decide

/-- A busy and an idle state with each kind of register write waiting. -/
theorem witness_BusyRegisterWritesAreLost :
    (busyWith 0).resetHeld = false ∧ two.resetHeld = false ∧ (busyWith 0).busy = true ∧ two.busy = false ∧
    Reg.arg5.isOperand = true ∧ (1 : Word).getLsbD 1 = false ∧
    ([Reg.arg5, .cmd, .ctrl, .status, .id, .result, .reserved].all fun g =>
      [busyWith 0, two].all fun s =>
        decide ((given s [.regWrite g.offset 4 1]).inputs = .regWrite g.offset 4 1 :: [])) = true := by decide

theorem witness_RegisterReadsChangeNothing :
    (given two [.regRead 0x178 4]).inputs = .regRead (Reg.slot .s3 .orient).offset 4 :: [] := by decide

/-- Both ends of each reserved range. -/
theorem witness_ReservedOffsetsReadZeroAndIgnoreWrites :
    ([0x030, 0x0FC, 0x11C, 0x13C, 0x15C, 0x17C, 0x180, 0x1FC].all fun off =>
      decide (off % 4 = 0 ∧
        (0x030 ≤ off ∧ off ≤ 0x0FC ∨ off = 0x11C ∨ off = 0x13C ∨ off = 0x15C ∨ off = 0x17C ∨
          0x180 ≤ off ∧ off ≤ 0x1FC) ∧
        (given two [.regWrite off 4 7]).inputs = .regWrite off 4 7 :: [] ∧
        (given two [.regRead off 4]).inputs = .regRead off 4 :: [])) = true := by decide

theorem witness_NarrowRegisterAccessIsRefused :
    (2 ≠ 4 ∨ 0x010 % 4 ≠ 0) ∧ (4 ≠ 4 ∨ 0x012 % 4 ≠ 0) ∧
    (given two [.regWrite 0x010 2 7]).inputs = .regWrite 0x010 2 7 :: [] ∧
    (given two [.regRead 0x012 4]).inputs = .regRead 0x012 4 :: [] := by decide

/-- A completion, and each of the events that lower the interrupt. -/
theorem witness_InterruptFollowsDone :
    (∃ t, exec .nop two = .next t) ∧ two.resetHeld = false ∧
    (∃ t, step (given two [.regWrite 0x00C 4 0]) = .next t) ∧ two.busy = false ∧
    (∃ t, step (given two [.regWrite 0x008 4 2]) = .next t) ∧ (2 : Word).getLsbD 1 = true ∧
    (∃ t, step (given two [.regWrite 0x004 4 0]) = .next t) ∧ (0 : Word).getLsbD 0 = false ∧
    (∃ t, step (given two [.regWrite 0x004 4 3]) = .next t) ∧ (3 : Word).getLsbD 1 = true ∧
    (∃ t, step (given two [.resetAssert]) = .next t) :=
  ⟨⟨_, rfl⟩, rfl, ⟨_, rfl⟩, rfl, ⟨_, rfl⟩, rfl, ⟨_, rfl⟩, rfl, ⟨_, rfl⟩, rfl, _, rfl⟩

theorem witness_IdleResetKeepsMemory :
    two.busy = false ∧ two.resetHeld = false ∧ (given two [.resetAssert]).inputs = .resetAssert :: [] ∧
    (given two [.regWrite 0x004 4 3]).inputs = .regWrite 0x004 4 3 :: [] ∧ (3 : Word).getLsbD 1 = true ∧
    held.busy = false ∧ held.resetHeld = true ∧ (given held [.resetRelease]).inputs = .resetRelease :: [] := by decide

/-- The reset input asserted, with a write and a read of a register waiting. -/
theorem witness_AssertedResetHoldsTheRegisters :
    held.resetHeld = true ∧ held.resetHolds ∧
    (given held [.regWrite 0x00C 4 0]).inputs = .regWrite Reg.cmd.offset 4 0 :: [] ∧
    (given held [.regRead 0x000 4]).inputs = .regRead Reg.id.offset 4 :: [] := ⟨rfl, fun _ => rfl, rfl, rfl⟩

/-- A BLIT with pixels to copy in flight, and a word that raises, each with a soft reset or the reset input waiting. -/
theorem witness_SoftResetAbortsAtAPixelBoundary :
    (given (busyWith 0x408) [.regWrite 0x004 4 2]).inputs = .regWrite 0x004 4 2 :: [] ∧ (2 : Word).getLsbD 1 = true ∧
    (given (busyWith 0x408) [.resetAssert]).inputs = .resetAssert :: [] ∧ (busyWith 0x408).resetHeld = false ∧
    (busyWith 0x408).flight = some ⟨0x408, two.regs⟩ ∧
    (∃ p, Flight.plan ⟨0x408, two.regs⟩ = .ok p ∧ p.writes.length = 4 ∧ ∀ d ∈ p.surfaces, (busyWith 0x408).serves d) ∧
    Flight.plan ⟨0x2000, two.regs⟩ = .error .badCmd :=
  ⟨rfl, rfl, rfl, rfl, rfl, ⟨_, rfl, rfl, fun _ _ _ _ => rfl⟩, rfl⟩

/-- The last byte of the destination of a BLIT in flight. -/
theorem witness_FootprintRacesAreRefused :
    (busyWith 0x408).flight = some ⟨0x408, two.regs⟩ ∧ decode 0x408 = .ok (.blit .s0 .s1 false) ∧
    Slot.s1 ∈ usedSlots (.blit .s0 .s1 false) ∧ (two.regs.desc .s1).covers (0x207 : Word).toNat = true ∧
    (given (busyWith 0x408) [.memWrite 0x207 1]).inputs = .memWrite 0x207 1 :: [] ∧
    (given (busyWith 0x408) [.memRead 0x207]).inputs = .memRead 0x207 :: [] :=
  ⟨rfl, rfl, by decide, by decide, rfl, rfl⟩

/-- A BLIT in flight and a byte past both its footprints, served and not served. -/
theorem witness_HostReachesMemoryByteByByte :
    (busyWith 0x408).mem.wf = true ∧ (busyWith 0x408).flight = some ⟨0x408, two.regs⟩ ∧
    decode 0x408 = .ok (.blit .s0 .s1 false) ∧
    ((usedSlots (.blit .s0 .s1 false)).all fun sl => !(two.regs.desc sl).covers (0x208 : Word).toNat) = true ∧
    servedByte (busyWith 0x408).unserved (0x208 : Word).toNat = true ∧
    servedByte { busyWith 0x408 with unserved := [(0x208, 0x20F)] }.unserved (0x208 : Word).toNat = false ∧
    (given (busyWith 0x408) [.memWrite 0x208 1]).inputs = .memWrite 0x208 1 :: [] ∧
    (given (busyWith 0x408) [.memRead 0x208]).inputs = .memRead 0x208 :: [] :=
  ⟨by decide, rfl, rfl, by decide, rfl, rfl, rfl, rfl⟩

/-- A BLIT of one pixel into a surface whose last byte, which the copy does not touch, a platform does not serve; and one
into its first byte. -/
theorem witness_UnservedMemoryIsRefused :
    let s := { twoWith 0 0 0 0 0 0 with unserved := [(0x207, 0x207)] }
    let u := { twoWith 0 0 0 0 0 0 with unserved := [(0x200, 0x200)] }
    (∃ p, planOf (.blit .s0 .s1 false) s.operands = .ok p ∧ servedByte s.unserved 0x207 = false ∧
      Slot.s1 ∈ usedSlots (.blit .s0 .s1 false) ∧ (s.operands.desc .s1).covers 0x207 = true ∧ 0x207 ∉ p.bytes) ∧
    (∃ p, planOf (.blit .s0 .s1 false) u.operands = .ok p ∧ servedByte u.unserved 0x200 = false ∧ 0x200 ∈ p.bytes) :=
  ⟨⟨_, rfl, rfl, by decide, by decide, by decide⟩, _, rfl, rfl, by decide⟩

theorem witness_PollEndsAfterTheCommand :
    (busyWith 0x408).flight = some ⟨0x408, two.regs⟩ ∧ (given (busyWith 0x408) [.poll]).inputs = .poll :: [] ∧
    ∀ p, Flight.plan ⟨0x408, two.regs⟩ = .ok p → ∀ d ∈ p.surfaces, (busyWith 0x408).serves d :=
  ⟨rfl, rfl, fun _ _ _ _ _ _ => rfl⟩

theorem witness_CompletionWinsOverStatusClear :
    (busyWith 0x408).busy = true ∧
    (given (busyWith 0x408) [.statusAtCompletion 2]).inputs = .statusAtCompletion 2 :: [] ∧
    ∃ t, step (given (busyWith 0x408) [.statusAtCompletion 2]) = .next t := ⟨rfl, rfl, _, rfl⟩

end Sys2Proof.Tests
end

section
/-! PROOF. What one step answers for each input of the host, and what a register write answers in each case: the
equations the statements about the host interface rest on. -/

namespace Sys2Proof.Machine

/-! ### The register window -/

theorem windowAccess_narrow {off size : Nat} (h : size ≠ 4 ∨ off % 4 ≠ 0) :
    windowAccess off size = .error .narrowRegisterAccess := if_pos h

theorem windowAccess_aligned {off : Nat} (h4 : off % 4 = 0) (hw : off < 0x200) : windowAccess off 4 = .ok (regAt off) := by
  unfold windowAccess
  rw [if_neg (by omega), if_neg (by omega)]

/-- The reserved offsets of R28: the gaps around the slots, and the last word of each slot. -/
theorem regAt_reserved {off : Nat} (h : 0x030 ≤ off ∧ off ≤ 0x0FC ∨ off = 0x11C ∨ off = 0x13C ∨ off = 0x15C ∨ off = 0x17C ∨
    0x180 ≤ off ∧ off ≤ 0x1FC) : regAt off = .reserved := by
  by_cases hgap : 0x030 ≤ off ∧ (off < 0x100 ∨ 0x180 ≤ off)
  · unfold regAt
    split
    any_goals omega
    exact if_pos hgap.2
  · obtain rfl | rfl | rfl | rfl : off = 0x11C ∨ off = 0x13C ∨ off = 0x15C ∨ off = 0x17C := by omega
    all_goals rfl

/-! ### One step of a host access -/

variable {s : State} {off size : Nat} {v : Word} {g : Reg} {a : Word} {b : Byte} {rest : List Input}

theorem step_regWrite (hi : s.inputs = .regWrite off size v :: rest) (hg : windowAccess off size = .ok g) :
    step s = State.hostWrite { s with inputs := rest } g v := by
  simp only [step_cons hi, State.applyInput, hg]

theorem readReg_inputs (s : State) (l : List Input) (g : Reg) : State.readReg { s with inputs := l } g = s.readReg g := by
  cases g <;> rfl

theorem step_regRead (hi : s.inputs = .regRead off size :: rest) (hg : windowAccess off size = .ok g) :
    step s = .next { s with inputs := rest, readLog := s.readReg g :: s.readLog } := by
  simp only [step_cons hi, State.applyInput, hg, readReg_inputs]
  rfl

theorem step_regWrite_refused {r : Refusal} (hi : s.inputs = .regWrite off size v :: rest)
    (hg : windowAccess off size = .error r) : step s = .refused r := by
  simp only [step_cons hi, State.applyInput, hg]

theorem step_regRead_refused {r : Refusal} (hi : s.inputs = .regRead off size :: rest)
    (hg : windowAccess off size = .error r) : step s = .refused r := by
  simp only [step_cons hi, State.applyInput, hg]

theorem step_memWrite (hi : s.inputs = .memWrite a b :: rest) :
    step s = State.hostAccess { s with inputs := rest } a.toNat { s with inputs := rest, mem := s.mem.write a.toNat b } := by
  rw [step_cons hi]; rfl

theorem step_memRead (hi : s.inputs = .memRead a :: rest) :
    step s = State.hostAccess { s with inputs := rest } a.toNat
      { s with inputs := rest, readLog := (s.mem.read a.toNat).setWidth 32 :: s.readLog } := by
  rw [step_cons hi]; rfl

/-! ### A host register write, the reset input deasserted (R44) -/

theorem hostWrite_ctrl (hr : s.resetHeld = false) (hv : v.getLsbD 1 = false) :
    s.hostWrite .ctrl v = .next { s with irqEn := v.getLsbD 0 } := by
  simp only [State.hostWrite, hr, hv, Bool.false_eq_true, if_false]

theorem hostWrite_status (hr : s.resetHeld = false) : s.hostWrite .status v = .next (s.clearStatus v) := by
  simp [State.hostWrite, hr]

theorem hostWrite_cmd_idle (hr : s.resetHeld = false) (hb : s.busy = false) :
    s.hostWrite .cmd v = .next (s.issue v) := by
  simp [State.hostWrite, hr, hb]

theorem hostWrite_operand_idle (hg : g.isOperand = true) (hr : s.resetHeld = false) (hb : s.busy = false) :
    s.hostWrite g v = .next { s with regs := s.regs.write g v } := by
  cases g with
  | id | ctrl | status | cmd | result | reserved => cases hg
  | _ => simp [State.hostWrite, hr, hb]

theorem hostWrite_busy (hg : g.isOperand = true ∨ g = .cmd) (hr : s.resetHeld = false) (hb : s.busy = true) :
    s.hostWrite g v = .next s.ignoredWrite := by
  cases g with
  | id | ctrl | status | result | reserved => rcases hg with hg | hg <;> cases hg
  | _ => simp [State.hostWrite, hr, hb]

theorem hostWrite_readOnly (hg : g = .id ∨ g = .result ∨ g = .reserved) : s.hostWrite g v = .next s := by
  rcases hg with rfl | rfl | rfl <;> simp [State.hostWrite]

/-! ### A host memory access -/

theorem races_eq_false (h : ∀ f i sl, s.flight = some f → decode f.word = .ok i → sl ∈ usedSlots i →
    (f.regs.desc sl).covers a.toNat = false) : s.races a.toNat = false := by
  unfold State.races
  split
  · rfl
  · rename_i f hf
    split
    · rfl
    · rename_i i hd
      simpa using fun sl => h f i sl hf hd

theorem hostAccess_served {n : Nat} {u : State} (hr : s.races n = false) (hs : servedByte s.unserved n = true) :
    s.hostAccess n u = .next u := by
  simp [State.hostAccess, hr, hs]

theorem hostAccess_unserved {n : Nat} {u : State} (hr : s.races n = false) (hs : servedByte s.unserved n = false) :
    s.hostAccess n u = .refused .unservedMemory := by
  simp [State.hostAccess, hr, hs]

end Sys2Proof.Machine
end

section
/-! PROOF. What an operand register reads as after a write, of itself and of another (R25, R26, R32). -/

namespace Sys2Proof.Machine

/-- The non-reserved bits of a slot register (R32 to R39). -/
def SlotReg.storedBits : SlotReg → Word
  | .fmt => 0x0007011F
  | .orient => 0x00000007
  | .base | .stride | .dim | .clipx | .clipy => 0xFFFFFFFF

theorem and_fullMask (v : Word) : v &&& 0xFFFFFFFF = v := BitVec.and_allOnes

/-- The half-words of a word, put back at their places (R35, R37, R38). -/
theorem halfWords_append (v : Word) : v.extractLsb' 16 16 ++ v.extractLsb' 0 16 = v :=
  (BitVec.extractLsb'_append_extractLsb'_eq_extractLsb' rfl).trans BitVec.extractLsb'_eq_self

/-- The FMT fields of a word, put back at their places (R36). -/
theorem fmtFields_append (v : Word) : (0 : BitVec 13) ++ v.extractLsb' 16 3 ++ (0 : BitVec 7) ++ BitVec.ofBool (v.getLsbD 8)
    ++ (0 : BitVec 3) ++ v.extractLsb' 0 5 = v &&& 0x0007011F := by
  refine BitVec.eq_of_getLsbD_eq fun i hi => ?_
  simp only [BitVec.getLsbD_append, BitVec.getLsbD_and]
  interval_cases i <;> simp

/-- The ORIENT flags of a word, put back at their places (R39). -/
theorem orientFlags_append (v : Word) : (0 : BitVec 29) ++ BitVec.ofBool (v.getLsbD 2) ++ BitVec.ofBool (v.getLsbD 1)
    ++ BitVec.ofBool (v.getLsbD 0) = v &&& 0x00000007 := by
  refine BitVec.eq_of_getLsbD_eq fun i hi => ?_
  simp only [BitVec.getLsbD_append, BitVec.getLsbD_and]
  interval_cases i <;> simp

theorem readReg_writeReg_self (d : Desc) (f : SlotReg) (v : Word) : (d.writeReg f v).readReg f = v &&& f.storedBits := by
  cases f with
  | base | stride => exact (and_fullMask v).symm
  | dim | clipx | clipy => exact (halfWords_append v).trans (and_fullMask v).symm
  | fmt => exact fmtFields_append v
  | orient => exact orientFlags_append v

theorem readReg_writeReg_ne (d : Desc) {f f' : SlotReg} (v : Word) (h : f' ≠ f) :
    (d.writeReg f v).readReg f' = d.readReg f' := by
  cases f <;> cases f' <;> first | exact absurd rfl h | rfl

/-- The bits an operand register stores of a written value. -/
def Reg.storedBits : Reg → Word
  | .slot _ f => f.storedBits
  | _ => 0xFFFFFFFF

theorem readReg_write_self (s : State) {g : Reg} (hg : g.isOperand = true) (v : Word) :
    State.readReg { s with regs := s.regs.write g v } g = v &&& g.storedBits := by
  cases g with
  | slot sl f =>
    simp only [State.readReg, Regs.write, Regs.desc_setDesc_self, readReg_writeReg_self, Reg.storedBits]
  | id | ctrl | status | cmd | result | reserved => cases hg
  | _ => exact (and_fullMask v).symm

theorem readReg_write_ne (s : State) {g h : Reg} (v : Word) (hne : h ≠ g) :
    State.readReg { s with regs := s.regs.write g v } h = s.readReg h := by
  cases g with
  | slot sl f =>
    cases h with
    | slot sl' f' =>
      simp only [State.readReg, Regs.write]
      by_cases hsl : sl' = sl
      · subst hsl
        have hf : f' ≠ f := fun e => hne (e ▸ rfl)
        rw [Regs.desc_setDesc_self, readReg_writeReg_ne _ _ hf]
      · rw [Regs.desc_setDesc_ne _ _ hsl]
    | _ => rfl
  | id | ctrl | status | cmd | result | reserved => cases h <;> rfl
  | _ => cases h <;> first | exact absurd rfl hne | rfl

end Sys2Proof.Machine
end

section
/-! PROOF. What a command in flight can do to the state, and the invariants every step keeps. -/

namespace Sys2Proof.Machine

/-! ### The register write of a command (R29, R222) -/

/-- The register writes R29 gives each command: RESULT to GETPIX, a slot's ORIENT to the flag commands, a whole slot to
SUBVIEW. -/
def RegWrite.allowedBy (i : Instr) : RegWrite → Prop
  | .none => True
  | .result _ => ∃ src raw, i = .getpix src raw
  | .orient sl _ _ _ => i = .rotcw sl ∨ i = .rotccw sl ∨ i = .flipx sl ∨ i = .flipy sl
  | .slot sl _ => ∃ parent, i = .subview parent sl

theorem planOf_regWrite {i : Instr} {r : Regs} {p : Plan} (h : planOf i r = .ok p) : p.regWrite.allowedBy i := by
  cases i with
  | nop => cases h; trivial
  | getpix src raw => obtain ⟨k, _, rfl⟩ := planGetpix_ok h; exact ⟨src, raw, rfl⟩
  | putpix => obtain ⟨k, _, rfl⟩ := planPutpix_ok h; trivial
  | line => obtain ⟨k, _, rfl⟩ := planLine_ok h; trivial
  | hline | hlinew | vline | vlineh => obtain ⟨k, _, rfl⟩ := planRun_ok h; trivial
  | blit => obtain ⟨_, _, _, _, _, _, rfl⟩ := planBlit_ok h; trivial
  | subview parent result => obtain ⟨k, _, _, rfl⟩ := planSubview_ok h; exact ⟨parent, rfl⟩
  | rotcw | rotccw | flipx | flipy => cases h; simp [RegWrite.allowedBy]

/-- A command that answers a next state has replaced memory, made a register write that R29 allows it, and completed. -/
theorem exec_eq_complete {i : Instr} {s t : State} (h : exec i s = .next t) :
    ∃ m w c, w.allowedBy i ∧ t = ((s.withMem m).commit w).complete c := by
  rcases exec_next h with ⟨c, _, rfl⟩ | ⟨p, hp, _, rfl⟩
  · exact ⟨s.mem, .none, c, trivial, rfl⟩
  · exact ⟨_, p.regWrite, .ok, planOf_regWrite hp, rfl⟩

/-- A register write changes the operand registers in their slots only. -/
theorem commit_regs_slots (s : State) (w : RegWrite) : ∃ d, (s.commit w).regs = { s.regs with slots := d } := by
  rcases w with _ | (_ | _) | _ | _ <;> exact ⟨_, rfl⟩

theorem commit_result {i : Instr} {w : RegWrite} (hw : w.allowedBy i) (hi : ∀ sl raw, i ≠ .getpix sl raw) (s : State) :
    (s.commit w).result = s.result := by
  cases w with
  | result p =>
    obtain ⟨src, raw, rfl⟩ := hw
    exact absurd rfl (hi src raw)
  | none | orient | slot => rfl

theorem commit_desc {i : Instr} {w : RegWrite} (hw : w.allowedBy i) {sl : Slot} (hi : ∀ p, i ≠ .subview p sl) (s : State) :
    (s.commit w).regs.desc sl = s.regs.desc sl ∨
    (i = .rotcw sl ∨ i = .rotccw sl ∨ i = .flipx sl ∨ i = .flipy sl) ∧
      ∃ a x y, (s.commit w).regs.desc sl = (s.regs.desc sl).setOrient a x y := by
  cases w with
  | none => exact .inl rfl
  | result p => exact .inl (by rw [State.commit_result_regs])
  | orient sl' a x y =>
    rw [State.commit_orient_regs]
    by_cases h : sl = sl'
    · subst h
      exact .inr ⟨hw, a, x, y, Regs.desc_setDesc_self ..⟩
    · exact .inl (Regs.desc_setDesc_ne _ _ h)
  | slot sl' d =>
    obtain ⟨parent, rfl⟩ := hw
    have h : sl ≠ sl' := fun e => hi parent (e ▸ rfl)
    exact .inl (by rw [State.commit_slot_regs, Regs.desc_setDesc_ne _ _ h])

/-- Settles O11, from the shape of a completed command. -/
theorem commandsWriteOnlyTheirRegisters : Obligations.CommandsWriteOnlyTheirRegisters := by
  intro i s t h
  obtain ⟨m, w, c, hw, rfl⟩ := exec_eq_complete h
  obtain ⟨d, hd⟩ := commit_regs_slots (s.withMem m) w
  have hslots : ∀ sl : Slot, (∀ p, i ≠ .subview p sl) →
      (∃ a x y, ((s.withMem m).commit w).regs.desc sl = (s.regs.desc sl).setOrient a x y) ∧
      (i ≠ .rotcw sl → i ≠ .rotccw sl → i ≠ .flipx sl → i ≠ .flipy sl →
        ((s.withMem m).commit w).regs.desc sl = s.regs.desc sl) := by
    intro sl hi
    rcases commit_desc hw hi (s.withMem m) with heq | ⟨hflag, horient⟩
    · exact ⟨⟨_, _, _, heq⟩, fun _ _ _ _ => heq⟩
    · refine ⟨horient, fun h1 h2 h3 h4 => ?_⟩
      rcases hflag with h | h | h | h <;> contradiction
  have hresult := fun hi => commit_result hw hi (s.withMem m)
  have herr : (((s.withMem m).commit w).complete c).err = (s.err || decide (c ≠ .ok)) := by
    rw [State.complete_err, State.commit_err, State.withMem_err]
  refine ⟨?_, ?_, rfl, rfl, herr, ?_, ?_, ?_, ?_, ?_, ?_, ?_, hresult, hslots, ?_, ?_, ?_, ?_, ?_⟩ <;> simp [hd]

/-! ### The memory a command writes (R29, R65) -/

/-- A pixel write of a plan stores inside the footprint of the command's pixel slot. -/
theorem planOf_target_covered {i : Instr} {r : Regs} {p : Plan} (h : planOf i r = .ok p) {w : PixelWrite}
    (hw : w ∈ p.writes) {a : Nat} (ha : a ∈ w.target.bytes) :
    ∃ sl, pixelSlot i = some sl ∧ (r.desc sl).covers a = true := by
  obtain ⟨src, dst, _, _, hslot, ⟨q, v, hq, rfl⟩ | ⟨q, q', _, hq, rfl⟩⟩ := planOf_writes h w hw
  · exact ⟨dst, hslot, hq.covered a ha⟩
  · exact ⟨dst, hslot, hq.covered a ha⟩

/-- Settles O12: every pixel write of the plan lands in the footprint. -/
theorem commandsWriteOnlyTheirFootprint : Obligations.CommandsWriteOnlyTheirFootprint := by
  intro i s t hwf h a hout
  rcases exec_next h with ⟨c, _, rfl⟩ | ⟨p, hp, _, rfl⟩
  · rfl
  · rw [State.complete_mem, State.commit_mem, State.withMem_mem]
    refine runWrites_outside hwf fun w hw ha => ?_
    obtain ⟨sl, hslot, hcov⟩ := planOf_target_covered hp hw ha
    exact Bool.false_ne_true ((hout sl hslot).symm.trans hcov)

/-! ### Memory stays canonical -/

/-- Memory in canonical form and inside the address space (R60; assumption 1). -/
def Memory.canonical (m : Memory) : Prop := m.wf = true ∧ m.inSpace = true

theorem write_canonical {m : Memory} (h : m.canonical) (a : Word) (b : Byte) : (m.write a.toNat b).canonical :=
  ⟨Memory.write_wf h.1 _ _, Memory.write_inSpace _ a.isLt h.2⟩

/-- Any part of a plan's pixel writes keeps memory canonical, when the plan stays in the address space. -/
theorem runWrites_canonical {m : Memory} (h : m.canonical) {p : Plan} (hp : ∀ a ∈ p.bytes, a < addressSpace)
    {ws : List PixelWrite} (hws : ∀ w ∈ ws, w ∈ p.writes) : (runWrites m ws).canonical := by
  refine ⟨runWrites_wf h.1, runWrites_inSpace (fun w hw a ha => hp a ?_) h.2⟩
  exact List.mem_append_left _ (List.mem_flatMap.2 ⟨w, hws w hw, ha⟩)

theorem exec_canonical {i : Instr} {s t : State} (hs : s.mem.canonical) (h : exec i s = .next t) : t.mem.canonical := by
  rcases exec_next h with ⟨c, _, rfl⟩ | ⟨p, hp, _, rfl⟩
  · exact hs
  · rw [State.complete_mem, State.commit_mem, State.withMem_mem]
    exact runWrites_canonical hs (planOf_inSpace hp) fun _ hw => hw

theorem resetUnit_canonical {s t : State} (hs : s.mem.canonical) (h : s.resetUnit = .next t) : t.mem.canonical := by
  rcases resetUnit_next h with rfl | ⟨f, p, _, hp, _, rfl⟩
  · exact hs
  · exact runWrites_canonical hs (Flight.plan_inSpace hp) fun _ hw => List.mem_of_mem_take hw

/-- A host register write reaches memory only through the abort of a soft reset. -/
theorem hostWrite_mem {s t : State} {g : Reg} {v : Word} (h : s.hostWrite g v = .next t) :
    t.mem = s.mem ∨ s.resetUnit = .next t := by
  rcases hostWrite_next h with ⟨_, rfl⟩ | ⟨_, ⟨_, _, hreset⟩ | ⟨_, _, rfl⟩ | ⟨_, rfl⟩ | ⟨_, _, rfl⟩ | ⟨_, rfl⟩ | ⟨_, _, rfl⟩ |
    ⟨_, _, rfl⟩⟩
  case inr.inl => exact .inr hreset
  all_goals exact .inl rfl

theorem releaseReset_mem (s : State) : s.releaseReset.mem = s.mem := by
  unfold State.releaseReset
  split <;> rfl

/-- Settles O7: every part of a step keeps memory canonical. -/
theorem stepKeepsMemoryCanonical : Obligations.StepKeepsMemoryCanonical := by
  intro s t hwf hspace h
  refine step_keeps (fun s => s.mem.canonical) (fun _ _ hs => hs) (fun _ _ hs => hs)
    (fun _ _ _ _ hs _ he => exec_canonical hs he) (fun _ _ hs _ => hs)
    (fun _ t hs hr => show t.mem.canonical from resetUnit_canonical hs hr) (fun s hs => (releaseReset_mem s).symm ▸ hs) ?_
    (fun _ a b hs => write_canonical hs a b) (fun _ _ hs => hs) ⟨hwf, hspace⟩ h
  intro s t g v hs hw
  rcases hostWrite_mem hw with heq | hreset
  · exact heq ▸ hs
  · exact resetUnit_canonical hs hreset

/-! ### The issue snapshot, and BUSY and DONE -/

/-- The snapshot of a command in flight is current, and BUSY excludes DONE (R41, R220, R222). -/
def State.issueConsistent (s : State) : Prop := s.snapshotCurrent ∧ s.busyExcludesDone

theorem issueConsistent_of_idle {s : State} (h : s.flight = none) : s.issueConsistent :=
  ⟨fun f hf => by simp [h] at hf, fun hb => by simp [State.busy, h] at hb⟩

/-- A change that touches neither the command in flight nor the operand registers, and does not set DONE. -/
theorem issueConsistent_of_same {s t : State} (hs : s.issueConsistent) (hf : t.flight = s.flight) (hr : t.regs = s.regs)
    (hd : s.done = false → t.done = false) : t.issueConsistent := by
  obtain ⟨hsnap, hbusy⟩ := hs
  refine ⟨fun f h => ?_, fun h => hd (hbusy ?_)⟩
  · rw [hr]
    exact hsnap f (hf ▸ h)
  · rwa [State.busy, ← hf]

theorem issue_issueConsistent (s : State) (cw : Word) : (s.issue cw).issueConsistent :=
  ⟨fun f h => by cases h; rfl, fun _ => rfl⟩

theorem flight_of_busy_eq_false {s : State} (h : s.busy = false) : s.flight = none := by
  simpa [State.busy] using h

theorem exec_flight {i : Instr} {s t : State} (h : exec i s = .next t) : t.flight = none := by
  obtain ⟨m, w, c, _, rfl⟩ := exec_eq_complete h
  rfl

theorem resetUnit_flight {s t : State} (h : s.resetUnit = .next t) : t.flight = none :=
  (congrArg State.flight (resetUnit_registers h).1).symm

theorem hostWrite_issueConsistent {s t : State} {g : Reg} {v : Word} (hs : s.issueConsistent)
    (h : s.hostWrite g v = .next t) : t.issueConsistent := by
  rcases hostWrite_next h with ⟨_, rfl⟩ | ⟨_, ⟨_, _, hreset⟩ | ⟨_, _, rfl⟩ | ⟨_, rfl⟩ | ⟨_, _, rfl⟩ | ⟨_, rfl⟩ | ⟨_, hb, rfl⟩ |
    ⟨_, _, rfl⟩⟩
  · exact hs
  · exact issueConsistent_of_idle (resetUnit_flight hreset)
  · exact issueConsistent_of_same hs rfl rfl id
  · exact issueConsistent_of_same hs rfl rfl fun hd => by simp [hd]
  · exact issue_issueConsistent ..
  · exact hs
  · exact issueConsistent_of_idle (flight_of_busy_eq_false hb)
  · exact issueConsistent_of_same hs rfl rfl id

theorem releaseReset_issueConsistent {s : State} (hs : s.issueConsistent) : s.releaseReset.issueConsistent := by
  unfold State.releaseReset
  split
  · exact issueConsistent_of_idle rfl
  · exact hs

/-- Settles O8: a step that ends the command leaves none in flight, and every other keeps the snapshot. -/
theorem stepKeepsTheSnapshotCurrent : Obligations.StepKeepsTheSnapshotCurrent := by
  intro s t hsnap hbusy h
  exact step_keeps State.issueConsistent
    (fun _ _ hs => issueConsistent_of_same hs rfl rfl id)
    (fun _ _ hs => issueConsistent_of_same hs rfl rfl id)
    (fun _ _ _ _ _ _ he => issueConsistent_of_idle (exec_flight he))
    (fun _ _ _ _ => issueConsistent_of_idle rfl)
    (fun _ t _ hr => issueConsistent_of_idle (show t.flight = none from resetUnit_flight hr))
    (fun _ hs => releaseReset_issueConsistent hs)
    (fun _ _ _ _ hs hw => hostWrite_issueConsistent hs hw)
    (fun _ _ _ hs => issueConsistent_of_same hs rfl rfl id)
    (fun _ _ hs => issueConsistent_of_same hs rfl rfl id) ⟨hsnap, hbusy⟩ h

theorem reset_readReg (g : Reg) : State.reset.readReg g = if g = .id then 0x47500001 else 0 := by
  cases g with
  | slot sl f => cases sl <;> cases f <;> rfl
  | _ => rfl

/-- Settles O9: with no command in flight the invariants of issue hold, whatever memory holds. -/
theorem resetMeetsTheInvariants : Obligations.ResetMeetsTheInvariants := by
  obtain ⟨hsnap, hbusy⟩ := issueConsistent_of_idle (s := State.reset) rfl
  exact ⟨Memory.powerUp_wf.1, Memory.powerUp_wf.2, hsnap, hbusy, fun _ => rfl, rfl, rfl, rfl, reset_readReg⟩

end Sys2Proof.Machine
end

section
/-! PROOF. The host interface: register writes and reads, the STATUS word, memory bytes. -/

namespace Sys2Proof.Machine

/-- Settles O43: the write reaches one register, and what it stores reads back. -/
theorem idleRegisterWritesReadBack : Obligations.IdleRegisterWritesReadBack := by
  intro s g v rest hg hr hb hi
  refine ⟨{ s with inputs := rest, regs := s.regs.write g v }, ?_, rfl, ?_, fun h hne => ?_⟩
  · exact (step_regWrite hi (windowAccess_offset g)).trans (hostWrite_operand_idle hg hr hb)
  · have hread := readReg_write_self { s with inputs := rest } hg v
    cases g with
    | slot sl f => cases f <;> exact hread
    | _ => exact hread
  · exact readReg_write_ne { s with inputs := rest } v hne

/-- Settles O53: what races is exactly what the hypothesis excludes. -/
theorem hostReachesMemoryByteByByte : Obligations.HostReachesMemoryByteByByte := by
  intro s a b rest hwf hfree
  have hr : State.races { s with inputs := rest } a.toNat = false := races_eq_false hfree
  refine ⟨fun hserved => ⟨fun hi => ⟨s.mem.write a.toNat b, ?_, Memory.read_write hwf _ _⟩, fun hi => ?_⟩,
    fun hunserved hi => ?_⟩
  · rw [step_memWrite hi, hostAccess_served hr hserved]
  · rw [step_memRead hi, hostAccess_served hr hserved]
  · rcases hi with hi | hi
    · rw [step_memWrite hi, hostAccess_unserved hr hunserved]
    · rw [step_memRead hi, hostAccess_unserved hr hunserved]

/-- Settles O6, from the two outcomes of a CMD write and the read of its offset. -/
theorem cmdWriteIssuesOrIsLost : Obligations.CmdWriteIssuesOrIsLost := by
  refine fun s cw rest => ⟨fun hi hr hb => ?_, fun hi hr hb => ?_, fun hi => ?_⟩
  · exact (step_regWrite hi (windowAccess_offset .cmd)).trans (hostWrite_cmd_idle hr hb)
  · exact (step_regWrite hi (windowAccess_offset .cmd)).trans (hostWrite_busy (.inr rfl) hr hb)
  · exact step_regRead hi (windowAccess_offset .cmd)

/-- Settles O44, one clause per kind of register. -/
theorem busyRegisterWritesAreLost : Obligations.BusyRegisterWritesAreLost := by
  intro s g v rest hr hi
  rw [step_regWrite hi (windowAccess_offset g)]
  refine ⟨fun hb hg => ?_, ?_, ?_, fun hg => ?_⟩
  · exact hostWrite_busy hg hr hb
  · rintro rfl hv
    exact hostWrite_ctrl hr hv
  · rintro rfl
    exact hostWrite_status hr
  · exact hostWrite_readOnly hg

/-- Settles O45: the offset names the register. -/
theorem registerReadsChangeNothing : Obligations.RegisterReadsChangeNothing :=
  fun _ g _ hi => step_regRead hi (windowAccess_offset g)

/-- The STATUS word, bit by bit (R23). -/
theorem statusWord_getLsbD (s : State) (i : Nat) : s.statusWord.getLsbD i =
    if i = 0 then s.busy else if i = 1 then s.done else if i = 2 then s.err else if i = 3 then s.wign
    else if i < 8 then false else s.errcode.bits.getLsbD (i - 8) := by
  simp only [State.statusWord, BitVec.getLsbD_append, BitVec.getLsbD_ofBool]
  grind

/-- Settles O46, field by field. -/
theorem statusWordShowsTheFlags : Obligations.StatusWordShowsTheFlags := by
  refine ⟨fun s => ⟨?_, ?_, ?_, ?_, ?_, ?_, ?_⟩, rfl, rfl, rfl, rfl, rfl, rfl, rfl, rfl⟩
  case refine_5 | refine_6 | refine_7 =>
    refine BitVec.eq_of_getLsbD_eq fun i hi => ?_
    rw [BitVec.getLsbD_extractLsb', statusWord_getLsbD]
    grind
  all_goals exact statusWord_getLsbD s _

/-- Settles O47: each of these offsets is the reserved register. -/
theorem reservedOffsetsReadZeroAndIgnoreWrites : Obligations.ReservedOffsetsReadZeroAndIgnoreWrites := by
  intro s off v rest h4 hoff
  have hacc : windowAccess off 4 = .ok .reserved := by
    rw [windowAccess_aligned h4 (by omega), regAt_reserved hoff]
  refine ⟨fun hi => ?_, fun hi => step_regRead hi hacc⟩
  rw [step_regWrite hi hacc, hostWrite_readOnly (.inr (.inr rfl))]

/-- Settles O48: no register is reached. -/
theorem narrowRegisterAccessIsRefused : Obligations.NarrowRegisterAccessIsRefused := by
  intro s off size v rest hnarrow hi
  rcases hi with hi | hi
  · exact step_regWrite_refused hi (windowAccess_narrow hnarrow)
  · exact step_regRead_refused hi (windowAccess_narrow hnarrow)

end Sys2Proof.Machine
end

section
/-! PROOF. Memory (20_memory.md): no step leaves the address space, a command works inside the footprints of its slots,
and what the platform does not serve, or the command in flight uses, is refused. -/

namespace Sys2Proof.Machine

/-! ### No step faults (R65, R141) -/

theorem hostWrite_ne_fault (s : State) (g : Reg) (v : Word) (r : Fault) : s.hostWrite g v ≠ .fault r := by
  intro h
  unfold State.hostWrite at h
  split at h
  · cases h
  · cases g with
    | ctrl =>
      simp only at h
      split at h
      · exact resetUnit_ne_fault s r h
      · cases h
    | _ => cases h

theorem hostAccess_ne_fault (s : State) (a : Nat) (u : State) (r : Fault) : s.hostAccess a u ≠ .fault r := by
  unfold State.hostAccess
  split_ifs <;> simp

/-- No input faults: a command in flight reaches memory by its turn or by the abort of a reset, and neither faults. -/
theorem applyInput_ne_fault (s : State) (i : Input) (r : Fault) : s.applyInput i ≠ .fault r := by
  intro h
  cases i with
  | regWrite off size v =>
    simp only [State.applyInput] at h
    split at h
    · exact hostWrite_ne_fault _ _ _ _ h
    · cases h
  | regRead off size =>
    simp only [State.applyInput] at h
    split at h <;> cases h
  | memWrite a b => exact hostAccess_ne_fault _ _ _ _ h
  | memRead a => exact hostAccess_ne_fault _ _ _ _ h
  | unit => exact unitTurn_ne_fault s r h
  | poll =>
    simp only [State.applyInput] at h
    split at h
    · exact unitTurn_ne_fault s r (andThen_fault.1 h)
    · cases h
  | statusAtCompletion v =>
    simp only [State.applyInput] at h
    split at h
    · exact unitTurn_ne_fault s r (andThen_fault.1 h)
    · exact hostWrite_ne_fault _ _ _ _ h
  | resetAssert => exact resetUnit_ne_fault s r (andThen_fault.1 h)
  | resetRelease => cases h

/-- Settles O10: neither the unit's turn nor an input of the host faults. -/
theorem stepNeverFaults : Obligations.StepNeverFaults := by
  intro s r
  cases hi : s.inputs with
  | nil => exact step_nil hi ▸ unitTurn_ne_fault s r
  | cons i rest => exact step_cons hi ▸ applyInput_ne_fault _ i r

/-! ### A command reads only its footprints (R65, R66, R106) -/

/-- Two memories hold the same byte at every address of a set. -/
def Memory.AgreeOn (F : Nat → Prop) (m m' : Memory) : Prop := ∀ a, F a → m.read a = m'.read a

/-- The addresses in the footprints of the slots a command uses. -/
def usedFootprint (i : Instr) (r : Regs) (a : Nat) : Prop := ∃ sl ∈ usedSlots i, (r.desc sl).covers a = true

/-- What a pixel write leaves in a byte depends on no other byte of memory (R107). -/
theorem writePlace_read_congr {m m' : Memory} (hm : m.wf = true) (hm' : m'.wf = true) (p : Place) (v : Nat) {a : Nat}
    (h : m.read a = m'.read a) : (writePlace m p v).read a = (writePlace m' p v).read a := by
  unfold writePlace writeRaw
  split
  · by_cases hin : p.addr ≤ a ∧ a < p.addr + p.kernel.bpp / 8
    · obtain ⟨n, rfl⟩ := Nat.exists_eq_add_of_le hin.1
      rw [read_memWrite_inside _ _ _ _ hm (by omega), read_memWrite_inside _ _ _ _ hm' (by omega)]
    · rw [read_memWrite_outside _ _ _ _ hm (by omega), read_memWrite_outside _ _ _ _ hm' (by omega), h]
  · by_cases ha : a = p.addr
    · subst ha
      simp only [Memory.read_write hm, Memory.read_write hm', h]
    · simp only [Memory.read_write hm, Memory.read_write hm', if_neg ha, h]

section
variable {F : Nat → Prop} {m m' : Memory}

theorem readPlace_of_agreeOn (h : Memory.AgreeOn F m m') {p : Place} (hp : ∀ a ∈ p.bytes, F a) :
    readPlace m p = readPlace m' p := readPlace_congr_bytes p fun a ha => h a (hp a ha)

/-- A pixel write that touches only bytes of a set keeps two memories in agreement there. -/
theorem pixelWrite_run_agreeOn (hm : m.wf = true) (hm' : m'.wf = true) (h : Memory.AgreeOn F m m') {w : PixelWrite}
    (hw : ∀ a ∈ w.bytes, F a) : Memory.AgreeOn F (w.run m) (w.run m') := by
  intro a ha
  cases w with
  | put p v => exact writePlace_read_congr hm hm' p v (h a ha)
  | copy p q ts td =>
    have hread : readPlace m p = readPlace m' p :=
      readPlace_of_agreeOn h fun x hx => hw x (List.mem_append_left _ hx)
    simp only [PixelWrite.run, hread]
    exact writePlace_read_congr hm hm' q _ (h a ha)

end

theorem runWrites_agreeOn {F : Nat → Prop} : ∀ {ws : List PixelWrite} {m m' : Memory}, m.wf = true → m'.wf = true →
    Memory.AgreeOn F m m' → (∀ w ∈ ws, ∀ a ∈ w.bytes, F a) → Memory.AgreeOn F (runWrites m ws) (runWrites m' ws)
  | [], _, _, _, _, h, _ => h
  | w :: ws, _, _, hm, hm', h, hws =>
    runWrites_agreeOn (ws := ws) (PixelWrite.run_wf hm w) (PixelWrite.run_wf hm' w)
      (pixelWrite_run_agreeOn hm hm' h (hws w (List.mem_cons_self ..))) fun x hx => hws x (List.mem_cons_of_mem _ hx)

/-- The register write at completion reads memory only at the pixel RESULT takes (R222). -/
theorem commit_withMem_congr (s : State) {w : RegWrite} {m m' : Memory}
    (h : ∀ q, w = .result (some q) → readPlace m q = readPlace m' q) :
    (s.withMem m').commit w = ((s.withMem m).commit w).withMem m' := by
  rcases w with _ | (_ | q) | _ | _
  case result.some => simp [State.commit, State.withMem, h q rfl]
  all_goals rfl

/-- Every byte a plan touches is in the footprints of its command. -/
theorem planOf_bytes_used {i : Instr} {r : Regs} {p : Plan} (h : planOf i r = .ok p) :
    (∀ w ∈ p.writes, ∀ a ∈ w.bytes, usedFootprint i r a) ∧ ∀ a ∈ p.regWrite.bytes, usedFootprint i r a :=
  ⟨fun w hw a ha => planOf_covered h a (List.mem_append_left _ (List.mem_flatMap.2 ⟨w, hw, ha⟩)),
    fun a ha => planOf_covered h a (List.mem_append_right _ ha)⟩

@[simp] theorem State.withMem_operands (s : State) (m : Memory) : (s.withMem m).operands = s.operands := rfl

/-- Over two memories that agree on the footprints of its slots, a command ends alike and leaves memories that agree
there. -/
theorem exec_agreeOn {i : Instr} {s t : State} {m : Memory} (hs : s.mem.wf = true) (hm : m.wf = true)
    (hagree : Memory.AgreeOn (usedFootprint i s.operands) s.mem m) (h : exec i s = .next t) :
    ∃ m', exec i (s.withMem m) = .next (t.withMem m') ∧ Memory.AgreeOn (usedFootprint i s.operands) t.mem m' := by
  rcases exec_next h with ⟨c, hc, rfl⟩ | ⟨p, hp, hserved, rfl⟩
  · refine ⟨m, ?_, hagree⟩
    rw [exec_eq_finish, State.withMem_operands, hc]
    rfl
  · obtain ⟨hwrites, hreg⟩ := planOf_bytes_used hp
    have hrun := runWrites_agreeOn hs hm hagree hwrites
    refine ⟨runWrites m p.writes, ?_, by simpa using hrun⟩
    have hcommit : (s.withMem (runWrites m p.writes)).commit p.regWrite =
        ((s.withMem (runWrites s.mem p.writes)).commit p.regWrite).withMem (runWrites m p.writes) :=
      commit_withMem_congr s fun q hq => readPlace_of_agreeOn hrun fun a ha => hreg a (hq ▸ ha)
    calc exec i (s.withMem m)
        = (s.withMem m).finish (.ok p) := by
          rw [exec_eq_finish, State.withMem_operands, hp]
      _ = .next (((s.withMem (runWrites m p.writes)).commit p.regWrite).complete .ok) :=
          finish_ok (planOf_inSpace hp) hserved
      _ = _ := by rw [hcommit]; rfl

/-- Settles O13: the pixel writes and the register write of a plan touch only the footprints of its slots. -/
theorem commandsReadOnlyTheirFootprints : Obligations.CommandsReadOnlyTheirFootprints := by
  intro i s t m hs hm hagree h
  obtain ⟨m', hexec, hend⟩ := exec_agreeOn hs hm (fun a ⟨sl, hsl, hc⟩ => hagree a sl hsl hc) h
  exact ⟨m', hexec, fun a sl hsl hc => hend a ⟨sl, hsl, hc⟩⟩

/-! ### What is refused (R67, R69, R73) -/

/-- A slot a command uses, and does not merely turn, is a surface it works on (R67; assumption 8). -/
theorem usedSlot_mem_surfaces {i : Instr} {r : Regs} {p : Plan} (h : planOf i r = .ok p) {sl : Slot}
    (hsl : sl ∈ usedSlots i) (hflag : i ≠ .rotcw sl ∧ i ≠ .rotccw sl ∧ i ≠ .flipx sl ∧ i ≠ .flipy sl) :
    r.desc sl ∈ p.surfaces := by
  rw [planOf_surfaces h]
  cases i with
  | nop => cases hsl
  | rotcw | rotccw | flipx | flipy =>
    obtain rfl := List.mem_singleton.1 hsl
    simp at hflag
  | _ => exact List.mem_map_of_mem hsl

/-- A plan that works on a surface with an unserved byte is refused (R67, R69). -/
theorem exec_refused_of_surface {i : Instr} {s : State} {p : Plan} (hp : planOf i s.operands = .ok p) {d : Desc}
    (hd : d ∈ p.surfaces) {a : Nat} (hc : d.covers a = true) (ha : servedByte s.unserved a = false) :
    exec i s = .refused .unservedMemory := by
  rw [exec_eq_finish, hp]
  exact finish_unserved (planOf_inSpace hp) hd fun hserved => Bool.false_ne_true (ha.symm.trans (hserved a hc))

/-- Settles O54: the byte is on a surface of the plan in either case. -/
theorem unservedMemoryIsRefused : Obligations.UnservedMemoryIsRefused := by
  intro s i p a hp ha
  refine ⟨fun sl hsl hc hflag => exec_refused_of_surface hp (usedSlot_mem_surfaces hp hsl hflag) hc ha, fun hbyte => ?_⟩
  obtain ⟨d, hd, hc⟩ := planOf_bytes_on_surfaces hp a hbyte
  exact exec_refused_of_surface hp hd hc ha

theorem races_of_covers {s : State} {f : Flight} {i : Instr} {sl : Slot} {a : Nat} (hf : s.flight = some f)
    (hi : decode f.word = .ok i) (hsl : sl ∈ usedSlots i) (hc : (f.regs.desc sl).covers a = true) :
    s.races a = true := by
  simp only [State.races, hf, hi]
  exact List.any_eq_true.2 ⟨sl, hsl, hc⟩

theorem hostAccess_race {s : State} {a : Nat} (h : s.races a = true) (u : State) :
    s.hostAccess a u = .refused .footprintRace := if_pos h

/-- Settles O52: the access races with the command in flight. -/
theorem footprintRacesAreRefused : Obligations.FootprintRacesAreRefused := by
  intro s f i sl a b rest hf hdec hsl hc hi
  have hr : State.races { s with inputs := rest } a.toNat = true :=
    races_of_covers (s := { s with inputs := rest }) hf hdec hsl hc
  rcases hi with hi | hi
  · rw [step_memWrite hi, hostAccess_race hr]
  · rw [step_memRead hi, hostAccess_race hr]

end Sys2Proof.Machine
end

section
/-! PROOF. The decoder: a command word is its fields, the rows of R82 are the field checks of R87, and the words that
decode to a command are the encodings. -/

namespace Sys2Proof

/-! ### A command word and its fields (R80) -/

theorem wordOf_fieldsOf (cw : Word) : wordOf (fieldsOf cw) = cw := by
  refine BitVec.eq_of_getLsbD_eq fun i hi => ?_
  simp only [wordOf, fieldsOf, BitVec.getLsbD_append, BitVec.getLsbD_extractLsb', BitVec.getLsbD_ofBool]
  grind

theorem fieldsOf_injective : Function.Injective fieldsOf := Function.LeftInverse.injective wordOf_fieldsOf

/-- Masking a word masks each of its fields. -/
theorem fieldsOf_and (v w : Word) : fieldsOf (v &&& w) =
    ⟨(fieldsOf v).opc &&& (fieldsOf w).opc, (fieldsOf v).s &&& (fieldsOf w).s, (fieldsOf v).t &&& (fieldsOf w).t,
      (fieldsOf v).raw && (fieldsOf w).raw, (fieldsOf v).reserved &&& (fieldsOf w).reserved⟩ := by
  simp only [fieldsOf, BitVec.extractLsb'_and, BitVec.getLsbD_and]

@[simp] theorem Slot.bits_ofBits (b : BitVec 2) : (Slot.ofBits b).bits = b := by
  revert b; decide

/-! ### The rows of R82, field by field -/

theorem CommandFields.wellFormed_iff (f : CommandFields) : f.wellFormed = true ↔
    f.opc.toNat ≤ 0x0D ∧ f.reserved = 0 ∧ (f.takesT = true ∨ f.t = 0) ∧ (f.takesRaw = true ∨ f.raw = false) ∧
      (f.opc ≠ 0 ∨ f.s = 0) := by
  simp [wellFormed, opcodeListed, reservedZero, tAllowed, rawAllowed, nopSlotZero, and_assoc]

/-- An opcode with every other field 0: the fields of the pattern of its row. -/
def opcodeFields (opc : BitVec 8) : CommandFields := ⟨opc, 0, 0, false, 0⟩

/-- The bits the row of an opcode compares: all but those of the fields its command takes (R81). -/
def comparedFields (opc : BitVec 8) : CommandFields where
  opc := BitVec.allOnes 8
  s := if opc ≠ 0 then 0 else BitVec.allOnes 2
  t := if (opcodeFields opc).takesT then 0 else BitVec.allOnes 2
  raw := !(opcodeFields opc).takesRaw
  reserved := BitVec.allOnes 19

/-- The row of an opcode stands at the opcode's place; its pattern is the opcode alone, its mask the compared fields. -/
theorem opcodeRows_fields : ∀ k : Fin opcodeRows.length,
    fieldsOf opcodeRows[k].pattern = opcodeFields (BitVec.ofNat 8 k) ∧
    fieldsOf opcodeRows[k].mask = comparedFields (BitVec.ofNat 8 k) := by decide

theorem opcodeRows_length : opcodeRows.length = 0x0E := rfl

/-- A mask that leaves a field free asks nothing of it; one that compares it asks for 0. -/
theorem and_unlessFree_eq_zero {w : Nat} (free : Prop) [Decidable free] (x : BitVec w) :
    x &&& (if free then 0 else BitVec.allOnes w) = 0 ↔ free ∨ x = 0 := by
  by_cases h : free <;> simp [h]

/-- Under a listed opcode, what its row compares with 0 is 0 exactly when the fields are well formed (R82, R87). -/
theorem and_comparedFields_eq_zero_iff (f : CommandFields) (hf : f.opc.toNat ≤ 0x0D) :
    (f.s &&& (comparedFields f.opc).s = 0 ∧ f.t &&& (comparedFields f.opc).t = 0 ∧
      (f.raw && (comparedFields f.opc).raw) = false ∧ f.reserved &&& (comparedFields f.opc).reserved = 0) ↔
    f.wellFormed = true := by
  have hT : (opcodeFields f.opc).takesT = f.takesT := rfl
  have hR : (opcodeFields f.opc).takesRaw = f.takesRaw := rfl
  have hraw : (f.raw && !f.takesRaw) = false ↔ f.takesRaw = true ∨ f.raw = false := by
    cases f.raw <;> cases f.takesRaw <;> decide
  simp only [comparedFields, hT, hR, and_unlessFree_eq_zero, BitVec.and_allOnes, hraw, CommandFields.wellFormed_iff]
  exact ⟨fun ⟨hs, ht, hr, hres⟩ => ⟨hf, hres, ht, hr, hs⟩, fun ⟨_, hres, ht, hr, hs⟩ => ⟨hs, ht, hr, hres⟩⟩

/-- A row accepts exactly the well-formed words of its opcode (R82, R87). -/
theorem accepts_iff (k : Nat) (hk : k < opcodeRows.length) (cw : Word) : opcodeRows[k].accepts cw = true ↔
    (fieldsOf cw).opc = BitVec.ofNat 8 k ∧ (fieldsOf cw).wellFormed = true := by
  obtain ⟨hp, hm⟩ := opcodeRows_fields ⟨k, hk⟩
  simp only [Fin.getElem_fin] at hp hm
  have hk' : k ≤ 0x0D := Nat.le_of_lt_succ hk
  rw [OpcodeRow.accepts, beq_iff_eq, ← fieldsOf_injective.eq_iff, fieldsOf_and, hp, hm, opcodeFields, CommandFields.mk.injEq]
  have hopc : (fieldsOf cw).opc &&& (comparedFields (BitVec.ofNat 8 k)).opc = (fieldsOf cw).opc := BitVec.and_allOnes
  rw [hopc]
  refine and_congr_right fun h => ?_
  rw [← h]
  refine and_comparedFields_eq_zero_iff _ ?_
  rw [h, BitVec.toNat_ofNat]
  omega

/-- The command a row reads from well-formed fields of its opcode has those fields (R81, R82): a field the command does
not take is one that well-formedness makes 0. -/
theorem build_fields (k : Nat) (hk : k < opcodeRows.length) {f : CommandFields} (hopc : f.opc = BitVec.ofNat 8 k)
    (hf : f.wellFormed = true) : (opcodeRows[k].build (Slot.ofBits f.s) (Slot.ofBits f.t) f.raw).fields = f := by
  obtain ⟨_, hres, ht, hraw, hs⟩ := f.wellFormed_iff.1 hf
  obtain ⟨opc, s, t, raw, reserved⟩ := f
  dsimp only at hopc hres
  subst hopc hres
  rw [opcodeRows_length] at hk
  interval_cases k
  all_goals simp_all [opcodeRows, Instr.fields, CommandFields.takesT, CommandFields.takesRaw]

/-! ### Decoding -/

/-- A word decodes to a command with its fields, or no row accepts it (R86). -/
theorem decode_cases (cw : Word) :
    (∃ i, decode cw = .ok i ∧ i.fields = fieldsOf cw ∧ (fieldsOf cw).wellFormed = true) ∨
    (decode cw = .error (rejectReason cw) ∧ (fieldsOf cw).wellFormed = false) := by
  unfold decode
  split
  · rename_i r hr
    obtain ⟨k, hk, rfl⟩ := List.mem_iff_getElem.1 (List.mem_of_find?_eq_some hr)
    obtain ⟨hopc, hwf⟩ := (accepts_iff k hk cw).1 (List.find?_some (p := (OpcodeRow.accepts · cw)) hr)
    exact .inl ⟨_, rfl, build_fields k hk hopc hwf, hwf⟩
  · rename_i hnone
    refine .inr ⟨rfl, Bool.eq_false_iff.2 fun hwf => ?_⟩
    have hlt : (fieldsOf cw).opc.toNat < opcodeRows.length := Nat.lt_succ_of_le ((fieldsOf cw).wellFormed_iff.1 hwf).1
    have hrow := (accepts_iff _ hlt cw).2 ⟨BitVec.eq_of_toNat_eq (by simp), hwf⟩
    exact List.find?_eq_none.1 hnone _ (List.getElem_mem hlt) hrow

theorem eq_encode_of_decode {cw : Word} {i : Instr} (h : decode cw = .ok i) : cw = encode i := by
  rcases decode_cases cw with ⟨j, hj, hfields, _⟩ | ⟨he, _⟩
  · obtain rfl : j = i := Except.ok.inj (hj.symm.trans h)
    rw [encode, hfields, wordOf_fieldsOf]
  · cases he.symm.trans h

theorem decode_encode (i : Instr) : decode (encode i) = .ok i := by
  cases i with
  | nop => rfl
  | getpix s r | putpix s r | line s r | hline s r | hlinew s r | vline s r | vlineh s r => cases s <;> cases r <;> rfl
  | blit s t r => cases s <;> cases t <;> cases r <;> rfl
  | subview s t => cases s <;> cases t <;> rfl
  | rotcw s | rotccw s | flipx s | flipy s => cases s <;> rfl

theorem exists_decode_error_iff (cw : Word) : (∃ e, decode cw = .error e) ↔ (fieldsOf cw).wellFormed = false := by
  rcases decode_cases cw with ⟨i, hi, _, hwf⟩ | ⟨he, hwf⟩
  · simp [hi, hwf]
  · simp [he, hwf]

/-! ### The statements -/

/-- Settles O2: a row reads the fields a command is encoded from. -/
theorem decodeExactlyInvertsEncode : Obligations.DecodeExactlyInvertsEncode :=
  fun _ i => ⟨eq_encode_of_decode, fun h => h ▸ decode_encode i⟩

/-- Settles O3: the rows accept the well-formed words between them. -/
theorem illegalWordsAreThoseListed : Obligations.IllegalWordsAreThoseListed := exists_decode_error_iff

/-- Settles O1: each word is the encoding of its command. -/
theorem sampleWordsDecode : Obligations.SampleWordsDecode :=
  ⟨decode_encode .nop, decode_encode (.getpix .s0 false), decode_encode (.line .s3 true), decode_encode (.hlinew .s0 true),
    decode_encode (.blit .s1 .s2 true), decode_encode (.subview .s1 .s2), decode_encode (.rotcw .s2),
    decode_encode (.flipy .s1)⟩

end Sys2Proof
end

section
/-! PROOF. The unit's turn with a command in flight: what decoding gives it to run, and how POLL sees it end. -/

namespace Sys2Proof.Machine

section
variable {s : State} {f : Flight} {i : Instr}

theorem unitTurn_decoded (hf : s.flight = some f) (hd : decode f.word = .ok i) : s.unitTurn = exec i s := by
  simp only [State.unitTurn, hf, hd]

theorem unitTurn_undecoded {e : DecodeReject} (hf : s.flight = some f) (hd : decode f.word = .error e) :
    s.unitTurn = .next (s.complete .badCmd) := by
  simp only [State.unitTurn, hf, hd]

/-- The unit's turn is the shared end of a command on the plan of the command in flight (R221). -/
theorem unitTurn_eq_finish (hf : s.flight = some f) : s.unitTurn = s.finish f.plan := by
  unfold Flight.plan
  split
  · rename_i i hd
    rw [unitTurn_decoded hf hd, exec_eq_finish, State.operands_of_flight hf]
  · rename_i e hd
    rw [unitTurn_undecoded hf hd, finish_error]

/-- A command in flight whose surfaces the platform serves completes in the unit's turn (R69, R222). -/
theorem unitTurn_completes (hf : s.flight = some f) (hserved : ∀ p, f.plan = .ok p → ∀ d ∈ p.surfaces, s.serves d) :
    ∃ t, s.unitTurn = .next t ∧ t.busy = false ∧ t.done = true ∧ t.inputs = s.inputs ∧ t.readLog = s.readLog := by
  rw [unitTurn_eq_finish hf]
  cases hp : f.plan with
  | error c => exact ⟨s.complete c, finish_error s c, rfl, rfl, rfl, rfl⟩
  | ok p => exact ⟨_, finish_ok (Flight.plan_inSpace hp) (hserved p hp), rfl, rfl, by simp, by simp⟩

/-- A completion with an error sets ERR, whatever it was before (R222). -/
theorem complete_eq_raised {c : ErrCode} (hc : c ≠ .ok) : s.complete c = s.raised c := by
  simp [State.complete, State.raised, hc]

/-! ### POLL -/

variable {rest : List Input}

theorem step_poll_busy {t : State} (hi : s.inputs = .poll :: rest) (hb : s.busy = true)
    (ht : State.unitTurn { s with inputs := rest } = .next t) :
    step s = .next { t with inputs := .poll :: t.inputs } := by
  have hturn : State.applyInput { s with inputs := rest } .poll =
      andThen (State.unitTurn { s with inputs := rest }) fun t => { t with inputs := .poll :: t.inputs } := if_pos hb
  rw [step_cons hi, hturn, ht]
  rfl

theorem step_poll_idle (hi : s.inputs = .poll :: rest) (hb : s.busy = false) :
    step s = .next { s with inputs := rest, readLog := s.statusWord :: s.readLog } := by
  rw [step_cons hi]
  exact if_neg (Bool.eq_false_iff.1 hb)

end

theorem core_run_two {s t u : State} (h1 : step s = .next t) (h2 : step t = .next u) : Sys2Proof.core.run 2 s = .next u := by
  simp [Host.Core.run, Sys2Proof.core, h1, h2]

/-! ### The statements -/

/-- Settles O55: the first step runs the command to its completion, the second reads STATUS. -/
theorem pollEndsAfterTheCommand : Obligations.PollEndsAfterTheCommand := by
  intro s f rest hf hi hserved
  have hbusy : s.busy = true := by rw [State.busy_eq, hf]; rfl
  obtain ⟨u, hturn, hidle, hdone, (hinputs : u.inputs = rest), (hlog : u.readLog = s.readLog)⟩ :=
    unitTurn_completes (s := { s with inputs := rest }) hf hserved
  have hcompletes := step_poll_busy hi hbusy hturn
  have hreads := step_poll_idle (s := { u with inputs := .poll :: u.inputs }) rfl hidle
  exact ⟨_, core_run_two hcompletes hreads, hinputs, hidle, hdone, congrArg (u.statusWord :: ·) hlog⟩

/-- Settles O4: an ill-formed word decodes to no command. -/
theorem illegalWordCompletesWithBadCmd : Obligations.IllegalWordCompletesWithBadCmd := by
  intro s f hi hf hwf
  obtain ⟨e, he⟩ := (exists_decode_error_iff f.word).2 hwf
  rw [step_nil hi, unitTurn_undecoded hf he, complete_eq_raised (by decide)]

/-- Settles O5: the step is the unit's turn in both cases. -/
theorem stepRunsTheDecodedCommand : Obligations.StepRunsTheDecodedCommand := by
  intro s f i hf hd
  refine ⟨fun hi => ?_, fun rest hi => ?_⟩
  · rw [step_nil hi, unitTurn_decoded hf hd]
  · rw [step_cons hi]
    exact unitTurn_decoded hf hd

end Sys2Proof.Machine
end

section
/-! PROOF. The pixel-type ROM and the dispatcher, and the raw accesses: what one raw write and a run leave in each bit
and each byte of memory. -/

namespace Sys2Proof.Machine

/-! ### The pixel-type ROM and the dispatcher (R100, R130) -/

theorem bppRom_packed {t : BitVec 5} (hlo : 10 ≤ t.toNat) (hhi : t.toNat ≤ 17) : bppRom t = some 32 := by
  unfold bppRom
  interval_cases t.toNat <;> rfl

theorem bppRom_reserved {t : BitVec 5} (h : 18 ≤ t.toNat) : bppRom t = none := List.getElem?_eq_none h

/-- Every storage width has a kernel, of that width and, below 8 bits, of that convention (R130). -/
theorem dispatch_of_width {w : Nat} (hw : w ∈ [1, 2, 4, 8, 16, 24, 32]) (endian : Bool) :
    ∃ k, dispatch w endian = .ok k ∧ k.bpp = w ∧ (w < 8 → k.bigEndian = endian) := by
  obtain ⟨k, hk⟩ : ∃ k, dispatch w endian = .ok k := by
    simp only [List.mem_cons, List.not_mem_nil, or_false] at hw
    rcases hw with rfl | rfl | rfl | rfl | rfl | rfl | rfl <;> exact ⟨_, rfl⟩
  exact ⟨k, hk, dispatch_ok hk⟩

theorem dispatch_of_other_width {w : Nat} (hw : w ∉ [1, 2, 4, 8, 16, 24, 32]) (endian : Bool) :
    dispatch w endian = .error .unimplFormat := by
  unfold dispatch
  split
  case h_8 => rfl
  all_goals exact absurd (by decide) hw

theorem dispatch_wide {w : Nat} (hw : 8 ≤ w) : dispatch w true = dispatch w false := by
  unfold dispatch
  split
  case h_1 | h_2 | h_3 => omega
  all_goals rfl

/-! ### One raw write (R107) -/

section
variable {m : Memory} {a pos w v : Nat} {endian : Bool}

theorem writeRaw_wide (hw : 8 ≤ w) : writeRaw m a pos w endian v = memWrite m a (w / 8) (v % 2 ^ w) := if_pos hw

theorem writeRaw_wf (h : m.wf = true) : (writeRaw m a pos w endian v).wf = true := by
  unfold writeRaw
  split
  · exact memWrite_wf _ _ _ h
  · exact Memory.write_wf h _ _

/-- The raw forms are the surface-level forms at a place of the dispatched kernel (R111): from 8 bits on neither looks
at the convention. -/
theorem writeRaw_eq_writePlace {k : Kernel} (he : k.bpp < 8 → k.bigEndian = endian) :
    writeRaw m a pos k.bpp endian v = writePlace m ⟨a, pos, k⟩ v := by
  by_cases hw : k.bpp < 8
  · rw [writePlace, he hw]
  · rw [writePlace, writeRaw_wide (Nat.le_of_not_lt hw), writeRaw_wide (Nat.le_of_not_lt hw)]

theorem readRaw_eq_readPlace {k : Kernel} (he : k.bpp < 8 → k.bigEndian = endian) :
    readRaw m a pos k.bpp endian = readPlace m ⟨a, pos, k⟩ := by
  by_cases hw : k.bpp < 8
  · rw [readPlace, he hw]
  · rw [readPlace, readRaw, readRaw, if_pos (Nat.le_of_not_lt hw), if_pos (Nat.le_of_not_lt hw)]

/-- Below 8 bits a raw write sets the `w` bits of its byte from `phys_shift` on, and no other bit (R105, R107). -/
theorem writeRaw_narrow_bit (h : m.wf = true) (hw : w < 8) {b j : Nat} (hj : j < 8) :
    ((writeRaw m a pos w endian v).read b).getLsbD j =
      if b = a ∧ physShift pos w endian ≤ j ∧ j < physShift pos w endian + w then v.testBit (j - physShift pos w endian)
      else (m.read b).getLsbD j := by
  rw [writeRaw, if_neg (by omega), Memory.read_write h]
  by_cases hb : b = a
  · simp only [hb, if_true, true_and]
    exact byteWrite_getLsbD _ v w _ j hj
  · simp only [hb, if_false, false_and]

end

/-! ### A run below 8 bits (R108, R109) -/

/-- The packing position of the pixel that holds bit `j` of its byte: `phys_shift` is its own inverse (R105). -/
def bitPosition (j w : Nat) (endian : Bool) : Nat := physShift (j / w * w) w endian

section
variable {m : Memory} {a pos w v n b j : Nat} {endian : Bool}

theorem narrow_width_cases (hw : w ∈ [1, 2, 4]) : w = 1 ∨ w = 2 ∨ w = 4 := by simpa using hw

theorem narrow_width_facts (hw : w ∈ [1, 2, 4]) : 0 < w ∧ w < 8 ∧ w ∣ 8 := by
  rcases narrow_width_cases hw with rfl | rfl | rfl <;> decide

theorem bitPosition_bounds (hw : w ∈ [1, 2, 4]) (hj : j < 8) :
    bitPosition j w endian + w ≤ 8 ∧ bitPosition j w endian % w = 0 := by
  unfold bitPosition physShift
  rcases narrow_width_cases hw with rfl | rfl | rfl <;> cases endian <;> simp <;> omega

/-- A pixel has bit `j` of its byte when it stands at that bit's packing position, as bit `j mod w` of the pixel. -/
theorem physShift_hasBit_iff (hw : w ∈ [1, 2, 4]) (hj : j < 8) (hp : pos < 8) (ha : pos % w = 0) :
    (physShift pos w endian ≤ j ∧ j < physShift pos w endian + w ↔ bitPosition j w endian = pos) ∧
    (bitPosition j w endian = pos → j - physShift pos w endian = j % w) := by
  unfold bitPosition physShift
  rcases narrow_width_cases hw with rfl | rfl | rfl <;> cases endian <;> simp <;> omega

/-- Below 8 bits a raw write sets the bits whose packing position is the pixel's, each to the value's bit at
`j mod w`. -/
theorem writeRaw_aligned_bit (h : m.wf = true) (hw : w ∈ [1, 2, 4]) (hj : j < 8) (hp : pos < 8) (ha : pos % w = 0) :
    ((writeRaw m a pos w endian v).read b).getLsbD j =
      if b = a ∧ bitPosition j w endian = pos then v.testBit (j % w) else (m.read b).getLsbD j := by
  obtain ⟨-, hw8, -⟩ := narrow_width_facts hw
  obtain ⟨hbit, hoff⟩ := physShift_hasBit_iff (endian := endian) hw hj hp ha
  simp only [writeRaw_narrow_bit h hw8 hj, hbit]
  exact ite_congr rfl (fun hpix => congrArg v.testBit (hoff hpix.2)) fun _ => rfl

theorem writeRun_succ : writeRun m a pos (n + 1) v w endian =
    writeRaw (writeRun m a pos n v w endian) (a + (pos + n * w) / 8) ((pos + n * w) % 8) w endian v := by
  simp only [writeRun, List.range_succ, List.foldl_append, List.foldl_cons, List.foldl_nil]

theorem writeRun_wf (h : m.wf = true) : (writeRun m a pos n v w endian).wf = true := by
  induction n with
  | zero => exact h
  | succ n ih =>
    rw [writeRun_succ]
    exact writeRaw_wf ih

/-- The run of `n` pixels from position `pos` of byte `a` covers the pixel at position `q` of byte `b`. -/
def runCovers (a pos n w b q : Nat) : Prop := a ≤ b ∧ pos ≤ 8 * (b - a) + q ∧ 8 * (b - a) + q < pos + n * w

/-- One pixel more covers the pixel after the last one, and no other. -/
theorem runCovers_succ_iff {q : Nat} (hw : w ∈ [1, 2, 4]) (ha : pos % w = 0) (hq : q < 8) (hqa : q % w = 0) :
    runCovers a pos (n + 1) w b q ↔
      runCovers a pos n w b q ∨ b = a + (pos + n * w) / 8 ∧ q = (pos + n * w) % 8 := by
  unfold runCovers
  rcases narrow_width_cases hw with rfl | rfl | rfl <;> omega

/-- Below 8 bits a run sets the bits of the pixels it covers to the value's, and no other bit (R108). -/
theorem writeRun_narrow_bit (h : m.wf = true) (hw : w ∈ [1, 2, 4]) (ha : pos % w = 0) (hj : j < 8) :
    (runCovers a pos n w b (bitPosition j w endian) →
      ((writeRun m a pos n v w endian).read b).getLsbD j = v.testBit (j % w)) ∧
    (¬ runCovers a pos n w b (bitPosition j w endian) →
      ((writeRun m a pos n v w endian).read b).getLsbD j = (m.read b).getLsbD j) := by
  obtain ⟨hw0, -, hdvd⟩ := narrow_width_facts hw
  obtain ⟨hq, hqa⟩ := bitPosition_bounds (endian := endian) hw hj
  induction n with
  | zero => exact ⟨fun ⟨_, hlo, hhi⟩ => by omega, fun _ => rfl⟩
  | succ n ih =>
    have haligned : (pos + n * w) % 8 % w = 0 := by
      rw [Nat.mod_mod_of_dvd _ hdvd, Nat.add_mul_mod_self_right, ha]
    rw [runCovers_succ_iff hw ha (by omega) hqa, writeRun_succ,
      writeRaw_aligned_bit (writeRun_wf h) hw hj (Nat.mod_lt _ (by decide)) haligned]
    by_cases hlast : b = a + (pos + n * w) / 8 ∧ bitPosition j w endian = (pos + n * w) % 8
    · rw [if_pos hlast]
      exact ⟨fun _ => rfl, fun hc => absurd (.inr hlast) hc⟩
    · rw [if_neg hlast, or_iff_left hlast]
      exact ih

/-- The bits of `c` copies of a `w`-bit value, side by side. -/
theorem replicated_testBit {u : Nat} (hu : u < 2 ^ w) (c j : Nat) :
    ((List.range c).map (fun k => u * 2 ^ (k * w))).sum < 2 ^ (c * w) ∧
    (j < c * w → ((List.range c).map (fun k => u * 2 ^ (k * w))).sum.testBit j = u.testBit (j % w)) := by
  induction c with
  | zero => simp
  | succ c ih =>
    obtain ⟨hlt, hbits⟩ := ih
    have hsum : ((List.range (c + 1)).map (fun k => u * 2 ^ (k * w))).sum =
        2 ^ (c * w) * u + ((List.range c).map (fun k => u * 2 ^ (k * w))).sum := by
      simp [List.range_succ, Nat.mul_comm, Nat.add_comm]
    rw [hsum, Nat.add_mul, Nat.one_mul]
    refine ⟨?_, fun hj => ?_⟩
    · calc _ < 2 ^ (c * w) * u + 2 ^ (c * w) := Nat.add_lt_add_left hlt _
        _ = 2 ^ (c * w) * (u + 1) := rfl
        _ ≤ 2 ^ (c * w) * 2 ^ w := Nat.mul_le_mul_left _ hu
        _ = 2 ^ (c * w + w) := (pow_add ..).symm
    · rw [Nat.testBit_two_pow_mul_add _ hlt]
      split
      next hlow => exact hbits hlow
      next hhigh =>
        obtain ⟨r, rfl⟩ := Nat.exists_eq_add_of_le (Nat.le_of_not_lt hhigh)
        rw [Nat.add_sub_cancel_left, Nat.mul_add_mod_self_right, Nat.mod_eq_of_lt (by omega)]

/-- A byte all of whose bits are the value's at `j mod w` is the replicated pattern (R109). -/
theorem toNat_eq_replicated {x : Byte} (hw : w ∈ [1, 2, 4]) (h : ∀ j < 8, x.getLsbD j = v.testBit (j % w)) :
    x.toNat = ((List.range (8 / w)).map (fun k => v % 2 ^ w * 2 ^ (k * w))).sum := by
  obtain ⟨hw0, -, hdvd⟩ := narrow_width_facts hw
  have hrep := replicated_testBit (Nat.mod_lt v (Nat.two_pow_pos w)) (8 / w)
  rw [Nat.div_mul_cancel hdvd] at hrep
  refine Nat.eq_of_testBit_eq fun j => ?_
  by_cases hj : j < 8
  · rw [(hrep j).2 hj, Nat.testBit_mod_two_pow, decide_eq_true (Nat.mod_lt j hw0), Bool.true_and]
    exact h j hj
  · have hpow : 2 ^ 8 ≤ 2 ^ j := Nat.pow_le_pow_right (by decide) (by omega)
    rw [Nat.testBit_lt_two_pow (x.isLt.trans_le hpow), Nat.testBit_lt_two_pow ((hrep j).1.trans_le hpow)]

theorem writeRun_narrow_covered (h : m.wf = true) (hw : w ∈ [1, 2, 4]) (ha : pos % w = 0) (hab : a ≤ b)
    (hlo : pos ≤ 8 * (b - a)) (hhi : 8 * (b - a) + 8 ≤ pos + n * w) :
    ((writeRun m a pos n v w endian).read b).toNat
      = ((List.range (8 / w)).map (fun k => v % 2 ^ w * 2 ^ (k * w))).sum := by
  refine toNat_eq_replicated hw fun j hj => (writeRun_narrow_bit h hw ha hj).1 ?_
  obtain ⟨hw0, -, -⟩ := narrow_width_facts hw
  obtain ⟨hq, -⟩ := bitPosition_bounds (endian := endian) hw hj
  exact ⟨hab, by omega, by omega⟩

theorem writeRun_narrow_outside (h : m.wf = true) (hw : w ∈ [1, 2, 4]) (ha : pos % w = 0)
    (hb : b < a ∨ pos + n * w ≤ 8 * (b - a)) : (writeRun m a pos n v w endian).read b = m.read b :=
  BitVec.eq_of_getLsbD_eq fun _ hj => (writeRun_narrow_bit h hw ha hj).2 fun ⟨hab, _, hhi⟩ => by omega

/-! ### A run from 8 bits on (R108, R109) -/

theorem wide_width_facts (hw : w ∈ [8, 16, 24, 32]) : 8 ≤ w ∧ 8 ∣ w := by
  simp only [List.mem_cons, List.not_mem_nil, or_false] at hw
  omega

/-- From 8 bits on each pixel of a run is the bytes after those of the pixel before it. -/
theorem writeRun_wide_succ (hw : w ∈ [8, 16, 24, 32]) : writeRun m a 0 (n + 1) v w endian =
    memWrite (writeRun m a 0 n v w endian) (a + n * (w / 8)) (w / 8) (v % 2 ^ w) := by
  obtain ⟨hw8, c, rfl⟩ := wide_width_facts hw
  rw [writeRun_succ, writeRaw_wide hw8, Nat.zero_add, Nat.mul_div_assoc _ (Nat.dvd_mul_right 8 c)]

theorem writeRun_wide_outside (h : m.wf = true) (hw : w ∈ [8, 16, 24, 32]) (hb : b < a ∨ a + n * (w / 8) ≤ b) :
    (writeRun m a 0 n v w endian).read b = m.read b := by
  induction n with
  | zero => rfl
  | succ n ih =>
    rw [Nat.add_mul, Nat.one_mul] at hb
    rw [writeRun_wide_succ hw, read_memWrite_outside _ _ _ _ (writeRun_wf h) (by omega), ih (by omega)]

/-- Cutting a value to `c` bytes keeps byte `j` of it, for `j` below `c`. -/
theorem byte_of_mod {c : Nat} (v : Nat) (hj : j < c) : v % 256 ^ c / 256 ^ j % 256 = v / 256 ^ j % 256 := by
  obtain ⟨d, rfl⟩ : ∃ d, c = j + (d + 1) := ⟨c - j - 1, by omega⟩
  rw [pow_add, Nat.mod_mul_right_div_self, Nat.mod_mod_of_dvd _ (dvd_pow_self 256 (Nat.succ_ne_zero d))]

theorem writeRun_wide_byte (h : m.wf = true) (hw : w ∈ [8, 16, 24, 32]) {i : Nat} (hi : i < n) (hj : j < w / 8) :
    ((writeRun m a 0 n v w endian).read (a + i * (w / 8) + j)).toNat = v / 256 ^ j % 256 := by
  induction n with
  | zero => omega
  | succ n ih =>
    rw [writeRun_wide_succ hw]
    rcases Nat.lt_succ_iff_lt_or_eq.1 hi with hlt | rfl
    · have hbefore : (i + 1) * (w / 8) ≤ n * (w / 8) := Nat.mul_le_mul_right _ hlt
      rw [Nat.add_mul, Nat.one_mul] at hbefore
      rw [read_memWrite_outside _ _ _ _ (writeRun_wf h) (by omega), ih hlt]
    · have hpow : 2 ^ w = 256 ^ (w / 8) := by
        rw [show 256 = 2 ^ 8 from rfl, ← pow_mul, Nat.mul_div_cancel' (wide_width_facts hw).2]
      rw [read_memWrite_inside _ _ _ _ (writeRun_wf h) hj, BitVec.toNat_ofNat, hpow]
      exact byte_of_mod v hj

end

/-! ### Addressing (R103) -/

/-- The address and the packing position together count bits. -/
theorem addressOf_bits (base stride bitoff x y w : Nat) :
    (addressOf base stride bitoff x y w).1 * 8 + (addressOf base stride bitoff x y w).2
      = (base + y * stride) * 8 + (x * w + bitoff) := by
  simp only [addressOf]
  omega

/-! ### The statements -/

/-- Settles O33: both sides count bits from the start of the row. -/
theorem addressingIsLinearInX : Obligations.AddressingIsLinearInX := by
  intro base stride bitoff x y w
  rw [addressOf_bits, addressOf_bits, Nat.add_mul x, Nat.one_mul]
  omega

/-- Settles O34: the ROM entry by entry, and the dispatcher by its widths. -/
theorem dispatchSelectsTheKernel : Obligations.DispatchSelectsTheKernel :=
  ⟨rfl, rfl, rfl, rfl, rfl, rfl, rfl, rfl, rfl, rfl, fun _ => bppRom_packed, fun _ => bppRom_reserved,
    fun _ endian => ⟨(dispatch_of_width · endian), (dispatch_of_other_width · endian), dispatch_wide⟩⟩

/-- Settles O30: a raw access is one at a place of the dispatched kernel, where a read returns what was written. -/
theorem rawWriteThenReadReturnsTheValue : Obligations.RawWriteThenReadReturnsTheValue := by
  intro m a pos w v endian h hw hpos haligned
  obtain ⟨k, -, rfl, he⟩ := dispatch_of_width hw endian
  have hread : readRaw (writeRaw m a pos k.bpp endian v) a pos k.bpp endian = v % 2 ^ k.bpp := by
    rw [writeRaw_eq_writePlace he, readRaw_eq_readPlace he]
    exact readPlace_writePlace h (p := ⟨a, pos, k⟩) ⟨hpos, haligned⟩ v
  exact ⟨hread, fun hv => hread.trans (Nat.mod_eq_of_lt hv)⟩

/-- Settles O31: below 8 bits bit by bit, from 8 bits on as a multi-byte write. -/
theorem rawWriteChangesOnlyThePixel : Obligations.RawWriteChangesOnlyThePixel := by
  intro m a pos w v endian b j h _ _ _ hj
  refine ⟨fun hw hb => ?_, fun hw hb => ?_⟩
  · exact (writeRaw_narrow_bit h hw hj).trans (if_neg hb)
  · rw [writeRaw_wide hw, read_memWrite_outside _ _ _ _ h (by omega)]

/-- Settles O32: the bits of a run below 8 bits, its bytes from 8 bits on. -/
theorem runOverAByteReplicates : Obligations.RunOverAByteReplicates := by
  intro m a v endian h
  refine ⟨fun w hw pos n b _ ha => ⟨?_, ?_⟩, fun w hw n => ⟨fun i j => ?_, fun b => ?_⟩⟩
  · exact writeRun_narrow_covered h hw ha
  · exact writeRun_narrow_outside h hw ha
  · exact writeRun_wide_byte h hw
  · exact writeRun_wide_outside h hw

end Sys2Proof.Machine
end

section
/-! PROOF. What a command sees of a slot's format: two slots that differ in PTYPE and ENDIAN only, and are dispatched to
one kernel, give a command the same checks, the same pixel writes and the same register write (R131, R134). -/

namespace Sys2Proof.Machine

/-! ### Slots of one format -/

/-- A slot with another PTYPE and ENDIAN, of the same width and dispatched to the same kernel (R101, R130). -/
inductive Desc.SameFormat (d : Desc) : Desc → Prop where
  | mk (ty : BitVec 5) (e : Bool) (width : bppRom ty = bppRom d.ptype)
      (kernel : ∀ w, bppRom d.ptype = some w → dispatch w e = dispatch w d.endian) :
      SameFormat d { d with ptype := ty, endian := e }

theorem Desc.SameFormat.refl (d : Desc) : d.SameFormat d := .mk d.ptype d.endian rfl fun _ _ => rfl

/-- A slot with another ENDIAN (R36). -/
def Desc.withEndian (e : Bool) (d : Desc) : Desc := { d with endian := e }

/-- A slot with another PTYPE (R36). -/
def Desc.withPtype (ty : BitVec 5) (d : Desc) : Desc := { d with ptype := ty }

/-- From 8 bits on the dispatcher does not look at ENDIAN (R131). -/
theorem sameFormat_withEndian {d : Desc} {w : Nat} (hd : bppRom d.ptype = some w) (hw : 8 ≤ w) (e : Bool) :
    d.SameFormat (d.withEndian e) := by
  have hwide : ∀ b, dispatch w b = dispatch w false := by
    rintro (_ | _)
    · rfl
    · exact dispatch_wide hw
  refine .mk d.ptype e rfl fun v hv => ?_
  obtain rfl : w = v := Option.some.inj (hd.symm.trans hv)
  rw [hwide, hwide d.endian]

theorem sameFormat_withPtype {d : Desc} {ty : BitVec 5} (h : bppRom ty = bppRom d.ptype) :
    d.SameFormat (d.withPtype ty) := .mk ty d.endian h fun _ _ => rfl

namespace Desc.SameFormat
variable {d d' : Desc} (h : d.SameFormat d')
include h

theorem bppRom_eq : bppRom d'.ptype = bppRom d.ptype := by
  obtain ⟨ty, e, width, -⟩ := h
  exact width

theorem dispatch_eq {w : Nat} (hw : bppRom d.ptype = some w) : dispatch w d'.endian = dispatch w d.endian := by
  obtain ⟨ty, e, -, kernel⟩ := h
  exact kernel w hw

/-- The slot check looks at the format only through the width and the kernel (R140). -/
theorem checkSurface_eq : checkSurface d' = checkSurface d := by
  unfold checkSurface
  rw [h.bppRom_eq]
  cases hw : bppRom d.ptype with
  | none => rfl
  | some w =>
    dsimp only
    rw [h.dispatch_eq hw]
    obtain ⟨⟩ := h
    rfl

/-- The footprint looks at the format only through the width (R40). -/
theorem servesSurface_eq (u : List (Nat × Nat)) : servesSurface u d' = servesSurface u d := by
  unfold servesSurface Desc.meets
  rw [h.bppRom_eq]
  obtain ⟨⟩ := h
  rfl

theorem placeOf_eq : placeOf d' = placeOf d := by obtain ⟨⟩ := h; rfl
theorem clipped_eq : clipped d' = clipped d := by obtain ⟨⟩ := h; rfl
theorem xform_eq : xform d' = xform d := by obtain ⟨⟩ := h; rfl
theorem mapPoint_eq : mapPoint d' = mapPoint d := by obtain ⟨⟩ := h; rfl
theorem putAll_eq : putAll d' = putAll d := by obtain ⟨⟩ := h; rfl
theorem logicalWidth_eq : d'.logicalWidth = d.logicalWidth := by obtain ⟨⟩ := h; rfl
theorem logicalHeight_eq : d'.logicalHeight = d.logicalHeight := by obtain ⟨⟩ := h; rfl
theorem boundWidth_eq : d'.boundWidth = d.boundWidth := by obtain ⟨⟩ := h; rfl
theorem boundHeight_eq : d'.boundHeight = d.boundHeight := by obtain ⟨⟩ := h; rfl
theorem axesSwap_eq : d'.axesSwap = d.axesSwap := by obtain ⟨⟩ := h; rfl
theorem xSwap_eq : d'.xSwap = d.xSwap := by obtain ⟨⟩ := h; rfl
theorem ySwap_eq : d'.ySwap = d.ySwap := by obtain ⟨⟩ := h; rfl

end Desc.SameFormat

/-- With one slot replaced by one of the same format, every slot keeps its format. -/
theorem Desc.SameFormat.setDesc {r : Regs} {sl : Slot} {d' : Desc} (h : (r.desc sl).SameFormat d') (x : Slot) :
    (r.desc x).SameFormat ((r.setDesc sl d').desc x) := by
  by_cases hx : x = sl
  · subst hx
    rwa [Regs.desc_setDesc_self]
  · rw [Regs.desc_setDesc_ne _ _ hx]
    exact .refl _

/-! ### Plans over slots of one format -/

/-- The shared end of a command sees of a plan's surfaces only whether they are served (R67, R69). -/
theorem finish_congr_surfaces (s : State) {surfaces surfaces' : List Desc} (ws : List PixelWrite) (w : RegWrite)
    (h : surfaces'.all (servesSurface s.unserved) = surfaces.all (servesSurface s.unserved)) :
    s.finish (.ok ⟨surfaces', ws, w⟩) = s.finish (.ok ⟨surfaces, ws, w⟩) := by
  simp only [State.finish, h]
  rfl

/-- A command on one slot: the slot check, then a body that depends on the slot's format only. -/
def oneSlotPlan (d : Desc) (body : Kernel → List PixelWrite × RegWrite) : Except ErrCode Plan :=
  match checkSurface d with
  | .error c => .error c
  | .ok k => .ok ⟨[d], (body k).1, (body k).2⟩

theorem planGetpix_eq (src : Slot) (raw : Bool) (r : Regs) : planGetpix src raw r = oneSlotPlan (r.desc src) fun k =>
    ([], .result (if clipped (r.desc src) (mapPoint (r.desc src) raw (coord r.arg0) (coord r.arg1)) then none
      else some (placeOf (r.desc src) k (mapPoint (r.desc src) raw (coord r.arg0) (coord r.arg1)).1.toNat
        (mapPoint (r.desc src) raw (coord r.arg0) (coord r.arg1)).2.toNat))) := rfl

theorem planPutpix_eq (dst : Slot) (raw : Bool) (r : Regs) : planPutpix dst raw r = oneSlotPlan (r.desc dst) fun k =>
    (putAll (r.desc dst) k r.color [mapPoint (r.desc dst) raw (coord r.arg0) (coord r.arg1)], .none) := rfl

theorem planLine_eq (dst : Slot) (raw : Bool) (r : Regs) : planLine dst raw r = oneSlotPlan (r.desc dst) fun k =>
    let p := mapPoint (r.desc dst) raw (coord r.arg0) (coord r.arg1)
    let q := mapPoint (r.desc dst) raw (coord r.arg2) (coord r.arg3)
    (putAll (r.desc dst) k r.color (bresenham p.1 p.2 q.1 q.2), .none) := rfl

theorem planRun_eq (dst : Slot) (raw : Bool) (r : Regs) (points : List (Int × Int)) :
    planRun dst raw r points = oneSlotPlan (r.desc dst) fun k =>
      (putAll (r.desc dst) k r.color (points.map fun p => mapPoint (r.desc dst) raw p.1 p.2), .none) := rfl

theorem finish_oneSlotPlan {d d' : Desc} (h : d.SameFormat d') (s : State)
    (body : Kernel → List PixelWrite × RegWrite) : s.finish (oneSlotPlan d' body) = s.finish (oneSlotPlan d body) := by
  unfold oneSlotPlan
  rw [h.checkSurface_eq]
  cases checkSurface d with
  | error c => rfl
  | ok k => exact finish_congr_surfaces s _ _ (by simp only [List.all_cons, h.servesSurface_eq])

section
variable {r : Regs} {sl : Slot} {d' : Desc} (h : (r.desc sl).SameFormat d') (s : State)
include h

theorem finish_planRun_setDesc (dst : Slot) (raw : Bool) (points : List (Int × Int)) :
    s.finish (planRun dst raw (r.setDesc sl d') points) = s.finish (planRun dst raw r points) := by
  have hdst := h.setDesc dst
  simp only [planRun_eq, hdst.putAll_eq, hdst.mapPoint_eq, Regs.setDesc_color]
  exact finish_oneSlotPlan hdst s _

/-- BLIT alone reads PTYPE, to tell whether to convert (R200, R201). -/
theorem finish_planBlit_setDesc (hty : d'.ptype = (r.desc sl).ptype) (src dst : Slot) (raw : Bool) :
    s.finish (planBlit src dst raw (r.setDesc sl d')) = s.finish (planBlit src dst raw r) := by
  have hsrc := h.setDesc src
  have hdst := h.setDesc dst
  have hptype : ∀ x, ((r.setDesc sl d').desc x).ptype = (r.desc x).ptype := by
    intro x
    by_cases hx : x = sl
    · subst hx
      rw [Regs.desc_setDesc_self, hty]
    · rw [Regs.desc_setDesc_ne _ _ hx]
  simp only [planBlit, copyPixel, hsrc.checkSurface_eq, hdst.checkSurface_eq, hsrc.boundWidth_eq, hsrc.boundHeight_eq,
    hdst.boundWidth_eq, hdst.boundHeight_eq, hsrc.mapPoint_eq, hdst.mapPoint_eq, hsrc.placeOf_eq, hdst.placeOf_eq, hptype,
    Regs.setDesc_arg0, Regs.setDesc_arg1, Regs.setDesc_arg2, Regs.setDesc_arg3, Regs.setDesc_arg4, Regs.setDesc_arg5]
  cases checkSurface (r.desc src) with
  | error c => rfl
  | ok ks =>
    cases checkSurface (r.desc dst) with
    | error c => rfl
    | ok kt =>
      dsimp only
      split_ifs
      · rfl
      · rfl
      · exact finish_congr_surfaces s _ _ (by simp only [List.all_cons, hsrc.servesSurface_eq, hdst.servesSurface_eq])

/-- A command other than SUBVIEW ends alike over slots of one format; BLIT if the types are the same, too. -/
theorem finish_planOf_setDesc {i : Instr} (hsub : ∀ p q, i ≠ .subview p q)
    (hblit : d'.ptype = (r.desc sl).ptype ∨ ∀ p q raw, i ≠ .blit p q raw) :
    s.finish (planOf i (r.setDesc sl d')) = s.finish (planOf i r) := by
  cases i with
  | nop => rfl
  | getpix src raw =>
    have hsrc := h.setDesc src
    simp only [planOf, planGetpix_eq, hsrc.clipped_eq, hsrc.mapPoint_eq, hsrc.placeOf_eq, Regs.setDesc_arg0,
      Regs.setDesc_arg1]
    exact finish_oneSlotPlan hsrc s _
  | putpix dst raw =>
    have hdst := h.setDesc dst
    simp only [planOf, planPutpix_eq, hdst.putAll_eq, hdst.mapPoint_eq, Regs.setDesc_arg0, Regs.setDesc_arg1,
      Regs.setDesc_color]
    exact finish_oneSlotPlan hdst s _
  | line dst raw =>
    have hdst := h.setDesc dst
    simp only [planOf, planLine_eq, hdst.putAll_eq, hdst.mapPoint_eq, Regs.setDesc_arg0, Regs.setDesc_arg1,
      Regs.setDesc_arg2, Regs.setDesc_arg3, Regs.setDesc_color]
    exact finish_oneSlotPlan hdst s _
  | hline dst raw | hlinew dst raw | vline dst raw | vlineh dst raw => exact finish_planRun_setDesc h s dst raw _
  | blit src dst raw =>
    rcases hblit with hty | hblit
    · exact finish_planBlit_setDesc h s hty src dst raw
    · exact absurd rfl (hblit src dst raw)
  | subview parent result => exact absurd rfl (hsub parent result)
  | rotcw x | rotccw x | flipx x | flipy x =>
    have hx := h.setDesc x
    simp only [planOf, planRotcw, planRotccw, planFlipx, planFlipy, hx.axesSwap_eq, hx.xSwap_eq, hx.ySwap_eq]

end

/-! ### A plan over a changed slot -/

/-- The operand registers with one slot changed by `g`. -/
def State.mapSlot (s : State) (sl : Slot) (g : Desc → Desc) : State :=
  { s with regs := s.regs.setDesc sl (g (s.regs.desc sl)) }

/-- What an issue leaves, DONE cleared and a command in flight, its completion writes again (R220, R222). -/
theorem finish_issue (s : State) (cw : Word) (r : Except ErrCode Plan) : (s.issue cw).finish r = s.finish r := by
  cases r with
  | error c => rfl
  | ok p =>
    obtain ⟨surfaces, ws, w⟩ := p
    rcases w with _ | (_ | _) | _ | _ <;> rfl

theorem exec_issue (i : Instr) (s : State) (cw : Word) : exec i (s.issue cw) = s.finish (planOf i s.regs) := by
  rw [exec_eq_finish, finish_issue]
  rfl

theorem Regs.setDesc_comm (r : Regs) {x y : Slot} (v w : Desc) (h : x ≠ y) :
    (r.setDesc x v).setDesc y w = (r.setDesc y w).setDesc x v := by
  cases x <;> cases y <;> first | exact absurd rfl h | rfl

section
variable {sl : Slot} {g : Desc → Desc} (hg : ∀ d a x y, g (d.setOrient a x y) = (g d).setOrient a x y)
include hg

theorem commit_mapSlot {w : RegWrite} (hw : ∀ q d, w ≠ .slot q d) (s : State) :
    (s.mapSlot sl g).commit w = (s.commit w).mapSlot sl g := by
  cases w with
  | none => rfl
  | result p => cases p <;> rfl
  | orient x a b c =>
    simp only [State.mapSlot, State.commit]
    by_cases hx : x = sl
    · subst hx
      simp only [Regs.desc_setDesc_self, Regs.setDesc_setDesc_self, hg]
    · rw [Regs.desc_setDesc_ne _ _ hx, Regs.desc_setDesc_ne _ _ (Ne.symm hx), Regs.setDesc_comm _ _ _ (Ne.symm hx)]
  | slot q d => exact absurd rfl (hw q d)

theorem finish_mapSlot {s t : State} {r : Except ErrCode Plan} (hr : ∀ p, r = .ok p → ∀ q d, p.regWrite ≠ .slot q d)
    (h : s.finish r = .next t) : (s.mapSlot sl g).finish r = .next (t.mapSlot sl g) := by
  rcases finish_next h with ⟨c, rfl, rfl⟩ | ⟨p, rfl, hbytes, hserved, rfl⟩
  · rfl
  · have hcommit := commit_mapSlot hg (hr p rfl) (sl := sl) (s.withMem (runWrites s.mem p.writes))
    calc (s.mapSlot sl g).finish (.ok p)
        = .next ((((s.withMem (runWrites s.mem p.writes)).mapSlot sl g).commit p.regWrite).complete .ok) :=
          finish_ok (s := s.mapSlot sl g) hbytes hserved
      _ = _ := by rw [hcommit]; rfl

/-- A command other than SUBVIEW, issued over a slot changed to one of the same format, ends alike and leaves the slot
so changed; BLIT if the type is the same, too. -/
theorem exec_issue_mapSlot {i : Instr} {s t : State} (hsub : ∀ p q, i ≠ .subview p q)
    (hformat : (s.regs.desc sl).SameFormat (g (s.regs.desc sl)))
    (hblit : (g (s.regs.desc sl)).ptype = (s.regs.desc sl).ptype ∨ ∀ p q raw, i ≠ .blit p q raw)
    (h : exec i (s.issue (encode i)) = .next t) : exec i ((s.mapSlot sl g).issue (encode i)) = .next (t.mapSlot sl g) := by
  rw [exec_issue] at h ⊢
  have hslot : ∀ p, planOf i s.regs = .ok p → ∀ q d, p.regWrite ≠ .slot q d := by
    intro p hp q d hw
    obtain ⟨parent, rfl⟩ : ∃ parent, i = .subview parent q := by simpa [RegWrite.allowedBy, hw] using planOf_regWrite hp
    exact hsub parent q rfl
  exact (finish_planOf_setDesc hformat _ hsub hblit).trans (finish_mapSlot hg hslot h)

end

/-! ### SUBVIEW, which copies ENDIAN (R156) -/

/-- A register write whose slot, if it writes one, has ENDIAN `e`. -/
def RegWrite.withEndian (e : Bool) : RegWrite → RegWrite
  | .slot q d => .slot q (d.withEndian e)
  | w => w

/-- A plan whose surfaces, and the slot it writes, have ENDIAN `e`. -/
def Plan.withEndian (e : Bool) (p : Plan) : Plan :=
  { p with surfaces := p.surfaces.map (Desc.withEndian e), regWrite := p.regWrite.withEndian e }

theorem desc_setDesc_withEndian (r : Regs) (sl : Slot) (e : Bool) (x : Slot) :
    ∃ e', (r.setDesc sl ((r.desc sl).withEndian e)).desc x = (r.desc x).withEndian e' := by
  by_cases hx : x = sl
  · subst hx
    exact ⟨e, Regs.desc_setDesc_self ..⟩
  · exact ⟨(r.desc x).endian, Regs.desc_setDesc_ne _ _ hx⟩

/-- SUBVIEW of a parent with another ENDIAN, of the same kernel, makes the same checks and the same slot but for
ENDIAN. -/
theorem planSubview_setDesc {r : Regs} {sl parent : Slot} {d' : Desc} {e : Bool} (h : (r.desc sl).SameFormat d')
    (hd : (r.setDesc sl d').desc parent = (r.desc parent).withEndian e) (result : Slot) :
    planSubview parent result (r.setDesc sl d') = (planSubview parent result r).map (Plan.withEndian e) := by
  have hparent := h.setDesc parent
  simp only [planSubview, hparent.checkSurface_eq, hparent.logicalWidth_eq, hparent.logicalHeight_eq, hparent.xform_eq,
    Regs.setDesc_arg0, Regs.setDesc_arg1, Regs.setDesc_arg2, Regs.setDesc_arg3]
  cases checkSurface (r.desc parent) with
  | error c => rfl
  | ok k =>
    dsimp only
    split_ifs
    · rfl
    · rfl
    · rw [hd]
      rfl

/-- SUBVIEW issued over a slot of the same kernel with another ENDIAN ends alike but for ENDIAN fields. -/
theorem exec_subview_mapSlot {s t : State} {sl parent result : Slot} {e : Bool} {cw : Word}
    (hformat : (s.regs.desc sl).SameFormat ((s.regs.desc sl).withEndian e))
    (h : exec (.subview parent result) (s.issue cw) = .next t) :
    ∃ d : Slots, exec (.subview parent result) ((s.mapSlot sl (Desc.withEndian e)).issue cw) =
        .next { t with regs := { t.regs with slots := d } } ∧
      ∀ x, ∃ e', d.get x = (t.regs.desc x).withEndian e' := by
  rw [exec_issue] at h ⊢
  obtain ⟨e', hd⟩ := desc_setDesc_withEndian s.regs sl e parent
  have hplan : planOf (.subview parent result) (s.mapSlot sl (Desc.withEndian e)).regs =
      (planOf (.subview parent result) s.regs).map (Plan.withEndian e') := planSubview_setDesc hformat hd result
  rw [hplan]
  have hdescs := desc_setDesc_withEndian s.regs sl e
  rcases finish_next h with ⟨c, hc, rfl⟩ | ⟨p, hp, hbytes, hserved, rfl⟩
  · rw [hc]
    exact ⟨_, rfl, hdescs⟩
  · obtain ⟨n, rfl⟩ : ∃ n, p = ⟨[s.regs.desc parent], [], .slot result n⟩ := by
      obtain ⟨k, -, -, hshape⟩ := planSubview_ok hp
      exact ⟨_, hshape⟩
    rw [hp]
    refine ⟨((s.mapSlot sl (Desc.withEndian e)).regs.setDesc result (n.withEndian e')).slots,
      finish_ok (s := s.mapSlot sl (Desc.withEndian e)) (p := Plan.withEndian e' ⟨_, _, _⟩) hbytes fun x hx => ?_,
      fun x => ?_⟩
    · obtain rfl := List.mem_singleton.1 hx
      exact hserved (s.regs.desc parent) (List.mem_singleton_self _)
    · change ∃ e'', ((s.mapSlot sl (Desc.withEndian e)).regs.setDesc result (n.withEndian e')).desc x =
        ((s.regs.setDesc result n).desc x).withEndian e''
      by_cases hx : x = result
      · subst hx
        exact ⟨e', by rw [Regs.desc_setDesc_self, Regs.desc_setDesc_self]⟩
      · rw [Regs.desc_setDesc_ne _ _ hx, Regs.desc_setDesc_ne _ _ hx]
        exact hdescs x

/-! ### The statements -/

/-- Settles O35: ENDIAN of a wide slot does not change its format, and SUBVIEW alone carries it to another slot. -/
theorem wideSurfacesIgnoreEndian : Obligations.WideSurfacesIgnoreEndian := by
  intro i s t sl w endian _ hwidth hw h u
  have hformat : (s.regs.desc sl).SameFormat ((s.regs.desc sl).withEndian endian) := sameFormat_withEndian hwidth hw endian
  have hother : (∀ p q, i ≠ .subview p q) →
      exec i (u.issue (encode i)) = .next (t.mapSlot sl (Desc.withEndian endian)) := fun hsub =>
    exec_issue_mapSlot (fun _ _ _ _ => rfl) hsub hformat (.inl rfl) h
  refine ⟨hother, ?_⟩
  by_cases hsub : ∀ p q, i ≠ .subview p q
  · exact ⟨_, hother hsub, desc_setDesc_withEndian t.regs sl endian⟩
  · push Not at hsub
    obtain ⟨parent, result, rfl⟩ := hsub
    exact exec_subview_mapSlot hformat h

/-- Settles O36: the two slots have one format, and no command but BLIT and SUBVIEW carries PTYPE further. -/
theorem typesOfOneWidthShareAKernel : Obligations.TypesOfOneWidthShareAKernel := by
  intro i s t sl ty _ hwidth hsub hblit h
  exact exec_issue_mapSlot (g := Desc.withPtype ty) (fun _ _ _ _ => rfl) hsub (sameFormat_withPtype hwidth) (.inr hblit) h

end Sys2Proof.Machine
end

section
/-! PROOF. The slot check in its order, the pixels of a legal surface, and the orientation transform (R140, R141,
R151). -/

namespace Sys2Proof.Machine

/-! ### The slot check (R140) -/

/-- The conditions of R140 that raise BAD_DESC when one fails, for pixel width `w`. -/
def Desc.shapeOk (d : Desc) (w : Nat) : Prop :=
  d.width ≠ 0 ∧ d.height ≠ 0 ∧ (8 ≤ w → d.bitoff = 0) ∧ (w < 8 → d.bitoff.toNat % w = 0) ∧
    d.rowBytes w ≤ d.stride.toNat ∧
    d.base.toNat + d.stride.toNat * (d.height.toNat - 1) + d.rowBytes w ≤ addressSpace

theorem Desc.shapeOk_iff (d : Desc) (w : Nat) : d.shapeOk w ↔
    d.width.toNat ≠ 0 ∧ d.height.toNat ≠ 0 ∧ (8 ≤ w → d.bitoff.toNat = 0) ∧ (w < 8 → d.bitoff.toNat % w = 0) ∧
      d.rowBytes w ≤ d.stride.toNat ∧
      d.base.toNat + d.stride.toNat * (d.height.toNat - 1) + d.rowBytes w ≤ addressSpace := by
  simp [Desc.shapeOk, ← BitVec.toNat_inj]

section
variable {d : Desc} {w : Nat} {k : Kernel}

theorem checkSurface_reserved (h : bppRom d.ptype = none) : checkSurface d = .error .badPtype := by
  simp only [checkSurface, h]

theorem checkSurface_badDesc (hw : bppRom d.ptype = some w) (hk : dispatch w d.endian = .ok k) (h : ¬ d.shapeOk w) :
    checkSurface d = .error .badDesc := by
  rw [Desc.shapeOk_iff] at h
  simp only [checkSurface, hw, hk]
  split_ifs with hdim hwide hnarrow hstride hextent hclip
  any_goals rfl
  all_goals exact absurd ⟨by omega, by omega, by omega, by omega, by omega, by omega⟩ h

theorem checkSurface_of_shapeOk (hw : bppRom d.ptype = some w) (hk : dispatch w d.endian = .ok k) (h : d.shapeOk w) :
    checkSurface d = if d.clipOk = false then .error .badClip else .ok k := by
  obtain ⟨hwidth, hheight, hwide, hnarrow, hstride, hextent⟩ := d.shapeOk_iff w |>.1 h
  simp only [checkSurface, hw, hk]
  rw [if_neg (by omega), if_neg (by omega), if_neg (by omega), if_neg (by omega), if_neg (by omega)]

end

/-- The clip condition of R140 as the statement reads it. -/
theorem Desc.clipOk_iff_le (d : Desc) : d.clipOk = true ↔
    d.xmin ≤ d.xmax ∧ d.xmax < d.width ∧ d.ymin ≤ d.ymax ∧ d.ymax < d.height := d.clipOk_iff

theorem bppRom_defined {t : BitVec 5} (h : t.toNat ≤ 17) : ∃ w, bppRom t = some w :=
  Option.isSome_iff_exists.1 ((bppRom_isSome t).2 h)

theorem dispatch_bppRom {t : BitVec 5} {w : Nat} (h : bppRom t = some w) (endian : Bool) :
    ∃ k, dispatch w endian = .ok k := by
  obtain ⟨k, hk, -⟩ := dispatch_of_width (by simpa using bppRom_cases h) endian
  exact ⟨k, hk⟩

/-- Settles O37: each clause is the first test of the slot check that fails. -/
theorem slotCheckFollowsItsOrder : Obligations.SlotCheckFollowsItsOrder := by
  intro d
  refine ⟨fun h => checkSurface_reserved (bppRom_reserved h), fun w hw => ?_, bppRom_defined⟩
  obtain ⟨k, hk⟩ := dispatch_bppRom hw d.endian
  have hdefined : d.ptype.toNat ≤ 17 := (bppRom_isSome _).1 (by rw [hw]; rfl)
  refine ⟨hdefined, checkSurface_badDesc hw hk, fun hshape hclip => ?_, fun hshape hclip => ⟨k, ?_, hk⟩⟩
  · rw [checkSurface_of_shapeOk hw hk hshape, if_pos (Bool.eq_false_iff.2 (mt d.clipOk_iff_le.1 hclip))]
  · rw [checkSurface_of_shapeOk hw hk hshape, if_neg (by simp [d.clipOk_iff_le.2 hclip])]

/-! ### The pixels of a legal surface (R141) -/

/-- The bits of an aligned pixel are bits of a byte. -/
theorem Place.aligned.hasBit_lt {p : Place} (h : p.aligned) {a j : Nat} (hb : p.hasBit a j) : j < 8 := by
  unfold Place.hasBit at hb
  split at hb
  · exact hb.2.2
  · have hfits := physShift_fits h (by omega)
    omega

/-- Settles O38: alignment makes the bits whole, and the stride keeps the rows apart. -/
theorem legalSurfacePixelsAreWholeAndDisjoint : Obligations.LegalSurfacePixelsAreWholeAndDisjoint := by
  intro d k hk
  have hlegal := checkSurface_ok hk
  obtain ⟨hx, -, hy, -⟩ := d.clipOk_iff_le.1 hlegal.clip
  refine ⟨fun px py hpx hpy => ⟨hlegal.aligned px py, fun a j hb => ?_, fun a ha => ?_⟩, ?_, hx, hy, ?_⟩
  · exact ⟨mem_bytes_of_hasBit hb, (hlegal.aligned px py).hasBit_lt hb⟩
  · exact ⟨hlegal.bytes_covered hpx hpy a ha, hlegal.bytes_inSpace hpx hpy a ha⟩
  · rintro px py qx qy hpx - hqx - hne a j ⟨hp, hq⟩
    exact hlegal.bits_disjoint hpx hqx hne a j hp hq
  · exact fun p hp => hlegal.holds_of_unclipped hp

/-! ### The orientation transform (R151) -/

/-- Settles O39: membership in the boxes is carried over, and the transform is a bijection of the plane. -/
theorem orientationMapsBoxOntoBox : Obligations.OrientationMapsBoxOntoBox := by
  intro d
  refine ⟨fun x y => (xform_holds_iff d x y).2, fun x y => mt (xform_holds_iff d x y).1, fun _ _ _ _ => xform_injective d,
    fun p hp => ?_⟩
  obtain ⟨x, y, rfl⟩ := xform_surjective d p
  exact ⟨x, y, (xform_holds_iff d x y).1 hp, rfl⟩

end Sys2Proof.Machine
end

section
/-! PROOF. The commands that touch no pixel: how a command ends with its code, NOP, and the turns of an orientation; and
the slot check as the first thing every other command does (R140, R155, R160 to R164). -/

namespace Sys2Proof.Machine

/-! ### How a command ends (R222, R223) -/

theorem complete_ok (s : State) : s.complete .ok = { s with errcode := .ok, done := true, flight := none } := by
  simp [State.complete]

theorem exec_of_error {i : Instr} {s : State} {c : ErrCode} (h : planOf i s.operands = .error c) (hc : c ≠ .ok) :
    exec i s = .next (s.raised c) := by
  rw [exec_eq_finish, h, finish_error, complete_eq_raised hc]

/-- A plan with no surface and no pixel write makes its register write and completes. -/
theorem finish_regWrite (s : State) {w : RegWrite} (hw : w.bytes = []) :
    s.finish (.ok ⟨[], [], w⟩) = .next ((s.commit w).complete .ok) :=
  finish_ok (p := ⟨[], [], w⟩) (by simp [Plan.bytes, hw]) (by simp)

/-! ### NOP (R155) -/

theorem eq_nop_of_fields_opc {i : Instr} (h : i.fields.opc = 0) : i = .nop := by
  cases i with
  | nop => rfl
  | _ => exact absurd h (by simp [Instr.fields])

/-- The only word with opcode 0 that decodes is 0 (R87). -/
theorem decode_error_of_opc_zero {cw : Word} (hne : cw ≠ 0) (hopc : (fieldsOf cw).opc = 0) :
    decode cw = .error (rejectReason cw) := by
  rcases decode_cases cw with ⟨i, hi, hfields, -⟩ | ⟨he, -⟩
  · obtain rfl : i = .nop := eq_nop_of_fields_opc (by rw [hfields, hopc])
    exact absurd (eq_encode_of_decode hi) hne
  · exact he

/-- Settles O14: the plan of NOP is empty, and no other word has its fields. -/
theorem nopOnlyCompletes : Obligations.NopOnlyCompletes := by
  refine ⟨fun s => ?_, decode_encode .nop, fun cw hne hopc => ⟨_, decode_error_of_opc_zero hne hopc⟩⟩
  rw [exec_eq_finish, ← complete_ok]
  exact finish_regWrite s (w := .none) rfl

/-! ### The flag commands (R160 to R163) -/

/-- The commands that change ORIENT of slot `sl`. -/
def flagCommands (sl : Slot) : List Instr := [.rotcw sl, .rotccw sl, .flipx sl, .flipy sl]

/-- The flags (AXES_SWAP, X_SWAP, Y_SWAP) a flag command gives a slot, from those the slot has. -/
def flagsAfter (i : Instr) (d : Desc) : Bool × Bool × Bool :=
  match i with
  | .rotcw _ => (!d.axesSwap, !d.ySwap, d.xSwap)
  | .rotccw _ => (!d.axesSwap, d.ySwap, !d.xSwap)
  | .flipx _ => (d.axesSwap, !d.xSwap, d.ySwap)
  | .flipy _ => (d.axesSwap, d.xSwap, !d.ySwap)
  | _ => (d.axesSwap, d.xSwap, d.ySwap)

theorem rotcwFlags_eq (x y : Bool) : rotcwFlags (x, y) = (!y, x) := by cases x <;> cases y <;> rfl
theorem rotccwFlags_eq (x y : Bool) : rotccwFlags (x, y) = (y, !x) := by cases x <;> cases y <;> rfl

theorem planOf_flagCommand {i : Instr} {sl : Slot} (hi : i ∈ flagCommands sl) (r : Regs) :
    let f := flagsAfter i (r.desc sl)
    planOf i r = .ok ⟨[], [], .orient sl f.1 f.2.1 f.2.2⟩ := by
  simp only [flagCommands, List.mem_cons, List.not_mem_nil, or_false] at hi
  rcases hi with rfl | rfl | rfl | rfl
  · simp only [planOf, planRotcw, rotcwFlags_eq, flagsAfter]
  · simp only [planOf, planRotccw, rotccwFlags_eq, flagsAfter]
  · rfl
  · rfl

/-- A flag command completes whatever its slot holds, and writes ORIENT of that slot alone. -/
theorem exec_flagCommand {i : Instr} {sl : Slot} (hi : i ∈ flagCommands sl) (s : State) :
    let f := flagsAfter i (s.operands.desc sl)
    exec i s = .next { s with
      regs := s.regs.setDesc sl ((s.regs.desc sl).setOrient f.1 f.2.1 f.2.2)
      errcode := .ok, done := true, flight := none } := by
  intro f
  rw [exec_eq_finish, planOf_flagCommand hi, finish_regWrite s rfl, complete_ok]
  rfl

/-- Settles O15, from what each of the four commands makes of the flags. -/
theorem flagCommandsTurnTheOrientation : Obligations.FlagCommandsTurnTheOrientation := fun s sl =>
  ⟨exec_flagCommand (i := .rotcw sl) (by simp [flagCommands]) s,
    exec_flagCommand (i := .rotccw sl) (by simp [flagCommands]) s,
    exec_flagCommand (i := .flipx sl) (by simp [flagCommands]) s,
    exec_flagCommand (i := .flipy sl) (by simp [flagCommands]) s⟩

/-! ### Flag commands one after another (R164) -/

/-- A slot after a flag command on it. -/
def turnedBy (d : Desc) (i : Instr) : Desc :=
  d.setOrient (flagsAfter i d).1 (flagsAfter i d).2.1 (flagsAfter i d).2.2

/-- Flag commands on one slot, issued one after another, turn that slot and leave every other operand register, and memory. -/
theorem execAll_flagCommands {sl : Slot} : ∀ {l : List Instr} (s : State), (∀ i ∈ l, i ∈ flagCommands sl) →
    ∃ t, execAll l s = .next t ∧ t.regs = s.regs.setDesc sl (l.foldl turnedBy (s.regs.desc sl)) ∧ t.mem = s.mem
  | [], s, _ => ⟨s, rfl, (Regs.setDesc_desc_self _ _).symm, rfl⟩
  | i :: is, s, h => by
    have hexec := exec_flagCommand (h i (List.mem_cons_self ..)) (s.issue (encode i))
    obtain ⟨t, ht, hregs, hmem⟩ := execAll_flagCommands (l := is)
      { s.issue (encode i) with
        regs := s.regs.setDesc sl (turnedBy (s.regs.desc sl) i), errcode := .ok, done := true, flight := none }
      fun j hj => h j (List.mem_cons_of_mem _ hj)
    refine ⟨t, ?_, ?_, hmem⟩
    · rw [execAll, hexec]
      exact ht
    · rw [hregs, Regs.setDesc_setDesc_self, Regs.desc_setDesc_self, List.foldl_cons]

/-- Flag commands that bring the slot back to what it was bring the operand registers back. -/
theorem execAll_flagCommands_of_closed {sl : Slot} {l : List Instr} (s : State) (hl : ∀ i ∈ l, i ∈ flagCommands sl)
    (hclosed : ∀ d, l.foldl turnedBy d = d) : ∃ t, execAll l s = .next t ∧ t.regs = s.regs ∧ t.mem = s.mem := by
  obtain ⟨t, ht, hregs, hmem⟩ := execAll_flagCommands s hl
  exact ⟨t, ht, by rw [hregs, hclosed, Regs.setDesc_desc_self], hmem⟩

/-- Two turns from the identity are the half turn (R164). -/
theorem xform_half_turn {d : Desc} (hd : d.setOrient false false false = d) (sl : Slot) (x y : Int) :
    xform ([.rotcw sl, .rotcw sl].foldl turnedBy d) x y = (d.width.toNat - 1 - x, d.height.toNat - 1 - y) := by
  rw [← hd]
  rfl

/-- Settles O16: each list brings the flags of every slot back. -/
theorem orientationGroupCloses : Obligations.OrientationGroupCloses := by
  intro s sl _
  refine ⟨fun l hl => ?_, fun hd => ?_⟩
  · simp only [List.mem_cons, List.not_mem_nil, or_false] at hl
    rcases hl with rfl | rfl | rfl | rfl | rfl | rfl
    all_goals
      refine execAll_flagCommands_of_closed s (sl := sl) (by simp [flagCommands]) fun d => ?_
      simp [turnedBy, flagsAfter, Desc.setOrient]
  · obtain ⟨t, ht, hregs, -⟩ := execAll_flagCommands (l := [.rotcw sl, .rotcw sl]) s (sl := sl) (by simp [flagCommands])
    refine ⟨t, ht, fun x y => ?_⟩
    rw [hregs, Regs.desc_setDesc_self, mapPoint_logical, xform_half_turn hd]

/-! ### The slot check comes first (R140, R227) -/

/-- The commands whose first check is that of slot `sl`. -/
def checksFirst (sl other : Slot) (raw : Bool) : List Instr :=
  [.getpix sl raw, .putpix sl raw, .line sl raw, .hline sl raw, .hlinew sl raw, .vline sl raw, .vlineh sl raw,
    .blit sl other raw, .subview sl other]

section
variable {r : Regs} {sl : Slot} {c : ErrCode} (h : checkSurface (r.desc sl) = .error c)
include h

theorem oneSlotPlan_error (body : Kernel → List PixelWrite × RegWrite) : oneSlotPlan (r.desc sl) body = .error c := by
  simp only [oneSlotPlan, h]

theorem planRun_error (raw : Bool) (points : List (Int × Int)) : planRun sl raw r points = .error c :=
  (planRun_eq sl raw r points).trans (oneSlotPlan_error h _)

theorem planBlit_src_error (other : Slot) (raw : Bool) : planBlit sl other raw r = .error c := by
  simp only [planBlit, h]

/-- With a legal source, the destination is checked next. -/
theorem planBlit_dst_error {src : Slot} {k : Kernel} (hsrc : checkSurface (r.desc src) = .ok k) (raw : Bool) :
    planBlit src sl raw r = .error c := by
  simp only [planBlit, hsrc, h]

theorem planSubview_parent_error (result : Slot) : planSubview sl result r = .error c := by
  simp only [planSubview, h]

theorem planOf_checksFirst {other : Slot} {raw : Bool} {i : Instr} (hi : i ∈ checksFirst sl other raw) :
    planOf i r = .error c := by
  simp only [checksFirst, List.mem_cons, List.not_mem_nil, or_false] at hi
  rcases hi with rfl | rfl | rfl | rfl | rfl | rfl | rfl | rfl | rfl
  · exact (planGetpix_eq sl raw r).trans (oneSlotPlan_error h _)
  · exact (planPutpix_eq sl raw r).trans (oneSlotPlan_error h _)
  · exact (planLine_eq sl raw r).trans (oneSlotPlan_error h _)
  iterate 4 exact planRun_error h raw _
  · exact planBlit_src_error h other raw
  · exact planSubview_parent_error h other

end

theorem checkSurface_error_ne_ok {d : Desc} {c : ErrCode} (h : checkSurface d = .error c) : c ≠ .ok := by
  rcases checkSurface_error h with rfl | rfl | rfl <;> decide

/-- Settles O41: the plan is the error of the check. -/
theorem slotChecksRaiseFirst : Obligations.SlotChecksRaiseFirst := by
  intro s sl other raw c h
  have hc := checkSurface_error_ne_ok h
  exact ⟨fun i hi => exec_of_error (planOf_checksFirst h hi) hc,
    fun k hk => exec_of_error (planBlit_dst_error h hk raw) hc⟩

end Sys2Proof.Machine
end

section
/-! PROOF. SUBVIEW: when it raises, the numbers of the slot it writes, and where the pixels of that slot stand (R156,
R157). -/

namespace Sys2Proof.Machine

/-! ### When it raises (R156) -/

/-- The rectangle of SUBVIEW is empty or leaves the logical bounds of the slot. -/
def subviewOutside (d : Desc) (r : Regs) : Prop :=
  count r.arg2 = 0 ∨ count r.arg3 = 0 ∨ coord r.arg0 < 0 ∨ coord r.arg1 < 0 ∨
    coord r.arg0 + count r.arg2 > d.logicalWidth ∨ coord r.arg1 + count r.arg3 > d.logicalHeight

theorem count_nonneg (w : Word) : 0 ≤ count w := Int.natCast_nonneg _

theorem not_subviewOutside_iff (d : Desc) (r : Regs) : ¬ subviewOutside d r ↔
    0 < count r.arg2 ∧ 0 < count r.arg3 ∧ 0 ≤ coord r.arg0 ∧ 0 ≤ coord r.arg1 ∧
      coord r.arg0 + count r.arg2 ≤ d.logicalWidth ∧ coord r.arg1 + count r.arg3 ≤ d.logicalHeight := by
  have hrw := count_nonneg r.arg2
  have hrh := count_nonneg r.arg3
  unfold subviewOutside
  omega

/-- The slot SUBVIEW writes for a rectangle of the parent `d`. -/
def subviewResult (d : Desc) (k : Kernel) (r : Regs) : Desc :=
  subviewDesc d k.bpp (xform d (coord r.arg0) (coord r.arg1))
    (xform d (coord r.arg0 + count r.arg2 - 1) (coord r.arg1 + count r.arg3 - 1))

section
variable {r : Regs} {parent : Slot} {k : Kernel} (hk : checkSurface (r.desc parent) = .ok k) (result : Slot)
include hk

theorem planSubview_outside (h : subviewOutside (r.desc parent) r) :
    planSubview parent result r = .error .subviewBounds := by
  unfold subviewOutside at h
  simp only [planSubview, hk]
  split_ifs with hempty hbounds
  · rfl
  · rfl
  · omega

theorem planSubview_inside (h : ¬ subviewOutside (r.desc parent) r) :
    planSubview parent result r = .ok ⟨[r.desc parent], [], .slot result (subviewResult (r.desc parent) k r)⟩ := by
  obtain ⟨hrw, hrh, hx, hy, hxw, hyh⟩ := (not_subviewOutside_iff _ r).1 h
  simp only [planSubview, hk]
  rw [if_neg (by omega), if_neg (by omega)]
  rfl

end

/-! ### The physical rectangle (R156) -/

/-- The pixels `p` and `q` of a surface span its columns `px0..px1` and rows `py0..py1`. -/
structure SpansBox (d : Desc) (p q : Int × Int) (px0 px1 py0 py1 : Nat) : Prop where
  left : min p.1 q.1 = px0
  right : max p.1 q.1 = px1
  top : min p.2 q.2 = py0
  bottom : max p.2 q.2 = py1
  columns : px0 ≤ px1
  rows : py0 ≤ py1
  right_lt : px1 < d.width.toNat
  bottom_lt : py1 < d.height.toNat

theorem exists_spansBox {d : Desc} {p q : Int × Int} (hp : d.holds p) (hq : d.holds q) :
    ∃ px0 px1 py0 py1, SpansBox d p q px0 px1 py0 py1 := by
  obtain ⟨hp0, hp1, hp2, hp3⟩ := hp
  obtain ⟨hq0, hq1, hq2, hq3⟩ := hq
  refine ⟨(min p.1 q.1).toNat, (max p.1 q.1).toNat, (min p.2 q.2).toNat, (max p.2 q.2).toNat, ?_⟩
  constructor <;> omega

/-- The corners of a rectangle inside the logical bounds are pixels of the surface. -/
theorem corners_spansBox {d : Desc} {r : Regs} (h : ¬ subviewOutside d r) : ∃ px0 px1 py0 py1,
    SpansBox d (xform d (coord r.arg0) (coord r.arg1))
      (xform d (coord r.arg0 + count r.arg2 - 1) (coord r.arg1 + count r.arg3 - 1)) px0 px1 py0 py1 := by
  obtain ⟨hrw, hrh, hx, hy, hxw, hyh⟩ := (not_subviewOutside_iff d r).1 h
  refine exists_spansBox ((xform_holds_iff d _ _).2 ?_) ((xform_holds_iff d _ _).2 ?_) <;>
    exact ⟨by omega, by omega, by omega, by omega⟩

/-! ### The numbers of the new slot (R156) -/

/-- `n` is the slot R156 gives for the physical columns `px0..px1` and rows `py0..py1` of `d`, no field truncated. -/
structure SubviewFields (d : Desc) (k : Kernel) (px0 px1 py0 py1 : Nat) (n : Desc) : Prop where
  base : n.base.toNat = d.base.toNat + py0 * d.stride.toNat + (px0 * k.bpp + d.bitoff.toNat) / 8
  stride : n.stride = d.stride
  width : n.width.toNat = px1 - px0 + 1
  height : n.height.toNat = py1 - py0 + 1
  ptype : n.ptype = d.ptype
  endian : n.endian = d.endian
  bitoff : n.bitoff.toNat = (px0 * k.bpp + d.bitoff.toNat) % 8
  xmin : n.xmin.toNat = 0
  xmax : n.xmax.toNat = px1 - px0
  ymin : n.ymin.toNat = 0
  ymax : n.ymax.toNat = py1 - py0
  axesSwap : n.axesSwap = d.axesSwap
  xSwap : n.xSwap = d.xSwap
  ySwap : n.ySwap = d.ySwap

section
variable {d n : Desc} {k : Kernel} {p q : Int × Int} {px0 px1 py0 py1 : Nat}

theorem subviewDesc_fields (hk : checkSurface d = .ok k) (b : SpansBox d p q px0 px1 py0 py1) :
    SubviewFields d k px0 px1 py0 py1 (subviewDesc d k.bpp p q) := by
  have hbase := ((checkSurface_ok hk).rectangle b.columns b.right_lt b.rows b.bottom_lt).1
  have hwidth : px1 - px0 + 1 < 2 ^ 16 := by have := b.right_lt; have := d.width.isLt; omega
  have hheight : py1 - py0 + 1 < 2 ^ 16 := by have := b.bottom_lt; have := d.height.isLt; omega
  simp only [subviewDesc, b.left, b.right, b.top, b.bottom, Int.toNat_natCast]
  exact {
    base := Nat.mod_eq_of_lt hbase
    stride := rfl
    width := Nat.mod_eq_of_lt hwidth
    height := Nat.mod_eq_of_lt hheight
    ptype := rfl
    endian := rfl
    bitoff := Nat.mod_mod _ _
    xmin := rfl
    xmax := Nat.mod_eq_of_lt (Nat.lt_of_succ_lt hwidth)
    ymin := rfl
    ymax := Nat.mod_eq_of_lt (Nat.lt_of_succ_lt hheight)
    axesSwap := rfl
    xSwap := rfl
    ySwap := rfl }

/-- The new slot passes the slot check with the kernel of its parent (R157). -/
theorem SubviewFields.checkSurface_ok (h : SubviewFields d k px0 px1 py0 py1 n) (hk : checkSurface d = .ok k)
    (b : SpansBox d p q px0 px1 py0 py1) : checkSurface n = .ok k := by
  obtain ⟨hdispatch, f⟩ := checkSurface_ok_iff.1 hk
  obtain ⟨-, hnarrow, hwide, hstride, hextent⟩ := f.rectangle b.columns b.right_lt b.rows b.bottom_lt
  have hrow : n.rowBytes k.bpp = ceil8 ((px0 * k.bpp + d.bitoff.toNat) % 8 + (px1 - px0 + 1) * k.bpp) := by
    rw [Desc.rowBytes, h.bitoff, h.width]
  refine checkSurface_ok_iff.2 ⟨h.endian ▸ hdispatch, ?_⟩
  exact {
    rom := h.ptype ▸ f.rom
    endian := h.endian ▸ f.endian
    width_pos := by rw [h.width]; omega
    height_pos := by rw [h.height]; omega
    wide_bitoff := by rwa [h.bitoff]
    narrow_bitoff := by rwa [h.bitoff]
    stride_ge := by rwa [hrow, h.stride]
    extent := by rwa [hrow, h.stride, h.base, h.height, Nat.add_sub_cancel]
    clip := by
      rw [Desc.clipOk_iff, h.xmin, h.xmax, h.ymin, h.ymax, h.width, h.height]
      omega }

/-! ### The rectangle in both coordinate systems (R157) -/

/-- The mirror of one axis of length `w` (R150). -/
def mirror (f : Bool) (w u : Int) : Int := if f then w - 1 - u else u

theorem xform_eq_mirror (d : Desc) (x y : Int) : xform d x y =
    (mirror d.xSwap d.width.toNat (if d.axesSwap then y else x),
      mirror d.ySwap d.height.toNat (if d.axesSwap then x else y)) := rfl

/-- An interval of length `r` of a mirrored axis, seen as an axis of its own with the same mirror flag: its point `i`
stands that far above the low end of the interval's image. -/
theorem mirror_interval (f : Bool) (w u : Int) {r len : Int} (hr : 0 < r)
    (hlen : len = max (mirror f w u) (mirror f w (u + r - 1)) - min (mirror f w u) (mirror f w (u + r - 1)) + 1) :
    len = r ∧ ∀ i, mirror f w (u + i) = min (mirror f w u) (mirror f w (u + r - 1)) + mirror f len i := by
  unfold mirror at hlen ⊢
  refine ⟨?_, fun i => ?_⟩
  all_goals cases f <;> simp only [Bool.false_eq_true, if_true, if_false] at hlen ⊢ <;> omega

/-- A rectangle of `rw` by `rh` logical pixels at (x, y) of `d`, seen as a surface `n` of its own with the flags of `d`:
its pixel (i, j) is the physical corner nearest 0 plus the turned (i, j). -/
theorem SubviewFields.xform_eq (h : SubviewFields d k px0 px1 py0 py1 n) {x y rw rh : Int} (hrw : 0 < rw) (hrh : 0 < rh)
    (b : SpansBox d (xform d x y) (xform d (x + rw - 1) (y + rh - 1)) px0 px1 py0 py1) :
    n.logicalWidth = rw ∧ n.logicalHeight = rh ∧ ∀ i j : Int,
      xform d (x + i) (y + j) = (px0 + (xform n i j).1, py0 + (xform n i j).2) := by
  obtain ⟨hx0, hx1, hy0, hy1, hcolumns, hrows, -, -⟩ := b
  have hw : (n.width.toNat : Int) = px1 - px0 + 1 := by rw [h.width]; omega
  have hh : (n.height.toNat : Int) = py1 - py0 + 1 := by rw [h.height]; omega
  rw [← hx0, ← hx1] at hw
  rw [← hy0, ← hy1] at hh
  rw [← hx0, ← hy0]
  simp only [xform_eq_mirror, Desc.logicalWidth, Desc.logicalHeight, h.axesSwap, h.xSwap, h.ySwap] at hw hh ⊢
  cases hswap : d.axesSwap <;> simp only [hswap, Bool.false_eq_true, if_true, if_false] at hw hh ⊢
  · obtain ⟨hwidth, hcol⟩ := mirror_interval _ _ _ hrw hw
    obtain ⟨hheight, hrow⟩ := mirror_interval _ _ _ hrh hh
    exact ⟨hwidth, hheight, fun i j => Prod.ext (hcol i) (hrow j)⟩
  · obtain ⟨hwidth, hcol⟩ := mirror_interval _ _ _ hrh hw
    obtain ⟨hheight, hrow⟩ := mirror_interval _ _ _ hrw hh
    exact ⟨hheight, hwidth, fun i j => Prod.ext (hcol j) (hrow i)⟩

/-- Each logical pixel of the new slot stands where the parent has its own. -/
theorem SubviewFields.placeOf_xform (h : SubviewFields d k px0 px1 py0 py1 n) {x y rw rh : Int} (hrw : 0 < rw)
    (hrh : 0 < rh) (b : SpansBox d (xform d x y) (xform d (x + rw - 1) (y + rh - 1)) px0 px1 py0 py1)
    {i j : Int} (hi0 : 0 ≤ i) (hi : i < rw) (hj0 : 0 ≤ j) (hj : j < rh) :
    placeOf n k (xform n i j).1.toNat (xform n i j).2.toNat =
      placeOf d k (xform d (x + i) (y + j)).1.toNat (xform d (x + i) (y + j)).2.toNat := by
  obtain ⟨hlw, hlh, hshift⟩ := h.xform_eq hrw hrh b
  obtain ⟨hcol, -, hrow, -⟩ := (xform_holds_iff n i j).2 ⟨hi0, by omega, hj0, by omega⟩
  rw [placeOf_shift k _ _ h.base h.bitoff h.stride, hshift, Int.toNat_add (Int.natCast_nonneg _) hcol,
    Int.toNat_add (Int.natCast_nonneg _) hrow, Int.toNat_natCast, Int.toNat_natCast]

end

/-- A command that raises raises a code other than 0 (R225). -/
theorem planOf_error_ne_ok {i : Instr} {r : Regs} {c : ErrCode} (h : planOf i r = .error c) : c ≠ .ok := by
  rcases planOf_error h with ⟨sl, -, hsl⟩ | ⟨rfl, -⟩ | ⟨rfl, -⟩
  · exact checkSurface_error_ne_ok hsl
  · decide
  · decide

/-! ### The statements -/

/-- Settles O19: outside the bounds the plan is the error, inside it is none. -/
theorem subviewRaisesOutsideItsParent : Obligations.SubviewRaisesOutsideItsParent := by
  intro s parent result k d x y rw rh outside hk
  refine ⟨fun h => exec_of_error (planSubview_outside hk result h) (by decide), fun t ht hcode => ?_⟩
  by_contra h
  have hplan : planOf (.subview parent result) s.operands = .ok _ := planSubview_inside hk result h
  rcases exec_next ht with ⟨c, hc, -⟩ | ⟨p, -, -, rfl⟩
  · cases hplan.symm.trans hc
  · cases hcode

/-- Settles O17: the plan writes the slot of the spanned rectangle, whose numbers fit their fields. -/
theorem subviewWritesTheResultSlot : Obligations.SubviewWritesTheResultSlot := by
  intro s parent result k d x y rw rh hk hserves hrw hrh hx hy hxw hyh
  have hinside : ¬ subviewOutside d s.operands := (not_subviewOutside_iff _ _).2 ⟨hrw, hrh, hx, hy, hxw, hyh⟩
  obtain ⟨px0, px1, py0, py1, b⟩ := corners_spansBox hinside
  have f : SubviewFields d k px0 px1 py0 py1 (subviewResult d k s.operands) := subviewDesc_fields hk b
  have hplan : planOf (.subview parent result) s.operands = .ok _ := planSubview_inside hk result hinside
  refine ⟨subviewResult d k s.operands, ?_, ?_⟩
  · rw [exec_of_plan hplan (by simpa [usedSlots] using hserves), complete_ok]
    rfl
  · dsimp only
    rw [b.left, b.right, b.top, b.bottom]
    refine ⟨?_, f.stride, ?_, ?_, f.ptype, f.endian, ?_, f.xmin, ?_, f.ymin, ?_, f.axesSwap, f.xSwap, f.ySwap⟩
    · rw [f.base]; push_cast; rfl
    · rw [f.width]; have := b.columns; omega
    · rw [f.height]; have := b.rows; omega
    · rw [f.bitoff]; push_cast; rfl
    · rw [f.xmax, f.width, Nat.add_sub_cancel]
    · rw [f.ymax, f.height, Nat.add_sub_cancel]

/-- Settles O18: the rectangle seen as a surface of its own has the parent's places. -/
theorem subviewIsLegalAndAliasesItsParent : Obligations.SubviewIsLegalAndAliasesItsParent := by
  intro s t parent result d ht hcode
  rcases exec_next ht with ⟨c, hc, rfl⟩ | ⟨p, hp, -, rfl⟩
  · exact absurd hcode (planOf_error_ne_ok hc)
  obtain ⟨k, hk, hinside, rfl⟩ := planSubview_ok hp
  have ⟨hrw, hrh, _⟩ := hinside
  obtain ⟨px0, px1, py0, py1, b⟩ := corners_spansBox ((not_subviewOutside_iff _ _).2 hinside)
  have f := subviewDesc_fields hk b
  simp only [State.complete_regs, State.commit_slot_regs, Regs.desc_setDesc_self]
  exact ⟨k, hk, f.checkSurface_ok hk b, fun i j hi0 hi hj0 hj => f.placeOf_xform hrw hrh b hi0 hi hj0 hj⟩

end Sys2Proof.Machine
end

section
/-! PROOF. The pixel, line and run commands (43_pixel_line_run.md): what each reads or paints, and the width forms as the
end-point forms with the end point computed. -/

namespace Sys2Proof.Machine

/-- On a legal slot a command on one slot plans its body (R140). -/
theorem oneSlotPlan_ok {d : Desc} {k : Kernel} (hk : checkSurface d = .ok k)
    (body : Kernel → List PixelWrite × RegWrite) : oneSlotPlan d body = .ok ⟨[d], (body k).1, (body k).2⟩ := by
  simp only [oneSlotPlan, hk]

/-! ### The points of a run (R177 to R180) -/

section
variable {d : Desc} {raw : Bool} {q : Int × Int}

theorem mem_map_horizontalRun {x0 x1 y : Int} : q ∈ (horizontalRun x0 x1 y).map (fun p => mapPoint d raw p.1 p.2) ↔
    ∃ x, x0 ≤ x ∧ x ≤ x1 ∧ q = mapPoint d raw x y := by
  simp [horizontalRun, mem_intRange, and_assoc, eq_comm]

theorem mem_map_verticalRun {x y0 y1 : Int} : q ∈ (verticalRun x y0 y1).map (fun p => mapPoint d raw p.1 p.2) ↔
    ∃ y, y0 ≤ y ∧ y ≤ y1 ∧ q = mapPoint d raw x y := by
  simp [verticalRun, mem_intRange, and_assoc, eq_comm]

end

/-! ### What the commands paint (R171) -/

section
variable {s : State} {i : Instr} {sl : Slot} {raw : Bool} {k : Kernel}
  (hm : s.mem.wf = true) (hk : checkSurface (s.operands.desc sl) = .ok k) (hs : s.serves (s.operands.desc sl))
include hm hk hs

/-- A run command paints the images of its points (R177). -/
theorem paints_of_planRun {points : List (Int × Int)} {pts : Int × Int → Prop}
    (hp : planOf i s.operands = planRun sl raw s.operands points) (hu : usedSlots i = [sl])
    (hpts : ∀ q, q ∈ points.map (fun p => mapPoint (s.operands.desc sl) raw p.1 p.2) ↔ pts q) : Paints s i sl k pts :=
  paints_of_plan hm hk hs (hp.trans ((planRun_eq ..).trans (oneSlotPlan_ok hk _))) hu hpts

end

/-! ### The statements -/

/-- Settles O20: the address of R103 is the pixel's place. -/
theorem getpixReadsThePixel : Obligations.GetpixReadsThePixel := by
  intro s sl raw k d p bitpos hk hs
  have hplan : planOf (.getpix sl raw) s.operands =
      .ok ⟨[d], [], .result (if clipped d p then none else some (placeOf d k p.1.toNat p.2.toNat))⟩ :=
    (planGetpix_eq ..).trans (oneSlotPlan_ok hk _)
  have hread : readRaw s.mem (d.base.toNat + p.2.toNat * d.stride.toNat + bitpos / 8) (bitpos % 8) k.bpp d.endian =
      readPlace s.mem (placeOf d k p.1.toNat p.2.toNat) := readRaw_eq_readPlace (checkSurface_ok hk).endian
  rw [exec_of_plan hplan (by simpa [usedSlots] using hs), complete_ok, hread]
  by_cases hc : clipped d p
  · simp only [if_pos hc]
    rfl
  · simp only [if_neg hc]
    rfl

/-- Settles O21: the plan fills the one mapped point. -/
theorem putpixPaintsOnePixel : Obligations.PutpixPaintsOnePixel :=
  fun _ _ _ _ hm hk hs =>
    paints_of_plan hm hk hs ((planPutpix_eq ..).trans (oneSlotPlan_ok hk _)) rfl fun _ => List.mem_singleton

/-- Settles O22: the plan fills the walk. -/
theorem linePaintsTheBresenhamPoints : Obligations.LinePaintsTheBresenhamPoints :=
  fun _ _ _ _ hm hk hs =>
    paints_of_plan hm hk hs ((planLine_eq ..).trans (oneSlotPlan_ok hk _)) rfl fun _ => Iff.rfl

/-- Settles O23: each plan is the run of its points. -/
theorem runCommandsPaintTheirRuns : Obligations.RunCommandsPaintTheirRuns := by
  intro s sl raw k d r hm hk hs
  refine ⟨?_, ?_, ?_, ?_⟩
  · exact paints_of_planRun hm hk hs rfl rfl fun q => mem_map_horizontalRun
  · refine paints_of_planRun hm hk hs rfl rfl fun q => ?_
    simp only [mem_map_horizontalRun, Int.le_sub_one_iff]
    rfl
  · exact paints_of_planRun hm hk hs rfl rfl fun q => mem_map_verticalRun
  · refine paints_of_planRun hm hk hs rfl rfl fun q => ?_
    simp only [mem_map_verticalRun, Int.le_sub_one_iff]
    rfl

/-! ### The width forms (R178, R180) -/

/-- A plan that writes pixels only ends alike over other operand registers, and leaves those as they are. -/
theorem finish_withRegs {s t : State} {r : Except ErrCode Plan} (hr : ∀ p, r = .ok p → p.regWrite = .none) (x : Regs)
    (h : s.finish r = .next t) : State.finish { s with regs := x } r = .next { t with regs := x } := by
  rcases finish_next h with ⟨c, rfl, rfl⟩ | ⟨p, rfl, hbytes, hserved, rfl⟩
  · rfl
  · rw [finish_ok (s := { s with regs := x }) hbytes hserved, hr p rfl]
    rfl

theorem planRun_regWrite {sl : Slot} {raw : Bool} {r : Regs} {points : List (Int × Int)} {p : Plan}
    (h : planRun sl raw r points = .ok p) : p.regWrite = .none := by
  obtain ⟨k, -, rfl⟩ := planRun_ok h
  rfl

/-- Two run commands with one plan, issued over operand registers of their own, end alike. -/
theorem exec_issue_of_planRun_eq {s t : State} {i j : Instr} {x : Regs} {sl : Slot} {raw : Bool}
    {points : List (Int × Int)} (hi : planOf i s.regs = planRun sl raw s.regs points)
    (hj : planOf j x = planRun sl raw s.regs points) (h : exec i (s.issue (encode i)) = .next t) :
    exec j (State.issue { s with regs := x } (encode j)) = .next { t with regs := x } := by
  rw [exec_issue, hi] at h
  rw [exec_issue, hj]
  exact finish_withRegs (fun _ => planRun_regWrite) x h

/-- Settles O25: the end point computed gives the same points. -/
theorem widthFormsEqualEndpointForms : Obligations.WidthFormsEqualEndpointForms := by
  intro s t sl raw b0 b1 b2 _ r
  refine ⟨fun h0 h1 h2 => exec_issue_of_planRun_eq rfl ?_, fun h0 h1 h2 => exec_issue_of_planRun_eq rfl ?_⟩
  · rw [← h1, ← h0, ← h2]
    rfl
  · rw [← h2, ← h0, ← h1]
    rfl

end Sys2Proof.Machine
end

section
/-! PROOF. The run form (R181): where the points of a run lie in one physical row, the pixel writes of the command leave
the memory of one `write_run` over the unclipped columns. -/

namespace Sys2Proof.Machine

/-! ### A row of pixels as one run (R108) -/

/-- The pixel `i` columns on stands where a run from the first pixel has its pixel `i` (R108). -/
theorem placeOf_add (d : Desc) (k : Kernel) (px py i : Nat) : placeOf d k (px + i) py =
    ⟨(placeOf d k px py).addr + ((placeOf d k px py).pos + i * k.bpp) / 8,
      ((placeOf d k px py).pos + i * k.bpp) % 8, k⟩ := by
  simp only [placeOf, addressOf, Nat.add_mul, Place.mk.injEq, and_true]
  omega

theorem mem_horizontalRun {x0 x1 y : Int} {p : Int × Int} :
    p ∈ horizontalRun x0 x1 y ↔ x0 ≤ p.1 ∧ p.1 ≤ x1 ∧ p.2 = y := by
  obtain ⟨u, v⟩ := p
  simp [horizontalRun, mem_intRange, and_assoc, eq_comm]

theorem putAll_of_unclipped {d : Desc} {ps : List (Int × Int)} (k : Kernel) (v : Word)
    (h : ∀ p ∈ ps, clipped d p = false) :
    putAll d k v ps = ps.map fun p => .put (placeOf d k p.1.toNat p.2.toNat) v.toNat := by
  rw [putAll, List.filter_eq_self.2 fun p hp => by simp [h p hp]]

section
variable {d : Desc} {k : Kernel} (f : LegalFacts d k)
include f

/-- Unclipped columns of one row, written one after another, are one run (R108). -/
theorem runWrites_horizontalRun (m : Memory) (v : Word) {lo hi row : Int} (hlo : 0 ≤ lo)
    (h : ∀ x, lo ≤ x → x ≤ hi → clipped d (x, row) = false) :
    runWrites m (putAll d k v (horizontalRun lo hi row)) =
      writeRun m (placeOf d k lo.toNat row.toNat).addr (placeOf d k lo.toNat row.toNat).pos (hi - lo + 1).toNat v.toNat
        k.bpp d.endian := by
  have hunclipped : ∀ p ∈ horizontalRun lo hi row, clipped d p = false := by
    rintro ⟨x, y⟩ hp
    obtain ⟨hx0, hx1, rfl⟩ := mem_horizontalRun.1 hp
    exact h x hx0 hx1
  have hcolumn : ∀ i : Nat, (lo + (i : Int)).toNat = lo.toNat + i := fun i => by omega
  rw [putAll_of_unclipped k v hunclipped]
  simp only [horizontalRun, intRange, runWrites, writeRun, List.foldl_map, PixelWrite.run, hcolumn, placeOf_add,
    writeRaw_eq_writePlace f.endian]

end

/-! ### A segment of a row -/

/-- `r` is in the row of `p`, in a column from that of `p` to that of `q`. -/
def inRow (p q r : Int × Int) : Prop := r.2 = p.2 ∧ min p.1 q.1 ≤ r.1 ∧ r.1 ≤ max p.1 q.1

/-- Memory after one `write_run` over the unclipped columns from `p` to `q` in the row of `p` (R181). -/
def rowFill (m : Memory) (d : Desc) (k : Kernel) (v : Word) (p q : Int × Int) : Memory :=
  let lo := max (min p.1 q.1) d.xmin.toNat
  let hi := min (max p.1 q.1) d.xmax.toNat
  let start := addressOf d.base.toNat d.stride.toNat d.bitoff.toNat lo.toNat p.2.toNat k.bpp
  if (d.ymin.toNat : Int) ≤ p.2 ∧ p.2 ≤ d.ymax.toNat ∧ lo ≤ hi then
    writeRun m start.1 start.2 (hi - lo + 1).toNat v.toNat k.bpp d.endian
  else m

/-- A fill whose points are a segment of a row is the run over the unclipped columns (R181). -/
theorem runWrites_inRow {d : Desc} {k : Kernel} (f : LegalFacts d k) {m : Memory} (hm : m.wf = true) (v : Word)
    {p q : Int × Int} {l : List (Int × Int)} (hl : ∀ r, r ∈ l ↔ inRow p q r) :
    runWrites m (putAll d k v l) = rowFill m d k v p q := by
  unfold inRow at hl
  by_cases hmeets : (d.ymin.toNat : Int) ≤ p.2 ∧ p.2 ≤ d.ymax.toNat ∧
      max (min p.1 q.1) (d.xmin.toNat : Int) ≤ min (max p.1 q.1) (d.xmax.toNat : Int)
  · obtain ⟨htop, hbottom, -⟩ := id hmeets
    have hsame : ∀ r, clipped d r = false →
        (r ∈ l ↔ r ∈ horizontalRun (max (min p.1 q.1) d.xmin.toNat) (min (max p.1 q.1) d.xmax.toNat) p.2) := by
      intro r hr
      rw [clipped_eq_false_iff] at hr
      rw [hl, mem_horizontalRun]
      omega
    rw [runWrites_putAll_congr f v hsame hm, runWrites_horizontalRun f m v (by omega) ?_]
    · exact (if_pos hmeets).symm
    · intro x hlo hhi
      rw [clipped_eq_false_iff]
      omega
  · have hclipped : ∀ r ∈ l, clipped d r = true := by
      intro r hr
      rw [hl] at hr
      by_contra hc
      have := (clipped_eq_false_iff d r).1 (by simpa using hc)
      omega
    rw [putAll_eq_nil hclipped]
    exact (if_neg hmeets).symm

/-- A mirrored axis takes an interval to the interval between the images of its ends (R150). -/
theorem exists_mirror_iff (f : Bool) (w : Int) {x0 x1 u : Int} (h : x0 ≤ x1) :
    (∃ x, x0 ≤ x ∧ x ≤ x1 ∧ u = mirror f w x) ↔
      min (mirror f w x0) (mirror f w x1) ≤ u ∧ u ≤ max (mirror f w x0) (mirror f w x1) := by
  cases f with
  | false =>
    simp only [mirror, Bool.false_eq_true, if_false]
    exact ⟨fun ⟨x, _, _, hu⟩ => by omega, fun hu => ⟨u, by omega, by omega, rfl⟩⟩
  | true =>
    simp only [mirror, if_true]
    exact ⟨fun ⟨x, _, _, hu⟩ => by omega, fun hu => ⟨w - 1 - u, by omega, by omega, by omega⟩⟩

/-- A map of one coordinate into one row, mirrored or not. -/
def MirrorsIntoRow (g : Int → Int × Int) : Prop := ∃ f w row, ∀ x, g x = (mirror f w x, row)

theorem MirrorsIntoRow.exists_iff_inRow {g : Int → Int × Int} (hg : MirrorsIntoRow g) {x0 x1 : Int} (h : x0 ≤ x1)
    (r : Int × Int) : (∃ x, x0 ≤ x ∧ x ≤ x1 ∧ r = g x) ↔ inRow (g x0) (g x1) r := by
  obtain ⟨f, w, row, hg⟩ := hg
  simp only [hg, inRow, ← exists_mirror_iff f w h, Prod.ext_iff]
  exact ⟨fun ⟨x, h0, h1, hu, hrow⟩ => ⟨hrow, x, h0, h1, hu⟩, fun ⟨hrow, x, h0, h1, hu⟩ => ⟨x, h0, h1, hu, hrow⟩⟩

/-- A logical row is a physical row on an upright slot, and a physical one always is (R150). -/
theorem mirrorsIntoRow_row {d : Desc} {raw : Bool} (h : raw = true ∨ d.axesSwap = false) (y : Int) :
    MirrorsIntoRow fun x => mapPoint d raw x y := by
  cases raw with
  | true => exact ⟨false, 0, y, fun _ => rfl⟩
  | false =>
    have hswap : d.axesSwap = false := by simpa using h
    exact ⟨d.xSwap, d.width.toNat, mirror d.ySwap d.height.toNat y, fun x => by
      simp [mapPoint_logical, xform_eq_mirror, hswap]⟩

/-- A logical column is a physical row on a turned slot (R150). -/
theorem mirrorsIntoRow_column {d : Desc} (h : d.axesSwap = true) (x : Int) :
    MirrorsIntoRow fun y => mapPoint d false x y :=
  ⟨d.xSwap, d.width.toNat, mirror d.ySwap d.height.toNat x, fun y => by simp [mapPoint_logical, xform_eq_mirror, h]⟩

/-! ### The run form of a run command (R181) -/

section
variable {s : State} {i : Instr} {sl : Slot} {raw : Bool} {k : Kernel}
  (hm : s.mem.wf = true) (hk : checkSurface (s.operands.desc sl) = .ok k) (hs : s.serves (s.operands.desc sl))
include hm hk hs

/-- A run command whose points are mapped onto a segment of a row leaves the memory of one run (R181). -/
theorem exec_planRun_inRow {points : List (Int × Int)} {p q : Int × Int}
    (hp : planOf i s.operands = planRun sl raw s.operands points) (hu : usedSlots i = [sl])
    (hrow : ∀ r, r ∈ points.map (fun p => mapPoint (s.operands.desc sl) raw p.1 p.2) ↔ inRow p q r) :
    exec i s = .next (s.succeededWith (rowFill s.mem (s.operands.desc sl) k s.operands.color p q)) := by
  have hplan := hp.trans ((planRun_eq ..).trans (oneSlotPlan_ok hk _))
  rw [exec_of_plan hplan (by simpa [hu] using hs), runWrites_inRow (checkSurface_ok hk) hm _ hrow, complete_ok]
  rfl

theorem exec_horizontalRun_inRow {x0 x1 y : Int} (hx : x0 ≤ x1)
    (hp : planOf i s.operands = planRun sl raw s.operands (horizontalRun x0 x1 y)) (hu : usedSlots i = [sl])
    (h : raw = true ∨ (s.operands.desc sl).axesSwap = false) :
    exec i s = .next (s.succeededWith (rowFill s.mem (s.operands.desc sl) k s.operands.color
      (mapPoint (s.operands.desc sl) raw x0 y) (mapPoint (s.operands.desc sl) raw x1 y))) :=
  exec_planRun_inRow hm hk hs hp hu fun r =>
    mem_map_horizontalRun.trans ((mirrorsIntoRow_row h y).exists_iff_inRow hx r)

theorem exec_verticalRun_inRow {x y0 y1 : Int} (hy : y0 ≤ y1)
    (hp : planOf i s.operands = planRun sl false s.operands (verticalRun x y0 y1)) (hu : usedSlots i = [sl])
    (h : (s.operands.desc sl).axesSwap = true) :
    exec i s = .next (s.succeededWith (rowFill s.mem (s.operands.desc sl) k s.operands.color
      (mapPoint (s.operands.desc sl) false x y0) (mapPoint (s.operands.desc sl) false x y1))) :=
  exec_planRun_inRow hm hk hs hp hu fun r =>
    mem_map_verticalRun.trans ((mirrorsIntoRow_column h x).exists_iff_inRow hy r)

end

/-! ### The statements -/

/-- Settles O24: the columns of the run are a segment of one physical row. -/
theorem hlineEqualsItsRunForm : Obligations.HlineEqualsItsRunForm :=
  fun _ _ _ _ hm hk hs hrow hx => exec_horizontalRun_inRow hm hk hs hx rfl rfl hrow

/-- Settles O59: so are those of HLINEW, and the rows of a run down a turned slot. -/
theorem otherRunsEqualTheirRunForm : Obligations.OtherRunsEqualTheirRunForm := by
  intro s sl raw k d r runForm hm hk hs
  refine ⟨fun hrow hw => ?_, fun hraw hswap hy => ?_, fun hraw hswap hh => ?_⟩
  · exact exec_horizontalRun_inRow hm hk hs (by omega) rfl rfl hrow
  · subst hraw
    exact exec_verticalRun_inRow hm hk hs hy rfl rfl hswap
  · subst hraw
    exact exec_verticalRun_inRow hm hk hs (by omega) rfl rfl hswap

end Sys2Proof.Machine
end

section
/-! PROOF. Bresenham's walk (R175, R176): the walk upward along x in closed form and its properties, and every other walk
as that one with its end points exchanged or its axes transposed. -/

namespace Sys2Proof.Machine

/-! ### Every walk as an upward one along x -/

section
variable {xa ya xb yb : Int}

/-- A walk no steeper than 45 degrees, from its left end, is the upward walk along x. -/
theorem bresenham_eq_upward (hx : xa ≤ xb) (hs : (yb - ya).natAbs ≤ (xb - xa).natAbs) :
    bresenham xa ya xb yb = bresenhamUpward false xa ya xb yb := by
  simp [bresenham, not_lt.2 hs, not_lt.2 hx]

/-- A walk no steeper than 45 degrees is the same from either end, in the same order. -/
theorem bresenham_comm_of_shallow (hs : (yb - ya).natAbs ≤ (xb - xa).natAbs) :
    bresenham xb yb xa ya = bresenham xa ya xb yb := by
  wlog hx : xa ≤ xb generalizing xa ya xb yb
  · exact (this (by omega) (by omega)).symm
  rcases hx.eq_or_lt with rfl | hlt
  · obtain rfl : ya = yb := by omega
    rfl
  · have hs' : (ya - yb).natAbs ≤ (xa - xb).natAbs := by omega
    rw [bresenham_eq_upward hx hs]
    simp [bresenham, not_lt.2 hs', hlt]

/-- A transposed walk has the entries of the walk along x, transposed. -/
theorem bresenhamWalk_true (da db bstep : Int) : ∀ (n : Nat) (a b err : Int),
    bresenhamWalk true da db bstep n a b err = (bresenhamWalk false da db bstep n a b err).map Prod.swap
  | 0, _, _, _ => rfl
  | n + 1, a, b, err => by
    simp only [bresenhamWalk, List.map_cons, if_true, Bool.false_eq_true, if_false, Prod.swap_prod_mk]
    split <;> rw [bresenhamWalk_true]

/-- A steep walk is the walk with x and y exchanged, transposed (R175). -/
theorem bresenham_transpose (h : (xb - xa).natAbs < (yb - ya).natAbs) :
    bresenham xa ya xb yb = (bresenham ya xa yb xb).map Prod.swap := by
  simp only [bresenham, decide_eq_true h, decide_eq_false (not_lt.2 h.le), if_true, Bool.false_eq_true, if_false]
  split <;> exact bresenhamWalk_true ..

/-- The walk is the same from either end, in the same order (R176). -/
theorem bresenham_comm (xa ya xb yb : Int) : bresenham xb yb xa ya = bresenham xa ya xb yb := by
  rcases le_or_gt (yb - ya).natAbs (xb - xa).natAbs with hs | hs
  · exact bresenham_comm_of_shallow hs
  · rw [bresenham_transpose hs, bresenham_transpose (xa := xb) (by omega), bresenham_comm_of_shallow (by omega)]

end

/-! ### The upward walk in closed form (R175) -/

/-- Entry `n` of the walk upward from (a0, b0) to (a1, b1): with an error term that starts at half the major length,
this is how often it has passed below 0. -/
def walkPoint (a0 b0 a1 b1 : Int) (n : Nat) : Int × Int :=
  (a0 + n, b0 + (if b0 < b1 then 1 else -1) *
    ((n * ((b1 - b0).natAbs : Int) + (a1 - a0) - 1 - (a1 - a0) / 2) / (a1 - a0)))

section
variable {a0 b0 a1 b1 : Int} (ha : a0 ≤ a1)
include ha

/-- What is left of the error term makes no minor step of its own. -/
theorem slack_ediv : (a1 - a0 - 1 - (a1 - a0) / 2) / (a1 - a0) = 0 := by
  rcases ha.eq_or_lt with rfl | hlt
  · rw [Int.sub_self, Int.ediv_zero]
  · exact Int.ediv_eq_zero_of_lt (by omega) (by omega)

theorem walkPoint_zero : walkPoint a0 b0 a1 b1 0 = (a0, b0) := by simp [walkPoint, slack_ediv ha]

theorem walkPoint_level (n : Nat) : walkPoint a0 b0 a1 b0 n = (a0 + n, b0) := by simp [walkPoint, slack_ediv ha]

variable (hs : (b1 - b0).natAbs ≤ (a1 - a0).natAbs)
include hs

theorem walkPoint_last : walkPoint a0 b0 a1 b1 (a1 - a0).toNat = (a1, b1) := by
  rcases ha.eq_or_lt with rfl | hlt
  · obtain rfl : b0 = b1 := by omega
    rw [Int.sub_self]
    exact walkPoint_zero le_rfl
  · have hsteps : ((a1 - a0) * ((b1 - b0).natAbs : Int) + (a1 - a0) - 1 - (a1 - a0) / 2) / (a1 - a0) =
        (b1 - b0).natAbs := by
      rw [show (a1 - a0) * ((b1 - b0).natAbs : Int) + (a1 - a0) - 1 - (a1 - a0) / 2 =
        a1 - a0 - 1 - (a1 - a0) / 2 + (b1 - b0).natAbs * (a1 - a0) by ring, Int.add_mul_ediv_right _ _ (by omega),
        slack_ediv ha, Int.zero_add]
    rw [walkPoint, Int.toNat_of_nonneg (by omega), hsteps]
    refine Prod.ext (by simp) ?_
    split <;> dsimp only <;> omega

theorem bresenhamUpward_getElem? {n : Nat} (hn : (n : Int) ≤ a1 - a0) :
    (bresenhamUpward false a0 b0 a1 b1)[n]? = some (walkPoint a0 b0 a1 b1 n) := by
  rcases ha.eq_or_lt with rfl | hlt
  · obtain rfl : n = 0 := by omega
    rw [walkPoint_zero le_rfl]
    simp [bresenhamUpward, bresenhamWalk]
  · rw [bresenhamUpward, bresenhamWalk_getElem false _ (by omega) (by omega) _ _ (by omega) (by omega) (by omega)]
    rfl

theorem mem_bresenhamUpward {p : Int × Int} : p ∈ bresenhamUpward false a0 b0 a1 b1 ↔
    ∃ n : Nat, (n : Int) ≤ a1 - a0 ∧ walkPoint a0 b0 a1 b1 n = p := by
  rw [List.mem_iff_getElem?]
  constructor
  · rintro ⟨n, hn⟩
    obtain ⟨hlt, -⟩ := List.getElem?_eq_some_iff.1 hn
    rw [bresenhamUpward, bresenhamWalk_length] at hlt
    have hle : (n : Int) ≤ a1 - a0 := by omega
    exact ⟨n, hle, Option.some.inj ((bresenhamUpward_getElem? ha hs hle).symm.trans hn)⟩
  · rintro ⟨n, hle, rfl⟩
    exact ⟨n, bresenhamUpward_getElem? ha hs hle⟩

end

/-! ### The properties of a walk along x (R176) -/

/-- One column on, and at most one row up or down. -/
def unitStep (p q : Int × Int) : Prop := q.1 = p.1 + 1 ∧ (q.2 - p.2).natAbs ≤ 1

/-- The list has the properties of R176 for a walk along x between (xa, ya) and (xb, yb). -/
structure WalksAlongX (l : List (Int × Int)) (xa ya xb yb : Int) : Prop where
  length : l.length = (xb - xa).natAbs + 1
  first : (xa, ya) ∈ l
  last : (xb, yb) ∈ l
  level : ya = yb → ∀ p, p ∈ l ↔ p.2 = ya ∧ min xa xb ≤ p.1 ∧ p.1 ≤ max xa xb
  steps : l.IsChain unitStep

/-- A list whose entries each stand one column on repeats none. -/
theorem WalksAlongX.nodup {l : List (Int × Int)} {xa ya xb yb : Int} (h : WalksAlongX l xa ya xb yb) : l.Nodup := by
  have hcolumns : (l.map Prod.fst).IsChain (· < ·) :=
    List.isChain_map_of_isChain Prod.fst (fun p q hpq => hpq.1 ▸ Int.lt_succ p.1) h.steps
  exact List.Nodup.of_map Prod.fst (hcolumns.pairwise.imp ne_of_lt)

theorem WalksAlongX.symm {l : List (Int × Int)} {xa ya xb yb : Int} (h : WalksAlongX l xa ya xb yb) :
    WalksAlongX l xb yb xa ya where
  length := by rw [h.length]; omega
  first := h.last
  last := h.first
  level hy p := by rw [h.level hy.symm, hy, min_comm, max_comm]
  steps := h.steps

/-- Each entry of a walk is one unit step on from the one before, whatever the error term. -/
theorem bresenhamWalk_steps {da db bstep : Int} (hb : bstep.natAbs ≤ 1) : ∀ (n : Nat) (a b err : Int),
    (bresenhamWalk false da db bstep n a b err).IsChain unitStep ∧
      ∀ p ∈ (bresenhamWalk false da db bstep n a b err).head?, p = (a, b)
  | 0, _, _, _ => ⟨.nil, by simp [bresenhamWalk]⟩
  | n + 1, a, b, err => by
    have hnext : ∀ b' err', (b' - b).natAbs ≤ 1 →
        ((a, b) :: bresenhamWalk false da db bstep n (a + 1) b' err').IsChain unitStep := by
      intro b' err' hb'
      obtain ⟨hchain, hhead⟩ := bresenhamWalk_steps (da := da) (db := db) hb n (a + 1) b' err'
      exact List.isChain_cons.2 ⟨fun p hp => hhead p hp ▸ ⟨rfl, hb'⟩, hchain⟩
    refine ⟨?_, by simp [bresenhamWalk]⟩
    rw [bresenhamWalk, if_neg Bool.false_ne_true]
    split
    · exact hnext (b + bstep) _ (by omega)
    · exact hnext b _ (by omega)

theorem bresenhamUpward_walksAlongX {a0 b0 a1 b1 : Int} (ha : a0 ≤ a1) (hs : (b1 - b0).natAbs ≤ (a1 - a0).natAbs) :
    WalksAlongX (bresenhamUpward false a0 b0 a1 b1) a0 b0 a1 b1 where
  length := by rw [bresenhamUpward, bresenhamWalk_length]; omega
  first := (mem_bresenhamUpward ha hs).2 ⟨0, by omega, walkPoint_zero ha⟩
  last := (mem_bresenhamUpward ha hs).2 ⟨(a1 - a0).toNat, by omega, walkPoint_last ha hs⟩
  level := by
    rintro rfl ⟨x, y⟩
    simp only [mem_bresenhamUpward ha hs, walkPoint_level ha, Prod.mk.injEq]
    exact ⟨fun ⟨n, _, _, _⟩ => by omega, fun _ => ⟨(x - a0).toNat, by omega, by omega, by omega⟩⟩
  steps := (bresenhamWalk_steps (by split <;> decide) ..).1

theorem bresenham_walksAlongX {xa ya xb yb : Int} (hs : (yb - ya).natAbs ≤ (xb - xa).natAbs) :
    WalksAlongX (bresenham xa ya xb yb) xa ya xb yb := by
  wlog hx : xa ≤ xb generalizing xa ya xb yb
  · rw [← bresenham_comm]
    exact (this (by omega) (by omega)).symm
  rw [bresenham_eq_upward hx hs]
  exact bresenhamUpward_walksAlongX hx hs

/-! ### The statement -/

/-- Settles O26: a steep walk is a walk along x transposed, and either is the same from both ends. -/
theorem bresenhamWalksTheSegment : Obligations.BresenhamWalksTheSegment := by
  refine ⟨fun xa ya xb yb => ?_, fun a0 b0 a1 b1 n ha hn => ⟨fun hs => ?_, fun hs => ?_⟩⟩
  · rcases le_or_gt (yb - ya).natAbs (xb - xa).natAbs with hs | hs
    · have h := bresenham_walksAlongX hs
      refine ⟨by rw [h.length, max_eq_left hs], h.nodup, h.first, h.last, fun p => by rw [bresenham_comm], h.level,
        fun hx p => ?_, fun _ => h.steps, fun hsteep => by omega⟩
      rw [h.level (by omega)]
      omega
    · have h := bresenham_walksAlongX hs.le
      simp only [bresenham_comm xa ya xb yb, bresenham_transpose hs, List.length_map]
      refine ⟨by rw [h.length, max_eq_right hs.le], h.nodup.map Prod.swap_injective, List.mem_map_of_mem h.first,
        List.mem_map_of_mem h.last, fun _ => trivial, fun hy => by omega, fun hx p => ?_, fun hle => by omega,
        fun _ => (List.isChain_map Prod.swap).2 h.steps⟩
      exact (List.mem_map_of_involutive Prod.swap_swap ..).trans (h.level hx p.swap)
  · have hshallow := bresenhamUpward_getElem? ha.le hs hn
    rw [bresenham_comm a0 b0 a1 b1, bresenham_eq_upward ha.le hs]
    exact ⟨hshallow, hshallow⟩
  · have hsteep := bresenhamUpward_getElem? ha.le hs.le hn
    rw [bresenham_comm b0 a0 b1 a1, bresenham_transpose hs, List.getElem?_map, bresenham_eq_upward ha.le hs.le, hsteep]
    exact ⟨rfl, rfl⟩

end Sys2Proof.Machine
end

section
/-! PROOF. BLIT (44_blit.md): its plan when its rectangles fit and when one does not, the copies as a walk by rows, and
what they leave where source and destination share no byte (R107, R200, R201, R203, R204). -/

namespace Sys2Proof.Machine

/-! ### The rectangles of a BLIT (R200) -/

/-- The two rectangles of a BLIT, of one size, by their least corners. -/
structure BlitRect where
  srcX : Int
  srcY : Int
  dstX : Int
  dstY : Int
  width : Int
  height : Int

/-- The rectangles the operands give, the source corners normalized. -/
def blitRect (r : Regs) : BlitRect where
  srcX := min (coord r.arg0) (coord r.arg2)
  srcY := min (coord r.arg1) (coord r.arg3)
  dstX := coord r.arg4
  dstY := coord r.arg5
  width := max (coord r.arg0) (coord r.arg2) - min (coord r.arg0) (coord r.arg2) + 1
  height := max (coord r.arg1) (coord r.arg3) - min (coord r.arg1) (coord r.arg3) + 1

/-- A rectangle lies inside the bounds BLIT checks a slot against. -/
def Desc.boundsRect (d : Desc) (raw : Bool) (x y w h : Int) : Prop :=
  0 ≤ x ∧ 0 ≤ y ∧ x + w ≤ d.boundWidth raw ∧ y + h ≤ d.boundHeight raw

/-- Both rectangles fit their surfaces. -/
def BlitRect.fits (b : BlitRect) (ds dt : Desc) (raw : Bool) : Prop :=
  ds.boundsRect raw b.srcX b.srcY b.width b.height ∧ dt.boundsRect raw b.dstX b.dstY b.width b.height

/-- The physical source pixel at an offset. -/
def BlitRect.srcPixel (b : BlitRect) (ds : Desc) (raw : Bool) (o : Int × Int) : Int × Int :=
  mapPoint ds raw (b.srcX + o.1) (b.srcY + o.2)

/-- The physical destination pixel at an offset. -/
def BlitRect.dstPixel (b : BlitRect) (dt : Desc) (raw : Bool) (o : Int × Int) : Int × Int :=
  mapPoint dt raw (b.dstX + o.1) (b.dstY + o.2)

/-- The pixel copies of a BLIT, in order. -/
def blitCopies (ds dt : Desc) (ks kt : Kernel) (raw : Bool) (b : BlitRect) : List PixelWrite :=
  (rectOffsets b.width b.height).map fun o =>
    copyPixel ds dt ks kt (b.srcPixel ds raw o) (b.dstPixel dt raw o)

theorem blitRect_fits_iff (r : Regs) (ds dt : Desc) (raw : Bool) : (blitRect r).fits ds dt raw ↔
    0 ≤ min (coord r.arg0) (coord r.arg2) ∧ 0 ≤ min (coord r.arg1) (coord r.arg3) ∧
    max (coord r.arg0) (coord r.arg2) < ds.boundWidth raw ∧ max (coord r.arg1) (coord r.arg3) < ds.boundHeight raw ∧
    0 ≤ coord r.arg4 ∧ 0 ≤ coord r.arg5 ∧
    coord r.arg4 + (max (coord r.arg0) (coord r.arg2) - min (coord r.arg0) (coord r.arg2) + 1) ≤ dt.boundWidth raw ∧
    coord r.arg5 + (max (coord r.arg1) (coord r.arg3) - min (coord r.arg1) (coord r.arg3) + 1)
      ≤ dt.boundHeight raw := by
  simp only [BlitRect.fits, Desc.boundsRect, blitRect]
  omega

section
variable {r : Regs} {src dst : Slot} {raw : Bool} {ks kt : Kernel}
  (hks : checkSurface (r.desc src) = .ok ks) (hkt : checkSurface (r.desc dst) = .ok kt)
include hks hkt

theorem planBlit_of_fits (h : (blitRect r).fits (r.desc src) (r.desc dst) raw) :
    planBlit src dst raw r =
      .ok ⟨[r.desc src, r.desc dst], blitCopies (r.desc src) (r.desc dst) ks kt raw (blitRect r), .none⟩ := by
  rw [blitRect_fits_iff] at h
  simp only [planBlit, hks, hkt]
  rw [if_neg (by omega), if_neg (by omega)]
  rfl

theorem planBlit_of_not_fits (h : ¬ (blitRect r).fits (r.desc src) (r.desc dst) raw) :
    planBlit src dst raw r = .error .blitBounds := by
  rw [blitRect_fits_iff] at h
  simp only [planBlit, hks, hkt]
  split_ifs with hsrc hdst
  · rfl
  · rfl
  · omega

end

/-- A BLIT whose rectangles fit completes with its copies made (R200, R222). -/
theorem exec_blit_of_fits {s : State} {src dst : Slot} {raw : Bool} {ks kt : Kernel}
    (hks : checkSurface (s.operands.desc src) = .ok ks) (hkt : checkSurface (s.operands.desc dst) = .ok kt)
    (hss : s.serves (s.operands.desc src)) (hst : s.serves (s.operands.desc dst))
    (h : (blitRect s.operands).fits (s.operands.desc src) (s.operands.desc dst) raw) :
    exec (.blit src dst raw) s = .next (s.succeededWith (runWrites s.mem
      (blitCopies (s.operands.desc src) (s.operands.desc dst) ks kt raw (blitRect s.operands)))) := by
  have hplan : planOf (.blit src dst raw) s.operands = _ := planBlit_of_fits hks hkt h
  rw [exec_of_plan hplan (by simp [usedSlots, hss, hst]), complete_ok]
  rfl

/-! ### The copies as a walk by rows (R200, R203) -/

theorem runWrites_map_rectOffsets (m : Memory) (w h : Int) (f : Int × Int → PixelWrite) :
    runWrites m ((rectOffsets w h).map f) =
      (List.range h.toNat).foldl (fun (m : Memory) (j : Nat) =>
        (List.range w.toNat).foldl (fun (m : Memory) (i : Nat) => (f (i, j)).run m) m) m := by
  simp [runWrites, rectOffsets, intRange, List.foldl_map, List.foldl_flatMap]

theorem rectOffsets_nodup (w h : Int) : (rectOffsets w h).Nodup := by
  refine List.nodup_flatMap.2 ⟨fun j _ => ?_, (intRange_nodup 0 (h - 1)).imp fun {j j'} hne => ?_⟩
  · exact (intRange_nodup 0 (w - 1)).map fun i i' e => congrArg Prod.fst e
  · simp only [Function.onFun, List.disjoint_left, List.mem_map]
    rintro _ ⟨i, -, rfl⟩ ⟨i', -, e⟩
    exact hne (congrArg Prod.snd e).symm

/-! ### Copies that leave their sources alone -/

/-- Two places share no bit. -/
def Place.bitDisjoint (p q : Place) : Prop := ∀ a j, p.hasBit a j → ¬ q.hasBit a j

theorem Place.bitDisjoint.symm {p q : Place} (h : p.bitDisjoint q) : q.bitDisjoint p := fun a j hq hp => h a j hp hq

/-- Among writes to places apart from one another, a copy whose source none of them touches stores the value its source
held before them all. -/
theorem readPlace_runWrites_copy {ws : List PixelWrite} {m : Memory} {p q : Place} {ts td : BitVec 5} (hm : m.wf = true)
    (hw : .copy p q ts td ∈ ws) (hq : q.aligned) (hsrc : ∀ w ∈ ws, w.target.bitDisjoint p)
    (hapart : ws.Pairwise fun w w' => w.target.bitDisjoint w'.target) :
    readPlace (runWrites m ws) q = blitValue (readPlace m p) ts td % 2 ^ q.kernel.bpp := by
  obtain ⟨before, after, rfl⟩ := List.append_of_mem hw
  obtain ⟨hafter, -⟩ := List.pairwise_cons.1 (List.pairwise_append.1 hapart).2.1
  have hmid := runWrites_wf (ws := before) hm
  have hread : readPlace (runWrites m before) p = readPlace m p :=
    readPlace_runWrites_of_disjoint hm fun w h => hsrc w (List.mem_append_left _ h)
  calc readPlace (runWrites m (before ++ .copy p q ts td :: after)) q
      = readPlace (runWrites (PixelWrite.run (runWrites m before) (.copy p q ts td)) after) q := by
        rw [runWrites_append, runWrites_cons]
    _ = readPlace (PixelWrite.run (runWrites m before) (.copy p q ts td)) q :=
        readPlace_runWrites_of_disjoint (PixelWrite.run_wf hmid _) fun w h => (hafter w h).symm
    _ = blitValue (readPlace m p) ts td % 2 ^ q.kernel.bpp := by
        rw [PixelWrite.run, readPlace_writePlace hmid hq, hread]

/-! ### The pixels of a BLIT on legal surfaces -/

theorem Desc.boundsRect.holds {d : Desc} {raw : Bool} {x y w h : Int} (hb : d.boundsRect raw x y w h) {o : Int × Int}
    (ho : o ∈ rectOffsets w h) : d.holds (mapPoint d raw (x + o.1) (y + o.2)) := by
  obtain ⟨hx, hy, hw, hh⟩ := hb
  rw [mem_rectOffsets] at ho
  exact mapPoint_holds_of_bound (by omega) (by omega) (by omega) (by omega)

theorem BlitRect.dstPixel_injective (b : BlitRect) (dt : Desc) (raw : Bool) {o o' : Int × Int}
    (h : b.dstPixel dt raw o = b.dstPixel dt raw o') : o = o' := by
  obtain ⟨hx, hy⟩ := mapPoint_injective dt raw h
  exact Prod.ext (by omega) (by omega)

/-- Distinct pixels of a legal surface, by their coordinates as integers, share no bit (R141). -/
theorem LegalFacts.placeOf_bitDisjoint {d : Desc} {k : Kernel} (f : LegalFacts d k) {p q : Int × Int} (hp : d.holds p)
    (hq : d.holds q) (hne : p ≠ q) :
    (placeOf d k p.1.toNat p.2.toNat).bitDisjoint (placeOf d k q.1.toNat q.2.toNat) := by
  obtain ⟨hp1, hpw, hp2, -⟩ := hp
  obtain ⟨hq1, hqw, hq2, -⟩ := hq
  refine f.bits_disjoint (by omega) (by omega) fun e => hne ?_
  simp only [Prod.mk.injEq] at e
  exact Prod.ext (by omega) (by omega)

/-- Pixels of two legal surfaces whose footprints share no byte share no bit (R65). -/
theorem LegalFacts.bitDisjoint_of_covers {ds dt : Desc} {ks kt : Kernel} (fs : LegalFacts ds ks) (ft : LegalFacts dt kt)
    (hd : ∀ a, ds.covers a = true → dt.covers a = false) {p q : Int × Int} (hp : ds.holds p) (hq : dt.holds q) :
    (placeOf dt kt q.1.toNat q.2.toNat).bitDisjoint (placeOf ds ks p.1.toNat p.2.toNat) := by
  intro a j hbq hbp
  obtain ⟨hp1, hpw, hp2, hph⟩ := hp
  obtain ⟨hq1, hqw, hq2, hqh⟩ := hq
  have hsrc := fs.bytes_covered (by omega) (by omega) a (mem_bytes_of_hasBit hbp)
  have hdst := ft.bytes_covered (by omega) (by omega) a (mem_bytes_of_hasBit hbq)
  simp [hd a hsrc] at hdst

/-! ### What the copies leave -/

theorem forall_mem_blitCopies {ds dt : Desc} {ks kt : Kernel} {raw : Bool} {b : BlitRect} {P : PixelWrite → Prop} :
    (∀ w ∈ blitCopies ds dt ks kt raw b, P w) ↔ ∀ o ∈ rectOffsets b.width b.height,
      P (copyPixel ds dt ks kt (b.srcPixel ds raw o) (b.dstPixel dt raw o)) := List.forall_mem_map

section
variable {ds dt : Desc} {ks kt : Kernel} {raw : Bool} {b : BlitRect} {m : Memory}
  (ft : LegalFacts dt kt) (hb : b.fits ds dt raw) (hm : m.wf = true)
include ft hb

theorem blitCopies_pairwise : (blitCopies ds dt ks kt raw b).Pairwise fun w w' => w.target.bitDisjoint w'.target := by
  refine List.pairwise_map.2 ((rectOffsets_nodup b.width b.height).imp_of_mem fun ho ho' hne => ?_)
  exact ft.placeOf_bitDisjoint (hb.2.holds ho) (hb.2.holds ho') fun e => hne (b.dstPixel_injective dt raw e)

include hm

/-- Between surfaces that share no byte, each destination pixel takes the value of its source pixel (R200, R201). -/
theorem readPlace_blitCopies (fs : LegalFacts ds ks) (hd : ∀ a, ds.covers a = true → dt.covers a = false)
    {o : Int × Int} (ho : o ∈ rectOffsets b.width b.height) :
    readPlace (runWrites m (blitCopies ds dt ks kt raw b))
        (placeOf dt kt (b.dstPixel dt raw o).1.toNat (b.dstPixel dt raw o).2.toNat) =
      blitValue (readPlace m (placeOf ds ks (b.srcPixel ds raw o).1.toNat (b.srcPixel ds raw o).2.toNat))
        ds.ptype dt.ptype % 2 ^ kt.bpp :=
  readPlace_runWrites_copy hm (List.mem_map_of_mem ho) (ft.aligned _ _)
    (forall_mem_blitCopies.2 fun _ ho' => fs.bitDisjoint_of_covers ft hd (hb.1.holds ho) (hb.2.holds ho'))
    (blitCopies_pairwise ft hb)

/-- A pixel of the destination surface outside the rectangle reads as before (R107). -/
theorem readPlace_blitCopies_outside {q : Int × Int} (hq : dt.holds q)
    (hne : ∀ o ∈ rectOffsets b.width b.height, b.dstPixel dt raw o ≠ q) :
    readPlace (runWrites m (blitCopies ds dt ks kt raw b)) (placeOf dt kt q.1.toNat q.2.toNat) =
      readPlace m (placeOf dt kt q.1.toNat q.2.toNat) :=
  readPlace_runWrites_of_disjoint hm
    (forall_mem_blitCopies.2 fun o ho => ft.placeOf_bitDisjoint (hb.2.holds ho) hq (hne o ho))

end

/-! ### The statements -/

/-- Settles O27: the plan's copies are the walk by rows. -/
theorem blitCopiesInRowMajorOrder : Obligations.BlitCopiesInRowMajorOrder := by
  intro s src dst raw ks kt r ds dt x0 x1 y0 y1 x2 y2 hks hkt hss hst hx0 hy0 hx1 hy1 hx2 hy2 hw hh
  have hfits : (blitRect r).fits ds dt raw :=
    (blitRect_fits_iff ..).2 ⟨hx0, hy0, hx1, hy1, hx2, hy2, hw, hh⟩
  rw [exec_blit_of_fits hks hkt hss hst hfits, blitCopies, runWrites_map_rectOffsets]
  rfl

/-- Settles O28: no copy touches a source or another destination pixel, and none a bit outside the rectangle. -/
theorem blitBetweenDisjointSurfaces : Obligations.BlitBetweenDisjointSurfaces := by
  intro s src dst raw ks kt r ds dt x0 x1 y0 y1 x2 y2 place inRect hm hks hkt hss hst hd hx0 hy0 hx1 hy1 hx2 hy2 hw hh
  have hfits : (blitRect r).fits ds dt raw :=
    (blitRect_fits_iff ..).2 ⟨hx0, hy0, hx1, hy1, hx2, hy2, hw, hh⟩
  have fs := checkSurface_ok hks
  have ft := checkSurface_ok hkt
  have hrect : ∀ i j, (i, j) ∈ rectOffsets (blitRect r).width (blitRect r).height ↔ inRect i j := fun i j => by
    simp only [mem_rectOffsets, blitRect, Int.lt_add_one_iff]
    rfl
  refine ⟨_, exec_blit_of_fits hks hkt hss hst hfits, fun i j h => ?_, fun px py hpx hpy h => ?_, fun a h => ?_,
    fun a bit h => ?_⟩
  · have hpixel := readPlace_blitCopies ft hfits hm fs hd ((hrect i j).2 h)
    rwa [blitValue] at hpixel
  · exact readPlace_blitCopies_outside (q := (px, py)) ft hfits hm ⟨by omega, by omega, by omega, by omega⟩
      fun o ho => h o.1 o.2 ((hrect o.1 o.2).1 ho)
  · exact runWrites_outside hm (forall_mem_blitCopies.2 fun o ho => h o.1 o.2 ((hrect o.1 o.2).1 ho))
  · exact runWrites_other_bit hm (forall_mem_blitCopies.2 fun o ho => h o.1 o.2 ((hrect o.1 o.2).1 ho))

/-- Settles O29: a rectangle past one of the bounds does not fit, and then the plan is the error. -/
theorem blitRaisesOutOfBounds : Obligations.BlitRaisesOutOfBounds := by
  intro s src dst raw ks kt r ds dt x0 x1 y0 y1 x2 y2 wide high hks hkt hout
  have hnot : ¬ (blitRect r).fits ds dt raw := by
    change x0 < 0 ∨ y0 < 0 ∨ x1 ≥ ds.boundWidth raw ∨ y1 ≥ ds.boundHeight raw ∨ x2 < 0 ∨ y2 < 0 ∨
      x2 + (x1 - x0 + 1) > dt.boundWidth raw ∨ y2 + (y1 - y0 + 1) > dt.boundHeight raw at hout
    rw [blitRect_fits_iff]
    omega
  exact exec_of_error (planBlit_of_not_fits hks hkt hnot) (by decide)

end Sys2Proof.Machine
end

section
/-! PROOF. Errors, the interrupt output and the abort (60_exceptions.md, 70_reset_and_hazards.md): what a raising command
leaves, which codes each command has, what a reset of a running command answers, and the completion against a STATUS
clear. -/

namespace Sys2Proof.Machine

/-! ### The code a command ends with (R222 to R225) -/

section
variable {i : Instr} {s t : State}

/-- A command ends with 0, or its checks raised the code it ends with and only STATUS has changed. -/
theorem exec_errcode (h : exec i s = .next t) :
    t.errcode = .ok ∨ planOf i s.operands = .error t.errcode ∧ t = s.raised t.errcode := by
  rcases exec_next h with ⟨c, hc, rfl⟩ | ⟨p, -, -, rfl⟩
  · exact .inr ⟨hc, complete_eq_raised (planOf_error_ne_ok hc)⟩
  · exact .inl rfl

/-- Settles O40: the checks read the operand registers alone, so they raise the same code over any memory. -/
theorem errorsArePrecise : Obligations.ErrorsArePrecise := by
  intro i s t h hne
  rcases exec_errcode h with hok | ⟨hplan, ht⟩
  · exact absurd hok hne
  refine ⟨ht, fun m => ?_⟩
  have hraises : exec i { s with mem := m } = .next (State.raised { s with mem := m } t.errcode) :=
    exec_of_error hplan hne
  rw [hraises, ht]
  rfl

/-- The codes that checks can raise: three from a slot check, and one of its own each for BLIT and SUBVIEW (R225). -/
theorem planOf_error_code {r : Regs} {c : ErrCode} (h : planOf i r = .error c) :
    (c = .badPtype ∨ c = .badDesc ∨ c = .badClip) ∨
    (c = .blitBounds ∧ ∃ src dst raw, i = .blit src dst raw) ∨
    (c = .subviewBounds ∧ ∃ parent result, i = .subview parent result) :=
  (planOf_error h).imp_left fun ⟨_, _, hc⟩ => checkSurface_error hc

/-- NOP and the flag commands check nothing (R155, R160 to R163). -/
theorem planOf_unchecked (hi : i = .nop ∨ ∃ sl, i = .rotcw sl ∨ i = .rotccw sl ∨ i = .flipx sl ∨ i = .flipy sl)
    (r : Regs) (c : ErrCode) : planOf i r ≠ .error c := by
  rcases hi with rfl | ⟨sl, rfl | rfl | rfl | rfl⟩ <;> exact nofun

/-- Settles O42: the code is 0, or one that the command's checks can raise. -/
theorem eachCommandHasItsErrorCodes : Obligations.EachCommandHasItsErrorCodes := by
  intro i s t h
  rcases exec_errcode h with hok | ⟨hplan, -⟩
  · rw [hok]
    exact ⟨nofun, nofun, nofun, nofun, fun _ => rfl⟩
  have hunchecked := fun hi => planOf_unchecked hi s.operands t.errcode hplan
  rcases planOf_error_code hplan with hslot | ⟨hc, hblit⟩ | ⟨hc, hsubview⟩
  · rcases hslot with hc | hc | hc <;> rw [hc] <;> exact ⟨nofun, nofun, nofun, nofun, fun hi => (hunchecked hi).elim⟩
  · rw [hc]
    exact ⟨nofun, nofun, fun _ => hblit, nofun, fun hi => (hunchecked hi).elim⟩
  · rw [hc]
    exact ⟨nofun, nofun, nofun, fun _ => hsubview, fun hi => (hunchecked hi).elim⟩

end

/-! ### One step of a reset (R250 to R252) -/

section
variable {s t : State} {f : Flight} {v : Word} {rest : List Input}

/-- A CTRL write with SRST resets the unit, whatever its other bits (R251). -/
theorem step_softReset (hi : s.inputs = .regWrite 0x004 4 v :: rest) (hr : s.resetHeld = false)
    (hv : v.getLsbD 1 = true) : step s = State.resetUnit { s with inputs := rest } := by
  rw [step_regWrite hi (windowAccess_offset .ctrl)]
  simp only [State.hostWrite, hr, hv, Bool.false_eq_true, if_true, if_false]

theorem step_resetAssert (hi : s.inputs = .resetAssert :: rest) :
    step s = andThen (State.resetUnit { s with inputs := rest }) State.holdReset := step_cons hi

/-- The abort of a command past its checks: some first pixel writes, and the registers reset (R252). -/
theorem resetUnit_of_plan {p : Plan} (hf : s.flight = some f) (hp : f.plan = .ok p) (hs : ∀ d ∈ p.surfaces, s.serves d) :
    s.resetUnit = .next { s.resetRegisters with
      mem := runWrites s.mem (p.writes.take (abortedCount s.choices p.writes.length))
      choices := s.choices + 1 } := by
  have hspace : p.bytes.all (fun a => decide (a < addressSpace)) = true := by simpa using Flight.plan_inSpace hp
  have hserved : p.surfaces.all (servesSurface s.unserved) = true :=
    List.all_eq_true.2 fun d hd => (servesSurface_iff s d).2 (hs d hd)
  simp only [State.resetUnit, hf, hp, hspace, hserved, if_true]

/-- The abort of a command that raises (R224). -/
theorem resetUnit_of_error {c : ErrCode} (hf : s.flight = some f) (hp : f.plan = .error c) :
    s.resetUnit = .next s.resetRegisters := by
  simp only [State.resetUnit, hf, hp]

theorem abortedCount_le (choice n : Nat) : abortedCount choice n ≤ n := Nat.min_le_right ..

/-- Either way of resetting the unit leaves what the reset of the unit leaves, the reset input at its new level. -/
theorem step_of_resetUnit {held : Bool}
    (hin : held = false ∧ s.resetHeld = false ∧ s.inputs = .regWrite 0x004 4 v :: rest ∧ v.getLsbD 1 = true ∨
      held = true ∧ s.inputs = .resetAssert :: rest)
    (h : State.resetUnit { s with inputs := rest } = .next t) : step s = .next { t with resetHeld := held } := by
  rcases hin with ⟨rfl, hr, hi, hv⟩ | ⟨rfl, hi⟩
  · have hlevel : t.resetHeld = false := (resetUnit_registers h).2.trans hr
    rw [step_softReset hi hr hv, h, ← hlevel]
  · rw [step_resetAssert hi, h]
    rfl

/-- Settles O51: the reset of the unit by the plan of the command in flight. -/
theorem softResetAbortsAtAPixelBoundary : Obligations.SoftResetAbortsAtAPixelBoundary := by
  intro s f v rest held hf hin
  refine ⟨fun p hp hs => ⟨_, abortedCount_le s.choices _, s.choices + 1, ?_⟩, fun c hp => ?_⟩
  · exact step_of_resetUnit hin (resetUnit_of_plan (s := { s with inputs := rest }) hf hp hs)
  · exact step_of_resetUnit hin (resetUnit_of_error (s := { s with inputs := rest }) hf hp)

/-! ### The interrupt output (R230) -/

theorem irq_of_not_done (h : t.done = false) : t.irq = false := by simp [State.irq, h]

theorem irq_of_not_enabled (h : t.irqEn = false) : t.irq = false := by simp [State.irq, h]

theorem resetUnit_irq (h : s.resetUnit = .next t) : t.irq = false :=
  (congrArg State.irq (resetUnit_registers h).1).symm

/-- Settles O49: a completion sets DONE; each event listed clears DONE or IRQ_EN. -/
theorem interruptFollowsDone : Obligations.InterruptFollowsDone := by
  refine ⟨fun _ => rfl, fun i s t h => ?completion, fun s t v rest h =>
    ⟨fun hr => ⟨fun hi hb => ?issue, fun hi hv => ?clear, fun hi hv => ?disable, fun hi hv => ?softReset⟩,
      fun hi => ?hardReset⟩⟩
  case completion =>
    obtain ⟨m, w, c, -, rfl⟩ := exec_eq_complete h
    simp [State.irq]
  case issue =>
    have hstep := (step_regWrite hi (windowAccess_offset .cmd)).trans (hostWrite_cmd_idle hr hb)
    cases hstep.symm.trans h
    exact irq_of_not_done rfl
  case clear =>
    have hstep := (step_regWrite hi (windowAccess_offset .status)).trans (hostWrite_status hr)
    cases hstep.symm.trans h
    exact irq_of_not_done (by simp [hv])
  case disable =>
    cases hsrst : v.getLsbD 1 with
    | true => exact resetUnit_irq (step_softReset hi hr hsrst ▸ h)
    | false =>
      have hstep := (step_regWrite hi (windowAccess_offset .ctrl)).trans (hostWrite_ctrl hr hsrst)
      cases hstep.symm.trans h
      exact irq_of_not_enabled hv
  case softReset => exact resetUnit_irq (step_softReset hi hr hv ▸ h)
  case hardReset =>
    rw [step_resetAssert hi] at h
    obtain ⟨u, hu, rfl⟩ := andThen_next h
    change u.irq = false
    exact resetUnit_irq hu

/-! ### A completion against a STATUS clear (R231) -/

/-- A turn of the unit with a command in flight is its completion, which leaves WIGN alone (R222). -/
theorem unitTurn_status (hf : s.flight = some f) (h : s.unitTurn = .next t) :
    t.done = true ∧ t.busy = false ∧ t.wign = s.wign := by
  rw [unitTurn_eq_finish hf] at h
  rcases finish_next h with ⟨c, -, rfl⟩ | ⟨p, -, -, -, rfl⟩
  · exact ⟨rfl, rfl, rfl⟩
  · exact ⟨rfl, rfl, by simp⟩

theorem step_statusAtCompletion (hi : s.inputs = .statusAtCompletion v :: rest) (hb : s.busy = true) :
    step s = andThen (State.unitTurn { s with inputs := rest }) fun t => t.clashStatus v :=
  (step_cons hi).trans (if_pos hb)

/-- Settles O56: the clash clears ERR and WIGN only, after the completion has set DONE. -/
theorem completionWinsOverStatusClear : Obligations.CompletionWinsOverStatusClear := by
  intro s t v rest hb hi h
  obtain ⟨f, hf⟩ := Option.isSome_iff_exists.1 hb
  rw [step_statusAtCompletion hi hb] at h
  obtain ⟨u, hu, rfl⟩ := andThen_next h
  obtain ⟨hdone, hidle, hwign⟩ := unitTurn_status (s := { s with inputs := rest }) hf hu
  exact ⟨hdone, hidle, by rw [State.clashStatus_wign, hwign]⟩

end

end Sys2Proof.Machine
end

section
/-! PROOF. Reset (70_reset_and_hazards.md): the registers held while the reset input is asserted, and a reset with no
command in flight. -/

namespace Sys2Proof.Machine

section
variable {s t : State}

/-! ### The reset input over a step (R250) -/

/-- With the input deasserted there is nothing to hold. -/
theorem resetHolds_of_deasserted (h : s.resetHeld = false) : s.resetHolds := fun hr => by
  rw [h] at hr
  cases hr

/-- A command in flight and an asserted reset input exclude each other. -/
theorem State.resetHolds.deasserted_of_flight {f : Flight} (hs : s.resetHolds) (hf : s.flight = some f) :
    s.resetHeld = false := by
  by_contra hr
  have hidle : none = s.flight := congrArg State.flight (hs (Bool.eq_true_of_not_eq_false hr))
  cases hidle.trans hf

theorem exec_resetHeld {i : Instr} (h : exec i s = .next t) : t.resetHeld = s.resetHeld := by
  obtain ⟨m, w, c, -, rfl⟩ := exec_eq_complete h
  simp

theorem releaseReset_resetHeld (s : State) : s.releaseReset.resetHeld = false := by
  cases hr : s.resetHeld with
  | true => rw [State.releaseReset_held hr]
  | false => rwa [State.releaseReset_idle hr]

theorem hostWrite_resetHeld {g : Reg} {v : Word} (h : s.hostWrite g v = .next t) : t.resetHeld = s.resetHeld := by
  rcases hostWrite_next h with ⟨_, rfl⟩ | ⟨_, ⟨_, _, hreset⟩ | ⟨_, _, rfl⟩ | ⟨_, rfl⟩ | ⟨_, _, rfl⟩ | ⟨_, rfl⟩ | ⟨_, _, rfl⟩ |
    ⟨_, _, rfl⟩⟩
  case inr.inl => exact (resetUnit_registers hreset).2
  all_goals rfl

theorem hostWrite_resetHolds {g : Reg} {v : Word} (hs : s.resetHolds) (h : s.hostWrite g v = .next t) :
    t.resetHolds := by
  cases hr : s.resetHeld with
  | true =>
    cases (hostWrite_held hr g v).symm.trans h
    exact hs
  | false => exact resetHolds_of_deasserted ((hostWrite_resetHeld h).trans hr)

/-- The clash of a completion with a STATUS clear sets ERR only beside a nonzero ERRCODE, and a reset leaves none. -/
theorem clashStatus_resetRegisters (s : State) (v : Word) :
    s.resetRegisters.clashStatus v = { s.resetRegisters with choices := s.choices + 1 } := by
  simp [State.clashStatus]

theorem clashStatus_of_reset (v : Word) (h : s.resetRegisters = s) : (s.clashStatus v).resetRegisters = s.clashStatus v :=
  calc (s.clashStatus v).resetRegisters
      = { s.resetRegisters with choices := s.choices + 1 } := rfl
    _ = s.resetRegisters.clashStatus v := (clashStatus_resetRegisters s v).symm
    _ = s.clashStatus v := by rw [h]

/-- Settles O57: while the input is asserted no command ends and no host write takes effect; every other part of a step
leaves the registers or resets them. -/
theorem stepKeepsTheAssertedReset : Obligations.StepKeepsTheAssertedReset := by
  intro s t hs h
  exact step_keeps State.resetHolds
    (fun _ l hs hr => congrArg (fun u : State => { u with inputs := l }) (hs hr))
    (fun _ v hs hr => congrArg (State.logRead · v) (hs hr))
    (fun _ _ _ _ hs hf he => resetHolds_of_deasserted ((exec_resetHeld he).trans (hs.deasserted_of_flight hf)))
    (fun _ _ hs hf => resetHolds_of_deasserted (hs.deasserted_of_flight hf))
    (fun _ _ _ hu _ => congrArg State.holdReset (resetUnit_registers hu).1)
    (fun s _ => resetHolds_of_deasserted (releaseReset_resetHeld s))
    (fun _ _ _ _ hs hw => hostWrite_resetHolds hs hw)
    (fun s a b hs hr => congrArg (State.withMem · (s.mem.write a.toNat b)) (hs hr))
    (fun _ v hs hr => clashStatus_of_reset v (hs hr)) hs h

/-! ### A reset with no command in flight (R250, R251) -/

theorem resetUnit_of_idle (hf : s.flight = none) : s.resetUnit = .next s.resetRegisters := by
  simp only [State.resetUnit, hf]

theorem step_resetRelease {rest : List Input} (hi : s.inputs = .resetRelease :: rest) :
    step s = .next (State.releaseReset { s with inputs := rest }) := step_cons hi

/-- Settles O50: with nothing to abort, each of the three resets the registers alone. -/
theorem idleResetKeepsMemory : Obligations.IdleResetKeepsMemory := by
  intro s v rest hb
  have hreset : State.resetUnit { s with inputs := rest } = .next (State.resetRegisters { s with inputs := rest }) :=
    resetUnit_of_idle (s := { s with inputs := rest }) (flight_of_busy_eq_false hb)
  refine ⟨fun hr hi hv => ?softReset, fun hi => ?asserted, fun hr hi => ?deasserted⟩
  case softReset => exact step_of_resetUnit (.inl ⟨rfl, hr, hi, hv⟩) hreset
  case asserted => exact (step_of_resetUnit (v := v) (.inr ⟨rfl, hi⟩) hreset).trans rfl
  case deasserted => rw [step_resetRelease hi, State.releaseReset_held (s := { s with inputs := rest }) hr]; rfl

/-! ### Register accesses while the reset input is asserted (R43, R250) -/

theorem resetRegisters_readReg (s : State) (g : Reg) : s.resetRegisters.readReg g = if g = .id then 0x47500001 else 0 :=
  calc s.resetRegisters.readReg g
      = State.reset.readReg g := by cases g <;> rfl
    _ = if g = .id then 0x47500001 else 0 := reset_readReg g

/-- Settles O58: the write is dropped, and the read finds what a reset leaves. -/
theorem assertedResetHoldsTheRegisters : Obligations.AssertedResetHoldsTheRegisters := by
  intro s g v rest hr
  refine ⟨fun hi => ?write, fun hs hi => ?read⟩
  case write => exact (step_regWrite hi (windowAccess_offset g)).trans (hostWrite_held (s := { s with inputs := rest }) hr g v)
  case read =>
    have hread : s.readReg g = if g = .id then 0x47500001 else 0 := hs hr ▸ resetRegisters_readReg s g
    rw [step_regRead hi (windowAccess_offset g), hread]

end

end Sys2Proof.Machine
end
